-- ==== Sys2Proof/Word.lean ====
section
/-! DEFINITION. The word types of the NSEQ (spec 00_scope.md R8, R9). Bit 0 is the least significant bit. -/

namespace Sys2Proof

/-- A bus byte, an 8-bit operand field, an 8-bit register (R8). -/
abbrev Byte := BitVec 8

/-- A request word or a WSTR payload word (R8, R47). -/
abbrev Word := BitVec 32

/-- One nibble (R12: "4-bit half of a byte"). -/
abbrev Nibble := BitVec 4

/-- A 7-bit address: of a bus device (R34) or of a DDRAM cell (R8). -/
abbrev Addr := BitVec 7

/-- A transport error value (R7 `TERR`, decision D31). The block only copies it, so it is a plain number below
`2 ^ TERR_W`; the bound is part of `Safety.BlockInv`. -/
abbrev TErr := Nat

end Sys2Proof
end

