-- ==== Sys2Proof/Syntax.lean ====
section
/-! DEFINITION. The request language: one constructor per row of spec/opcode_table.json (30_encoding.md R48, R50).
The operands are the raw fields of the request word: nothing is sign-extended, scaled or shifted at decode (R49). -/

namespace Sys2Proof

inductive Instr where
  /-- CMD8, OP 0x01, format V (R59). -/
  | cmd8 (value : Byte)
  /-- CMD4, OP 0x02, format V (R60). -/
  | cmd4 (value : Byte)
  /-- DATA4, OP 0x03, format V (R61). -/
  | data4 (value : Byte)
  /-- WAIT, OP 0x04, format W: `ms` = zext_16({B, C}) (R49, R63). -/
  | wait (ms : BitVec 16)
  /-- SETBL, OP 0x05, format V (R62). -/
  | setbl (on : Byte)
  /-- INIT, OP 0x10, format RC: B = rows, C = cols (R70). -/
  | init (rows cols : Byte)
  /-- CLEAR, OP 0x11, format N (R71). -/
  | clear
  /-- HOME, OP 0x12, format N (R72). -/
  | home
  /-- SETCUR, OP 0x13, format RC: B = row0, C = col0, both 0-based (R73). -/
  | setcur (row0 col0 : Byte)
  /-- WCHAR, OP 0x14, format X: 1-based row and col (R74). -/
  | wchar (ch row col : Byte)
  /-- WSTR, OP 0x15, format S: 1-based row and col. The operand `len` of the table is the length of `text`, whose bytes
  are `PAYLOAD[0 .. len-1]` (R52, R75). -/
  | wstr (row col : Byte) (text : List Byte)
  /-- SETMODE, OP 0x16, format M: A = displayOn, B = blinkOn, C = cursorOn (R76, C4). -/
  | setmode (displayOn blinkOn cursorOn : Byte)
  deriving DecidableEq, Repr

end Sys2Proof
end

