-- ==== Sys2Proof/WellFormed.lean ====
section
/-! DEFINITION. Which instructions can be written as request words. -/

namespace Sys2Proof

/-- R53: "More than 255 bytes is an assembly error" (the count goes into the 8-bit field A). Every other operand fills
its field, so every value of it can be written. INIT rows and SETCUR row0 out of range are writable too: they fault
when the request is accepted (R80). -/
def Instr.wellFormed : Instr → Bool
  | .wstr _ _ text => decide (text.length ≤ 255)
  | .cmd8 _ | .cmd4 _ | .data4 _ | .wait _ | .setbl _ | .init _ _ | .clear | .home | .setcur _ _ | .wchar _ _ _
  | .setmode _ _ _ => true

end Sys2Proof
end

