-- ==== Sys2Proof/Decode.lean ====
section
/-! DEFINITION. Request words to instructions and back (30_encoding.md R47 to R52). Decoding is total and rejects by
name; the block turns every rejection into `Fault(IllegalRequest)` (R51). -/

namespace Sys2Proof

/-! ## The fields of a request word (R47) -/

/-- `OP`, bits 31:24. -/
def opOf (w : Word) : Byte := w.extractLsb' 24 8
/-- `A`, bits 23:16. -/
def aOf (w : Word) : Byte := w.extractLsb' 16 8
/-- `B`, bits 15:8. -/
def bOf (w : Word) : Byte := w.extractLsb' 8 8
/-- `C`, bits 7:0. -/
def cOf (w : Word) : Byte := w.extractLsb' 0 8

/-! ## The opcode map (R50) -/

def opCmd8 : Byte := 0x01
def opCmd4 : Byte := 0x02
def opData4 : Byte := 0x03
def opWait : Byte := 0x04
def opSetbl : Byte := 0x05
def opInit : Byte := 0x10
def opClear : Byte := 0x11
def opHome : Byte := 0x12
def opSetcur : Byte := 0x13
def opWchar : Byte := 0x14
def opWstr : Byte := 0x15
def opSetmode : Byte := 0x16

/-! ## WSTR's payload (R52) -/

/-- `P = ceil(len / 4)` payload words follow a WSTR header; "No other request has payload". -/
def payloadWords (hdr : Word) : Nat :=
  if opOf hdr = opWstr then ((aOf hdr).toNat + 3) / 4 else 0

/-- The four byte lanes of a payload word, the most significant first (R38). -/
def lanes (w : Word) : List Byte :=
  [w.extractLsb' 24 8, w.extractLsb' 16 8, w.extractLsb' 8 8, w.extractLsb' 0 8]

/-- Character 4k+j is in bits [31-8j : 24-8j] of payload word k (R38, R52). -/
def unpack (ps : List Word) : List Byte := ps.flatMap lanes

/-- The inverse of `unpack`: the padding lanes of the last word, which may hold any value (R52), are written 0. -/
def pack : List Byte → List Word
  | [] => []
  | [a] => [a ++ 0x00#8 ++ 0x00#8 ++ 0x00#8]
  | [a, b] => [a ++ b ++ 0x00#8 ++ 0x00#8]
  | [a, b, c] => [a ++ b ++ c ++ 0x00#8]
  | a :: b :: c :: d :: rest => (a ++ b ++ c ++ d) :: pack rest

/-! ## Decoding -/

/-- Why words are no request. -/
inductive DecodeError where
  /-- No word at all. -/
  | noWord
  /-- `OP` is not in R50's map. -/
  | illegalOp
  /-- A field that R48's format marks `0` is nonzero. -/
  | reservedNonzero
  /-- The payload is not the one the header announces. The sequencer never meets it: it collects exactly
  `payloadWords` words. -/
  | payloadLength
  deriving DecidableEq, Repr

/-- A field marked `0` in R48 must be zero (R51). -/
def whenZero (b : Bool) (i : Instr) : Except DecodeError Instr :=
  if b then .ok i else .error .reservedNonzero

/-- Decode a header word; `bytes` are the payload bytes, of which WSTR reads the first `A` (R28) and no other request
reads any. -/
def decode (hdr : Word) (bytes : List Byte) : Except DecodeError Instr :=
  if opOf hdr = opCmd8 then whenZero (aOf hdr == 0 && bOf hdr == 0) (.cmd8 (cOf hdr))
  else if opOf hdr = opCmd4 then whenZero (aOf hdr == 0 && bOf hdr == 0) (.cmd4 (cOf hdr))
  else if opOf hdr = opData4 then whenZero (aOf hdr == 0 && bOf hdr == 0) (.data4 (cOf hdr))
  else if opOf hdr = opWait then whenZero (aOf hdr == 0) (.wait (bOf hdr ++ cOf hdr))
  else if opOf hdr = opSetbl then whenZero (aOf hdr == 0 && bOf hdr == 0) (.setbl (cOf hdr))
  else if opOf hdr = opInit then whenZero (aOf hdr == 0) (.init (bOf hdr) (cOf hdr))
  else if opOf hdr = opClear then whenZero (aOf hdr == 0 && bOf hdr == 0 && cOf hdr == 0) .clear
  else if opOf hdr = opHome then whenZero (aOf hdr == 0 && bOf hdr == 0 && cOf hdr == 0) .home
  else if opOf hdr = opSetcur then whenZero (aOf hdr == 0) (.setcur (bOf hdr) (cOf hdr))
  else if opOf hdr = opWchar then .ok (.wchar (aOf hdr) (bOf hdr) (cOf hdr))
  else if opOf hdr = opWstr then
    if (bytes.take (aOf hdr).toNat).length = (aOf hdr).toNat
    then .ok (.wstr (bOf hdr) (cOf hdr) (bytes.take (aOf hdr).toNat))
    else .error .payloadLength
  else if opOf hdr = opSetmode then .ok (.setmode (aOf hdr) (bOf hdr) (cOf hdr))
  else .error .illegalOp

/-- Decode a whole request: the header and exactly its payload words (R52: "1 + P words"). -/
def decodeWords : List Word → Except DecodeError Instr
  | [] => .error .noWord
  | hdr :: ps => if ps.length = payloadWords hdr then decode hdr (unpack ps) else .error .payloadLength

/-! ## Encoding (R48, R50, R52) -/

/-- `OP[31:24] A[23:16] B[15:8] C[7:0]` (R47). -/
def mkHeader (op a b c : Byte) : Word := op ++ a ++ b ++ c

/-- The request word of an instruction. -/
def header : Instr → Word
  | .cmd8 v => mkHeader opCmd8 0 0 v
  | .cmd4 v => mkHeader opCmd4 0 0 v
  | .data4 v => mkHeader opData4 0 0 v
  | .wait ms => mkHeader opWait 0 (ms.extractLsb' 8 8) (ms.extractLsb' 0 8)
  | .setbl on => mkHeader opSetbl 0 0 on
  | .init rows cols => mkHeader opInit 0 rows cols
  | .clear => mkHeader opClear 0 0 0
  | .home => mkHeader opHome 0 0 0
  | .setcur row0 col0 => mkHeader opSetcur 0 row0 col0
  | .wchar ch row col => mkHeader opWchar ch row col
  | .wstr row col text => mkHeader opWstr (BitVec.ofNat 8 text.length) row col
  | .setmode d b c => mkHeader opSetmode d b c

/-- The payload bytes of an instruction. -/
def payloadBytes : Instr → List Byte
  | .wstr _ _ text => text
  | .cmd8 _ | .cmd4 _ | .data4 _ | .wait _ | .setbl _ | .init _ _ | .clear | .home | .setcur _ _ | .wchar _ _ _
  | .setmode _ _ _ => []

/-- The words of a well-formed instruction, in the order the host presents them. -/
def encode (i : Instr) : List Word := header i :: pack (payloadBytes i)

/-! ## The opcode table's numbering -/

/-- The words that the number `w` of `nbits` bits stands for: word `k` is bits `32k+31 .. 32k`, and every bit at or above
`nbits` is 0. As many words as the header announces. -/
def tableWords (nbits w : Nat) : List Word :=
  let v := w % 2 ^ nbits
  let hdr := BitVec.ofNat 32 v
  hdr :: (List.range (payloadWords hdr)).map (fun k => BitVec.ofNat 32 (v >>> (32 * (k + 1))))

/-- The instruction this decoder reads from an opcode-table word. -/
def decodeTableWord (nbits w : Nat) : Option Instr :=
  match decodeWords (tableWords nbits w) with
  | .ok i => some i
  | .error _ => none

end Sys2Proof
end

