-- ==== Sys2Proof/Config.lean ====
section
/-! DEFINITION. The parameters the spec leaves open (00_scope.md R7). R7: "A model takes every row of this table as an
argument": they stand in one record that a state carries and that no step changes, so a theorem over every state is a
theorem over every parameter choice. The defaults are in Machine/Defaults.lean. -/

namespace Sys2Proof

/-- What the registers hold after reset whose reset value R13 and R94 call unspecified. "any value" (93, part 2):
arguments of the model, like the rows of R7. -/
structure ResetChoices where
  /-- `CFG_ROWS` after reset (R13, R16, D17). -/
  cfgRows : Byte
  /-- `CFG_COLS` after reset (R13, R17, D17). -/
  cfgCols : Byte
  /-- `TERR_LAST` after reset (R13). -/
  terrLast : TErr
  /-- `REQ_WORD` after reset (R13). -/
  reqWord : Word
  /-- `PAYLOAD[0..254]` after reset (R13). -/
  payload : Vector Byte 255
  deriving DecidableEq, Repr

/-- The rows of R7's parameter table, each under its own name. -/
structure Params where
  /-- `DEV_ADDR`: 7-bit bus address of the expander. -/
  devAddr : Addr
  /-- `EN_BIT`: bus-byte mask of the enable line. -/
  enBit : Byte
  /-- `RS_BIT`: bus-byte mask of register-select. -/
  rsBit : Byte
  /-- `RW_BIT`: bus-byte mask of read/write. -/
  rwBit : Byte
  /-- `BL_BIT`: bus-byte mask of the backlight line. -/
  blBit : Byte
  /-- `FUNCTION_SET_CMD`: 4-bit, two-line function-set byte. -/
  functionSetCmd : Byte
  /-- `ENTRY_MODE_CMD`. -/
  entryModeCmd : Byte
  /-- `CLEAR_CMD`. -/
  clearCmd : Byte
  /-- `HOME_CMD`. -/
  homeCmd : Byte
  /-- `DISPCTL_BASE`. -/
  dispctlBase : Byte
  /-- `DISP_ON`. -/
  dispOn : Byte
  /-- `CURSOR_ON`. -/
  cursorOn : Byte
  /-- `BLINK_ON`. -/
  blinkOn : Byte
  /-- `FSET8_NIBBLE`. -/
  fset8Nibble : Nibble
  /-- `FSET4_NIBBLE`. -/
  fset4Nibble : Nibble
  /-- `CLK_PER_MS`: clock cycles per millisecond of the delay counter (OPEN). -/
  clkPerMs : Nat
  /-- `DLY_W`: width of the delay counter in bits (OPEN, with a lower bound). -/
  dlyW : Nat
  /-- `BACKLIGHT_RESET` (OPEN, D16). -/
  backlightReset : Bool
  /-- `TERR_W`: width of a transport error value (OPEN). -/
  terrW : Nat
  /-- The registers whose reset value is unspecified. -/
  atReset : ResetChoices
  deriving DecidableEq, Repr

/-- One of the four single-bit masks within 0x0F (R54). -/
abbrev isControlMask (b : Byte) : Prop := b = 0x01 ∨ b = 0x02 ∨ b = 0x04 ∨ b = 0x08

/-- What the spec asks of the parameters: R54 "four distinct single-bit masks within 0x0F"; R7 `DLY_W` "at least
ceil(log2(65535 × CLK_PER_MS + 1))"; a `TERR` value fits `TERR_W` bits. -/
structure Params.Wf (p : Params) : Prop where
  en : isControlMask p.enBit
  rs : isControlMask p.rsBit
  rw : isControlMask p.rwBit
  bl : isControlMask p.blBit
  distinct : [p.enBit, p.rsBit, p.rwBit, p.blBit].Nodup
  dlyWide : 65535 * p.clkPerMs < 2 ^ p.dlyW
  terrFits : p.atReset.terrLast < 2 ^ p.terrW

end Sys2Proof
end

