-- ==== Sys2Proof/Machine/Defaults.lean ====
section
/-! DEFINITION. The constants the source fixes (00_scope.md R6, 10_state.md R20) and the default of every parameter
(00_scope.md R7). -/

namespace Sys2Proof.Machine

/-! ## Constants (R6) -/

/-- `ORIGIN`: public row and column numbers are 1-based. -/
def origin : Nat := 1
/-- `DDRAM_SET`: OR'ed with the 7-bit DDRAM address. -/
def ddramSet : Byte := 0x80
/-- `T_POWERUP_MS`. -/
def tPowerupMs : Nat := 100
/-- `T_FSET_MS`. -/
def tFsetMs : Nat := 100
/-- `T_CLEAR_MS`. -/
def tClearMs : Nat := 100
/-- `T_HOME_MS`. -/
def tHomeMs : Nat := 50

/-- The ROM `ROW_BASE[0..3]`: 7-bit DDRAM start addresses by 0-based row (R6, R20). Its index has 2 bits (R33). -/
def rowBase (i : BitVec 2) : Addr :=
  if i = 0 then 0x00 else if i = 1 then 0x40 else if i = 2 then 0x14 else 0x54

/-! ## Defaults (R7) -/

/-- Every register whose reset value is unspecified holds 0 in `State.reset`. DESIGN CHOICE (log entry 2). -/
def defaultResetChoices : ResetChoices :=
  { cfgRows := 0, cfgCols := 0, terrLast := 0, reqWord := 0, payload := Vector.replicate 255 0 }

/-- The defaults of R7. `DEV_ADDR` is the source's (D14); the masks and the command bytes are the spec's general-knowledge
defaults (D9, D10; G1 to G10); `BACKLIGHT_RESET` = 1 is the value of the spec's examples (D16). `CLK_PER_MS`, `DLY_W` and
`TERR_W` are OPEN and have no default in the spec: DESIGN CHOICE (log entry 3). -/
def defaultParams : Params :=
  { devAddr := 0x27
    enBit := 0x04
    rsBit := 0x01
    rwBit := 0x02
    blBit := 0x08
    functionSetCmd := 0x28
    entryModeCmd := 0x06
    clearCmd := 0x01
    homeCmd := 0x02
    dispctlBase := 0x08
    dispOn := 0x04
    cursorOn := 0x02
    blinkOn := 0x01
    fset8Nibble := 0x3
    fset4Nibble := 0x2
    clkPerMs := 1
    dlyW := 16
    backlightReset := true
    terrW := 8
    atReset := defaultResetChoices }

end Sys2Proof.Machine
end

