-- ==== Sys2Proof/Machine/State.lean ====
section
/-! DEFINITION. The state of the NSEQ (10_state.md R13), what its ports hold (20_memory.md R30), its environment (00_scope.md
R5), the ghost state that R29 allows, and the event trace (R11). Plain data. -/

namespace Sys2Proof.Machine

/-! ## The pieces -/

/-- `SEQ_STATE` (R26). -/
inductive SeqState where
  | idle
  | busy
  | faulted
  deriving DecidableEq, Repr

/-- A micro-operation (R25): `W(b)`, one `BusWrite` of byte b, or `D(ms)`, one `Delay` of ms milliseconds. -/
inductive MicroOp where
  | write (b : Byte)
  | delay (ms : Nat)
  deriving DecidableEq, Repr

/-- The transport's answer to one bus write (R31): `Ok` or `Err(e)`. `landed` says whether the expander received the byte
of a write answered `Err`, which the block cannot know and never reads (R29, D39): it drives the ghost state only. -/
inductive Answer where
  | ok
  | err (e : TErr) (landed : Bool)
  deriving DecidableEq, Repr

/-- What the response channel holds: `rsp_status`, and `rsp_terr` where it is meaningful (R30, R78). `none` says that
`rsp_terr` has no meaning ("any value", 93 part 2): no value is chosen for it. -/
structure Response where
  status : Byte
  terr : Option TErr
  deriving DecidableEq, Repr

/-- An event of the block's observable trace (R11). -/
inductive Event where
  /-- The host has handed over a request with this request word. -/
  | req (w : Word)
  /-- One bus write of byte b to device addr. -/
  | tx (addr : Addr) (b : Byte)
  /-- The transport's answer to the `tx` before it. -/
  | ans (a : Answer)
  /-- A wait of at least ms milliseconds. -/
  | dly (ms : Nat)
  /-- The response that ends a request. -/
  | rsp (r : Response)
  /-- The block enters the fault state. -/
  | flt (cause : Byte)
  deriving DecidableEq, Repr

/-- The level of the single-bit inputs at one step (R30). Their timing is the agents' own: R30 and R101 bound none of
it. -/
structure Pins where
  /-- `rst_n`. -/
  rstN : Bool
  /-- `req_valid`: the host presents its next word, if it has one. -/
  reqValid : Bool
  /-- `rsp_ready`: the host takes a response. -/
  rspReady : Bool
  /-- `bw_ready`: the transport takes a bus write. -/
  bwReady : Bool
  /-- `br_valid`: the transport answers the bus write it has taken, if it has an answer. -/
  brValid : Bool
  deriving DecidableEq, Repr

/-- What the agents outside the block will do (R5): inputs, not registers. -/
structure Env where
  /-- The words the host presents on the request port, in order (`req_data`, R30, R41). -/
  reqIn : List Word
  /-- The transport's answers to the bus writes it will answer, in order (`br_err`, `br_terr`, R31). With none left a bus
  write stays unanswered, the hang that R101 says a model must allow. -/
  answers : List Answer
  /-- The pin levels sampled at the coming steps, one each; after the last, all are 1 (log entry 4). -/
  pins : List Pins
  deriving DecidableEq, Repr

/-- The controller's interface mode (R29). -/
inductive CtrlMode where
  | unknown
  | eightBit
  | fourBit
  deriving DecidableEq, Repr

/-- State outside the block that its bytes change and that it never reads (R29). -/
structure Ghost where
  /-- The expander's output latch: the byte of the last bus write it received; `none` while no write has reached it. -/
  expander : Option Byte
  /-- The controller's interface mode, as far as the spec says it is known. -/
  ctrlMode : CtrlMode
  /-- The controller pairs nibbles in phase, as far as it is known (R99). -/
  inPhase : Bool
  /-- A nibble or byte transfer has had some of its bus writes and not yet its last (R57, R58): a reset now cuts it. -/
  mid : Bool
  /-- Every bus write of the INIT in progress has reached the expander so far. -/
  resync : Bool
  deriving DecidableEq, Repr

/-! ## The state -/

structure State where
  /-- `CFG_ROWS[7:0]` (R13, R16). -/
  cfgRows : Byte
  /-- `CFG_COLS[7:0]` (R13, R17). -/
  cfgCols : Byte
  /-- `BL`, the persistent backlight flag (R13, R18). -/
  bl : Bool
  /-- `INIT_DONE` (R13, R19). -/
  initDone : Bool
  /-- `STATUS[7:0]` (R13, R21). -/
  status : Byte
  /-- `TERR_LAST` (R13, R22). -/
  terrLast : TErr
  /-- `SEQ_STATE` (R13, R26). -/
  seqState : SeqState
  /-- `SEQ_PROG` (R13, R25). -/
  seqProg : List MicroOp
  /-- `SEQ_STEP` (R13, R15, R25). -/
  seqStep : Nat
  /-- `DELAY_CNT` (R13, R27). -/
  delayCnt : Nat
  /-- `REQ_WORD` (R13, R26). -/
  reqWord : Word
  /-- `PAYLOAD[0..254]` (R13, R28, R52). -/
  payload : Vector Byte 255
  /-- `FAULT` (R13, R23). -/
  fault : Bool
  /-- `FAULT_CAUSE[7:0]` (R13, R23). -/
  faultCause : Byte
  /-- The words taken so far of a request whose last word is still to come (R30: the block collects the payload words of a
  WSTR whose header it has taken; R94: a partly taken WSTR is dropped by reset). -/
  collected : List Word
  /-- The transport has taken the current bus write and not yet answered it (R30, R31). -/
  bwOut : Bool
  /-- The response held until the host takes it (R78; `rsp_valid`, R30). -/
  rsp : Option Response
  /-- The parameters (R7), which no step changes. -/
  params : Params
  /-- The environment (R5). -/
  env : Env
  /-- Ghost state (R29). -/
  ghost : Ghost
  /-- The event trace so far, oldest first (R11). -/
  trace : List Event
  deriving DecidableEq, Repr

/-- Why the model stops where the spec describes no step. -/
inductive Fault where
  /-- Raised by `busyStep` when BUSY with `SEQ_STEP` past the end of `SEQ_PROG`. R26 has no arm for it and no run reaches
  it (`SEQ_STEP` goes up to the length, where the request completes). Safe: the model stops. -/
  | seqStepPastEnd
  deriving DecidableEq, Repr

/-- Why an instruction is refused. -/
inductive Refusal where
  /-- Raised by `exec` for an instruction that has no meaning yet. No arm raises it. Safe: the model stops. -/
  | notModelled (mnemonic : String)
  deriving DecidableEq, Repr

/-! ## Reset -/

/-- The block right after reset with parameters `p` (R13, R94): each register at R13's reset value, those it calls
unspecified at `p.atReset`, nothing on any port, nothing emitted yet, and the state outside unknown (R29: power-up). -/
def State.resetOf (p : Params) : State :=
  { cfgRows := p.atReset.cfgRows
    cfgCols := p.atReset.cfgCols
    bl := p.backlightReset
    initDone := false
    status := 0x00
    terrLast := p.atReset.terrLast
    seqState := .idle
    seqProg := []
    seqStep := 0
    delayCnt := 0
    reqWord := p.atReset.reqWord
    payload := p.atReset.payload
    fault := false
    faultCause := 0x00
    collected := []
    bwOut := false
    rsp := none
    params := p
    env := { reqIn := [], answers := [], pins := [] }
    ghost := { expander := none, ctrlMode := .unknown, inPhase := false, mid := false, resync := false }
    trace := [] }

/-- The machine right after reset, with the default parameters (R7, R13, R94). -/
def State.reset : State := State.resetOf defaultParams

end Sys2Proof.Machine
end

