-- ==== Sys2Proof/Machine/Operands.lean ====
section
/-! DEFINITION. Operand forms, bus bytes and micro-sequences (30_encoding.md R49, R54, R55; 40_engine.md R56 to R58;
41_display_ops.md R67, R70, R75, R76). A micro-sequence is built from the parameters and `BL` alone: R25 says no register it
reads changes while the request runs. -/

namespace Sys2Proof.Machine

/-! ## Operands (R9, R49) -/

/-- `nz(v)` (R9), the reading of every flag field (R49). -/
def nz (v : Byte) : Bool := v != 0

/-- `v[7:4]`. -/
def highNibble (v : Byte) : Nibble := v.extractLsb' 4 4

/-- `v[3:0]`. -/
def lowNibble (v : Byte) : Nibble := v.extractLsb' 0 4

/-! ## Bus bytes (R54, R56, R57) -/

/-- `blbits() = (BL = 1) ? BL_BIT : 0x00` (R56). -/
def blbits (p : Params) (bl : Bool) : Byte := if bl then p.blBit else 0x00

/-- The enable-low byte of `NibbleXfer(n, rs)` (R57):
`base <- (zext_8(n) << 4) | blbits() | (rs = 1 ? RS_BIT : 0x00)`. -/
def busByte (p : Params) (bl : Bool) (n : Nibble) (rs : Bool) : Byte :=
  (n.zeroExtend 8 <<< 4) ||| blbits p bl ||| (if rs then p.rsBit else 0x00)

/-- `NibbleXfer(n, rs)` (R57): enable high, then enable low. -/
def nibbleXfer (p : Params) (bl : Bool) (n : Nibble) (rs : Bool) : List MicroOp :=
  [.write (busByte p bl n rs ||| p.enBit), .write (busByte p bl n rs)]

/-- `Xfer8(v, rs)` (R58): the high nibble first, then the low nibble. -/
def xfer8 (p : Params) (bl : Bool) (v : Byte) (rs : Bool) : List MicroOp :=
  nibbleXfer p bl (highNibble v) rs ++ nibbleXfer p bl (lowNibble v) rs

/-- `CmdXfer(v)` = `Xfer8(v, 0)` (R58). -/
def cmdXfer (p : Params) (bl : Bool) (v : Byte) : List MicroOp := xfer8 p bl v false

/-- `DataXfer(v)` = `Xfer8(v, 1)` (R58). -/
def dataXfer (p : Params) (bl : Bool) (v : Byte) : List MicroOp := xfer8 p bl v true

/-! ## Addresses and command bytes (R55, R67, R76) -/

/-- `addr <- (ROW_BASE[row0] + col0) mod 128` (R67, C1). `row0` is 0..3 wherever a rule uses it; the ROM's index has 2
bits (R33), so a larger number, which no run reaches, is read by its two low bits (log entry 9). -/
def ddramAddr (row0 col0 : Nat) : Addr :=
  BitVec.ofNat 7 ((rowBase (BitVec.ofNat 2 row0)).toNat + col0)

/-- The DDRAM-set command `0x80 | addr` (R55, R67). -/
def ddramCmd (row0 col0 : Nat) : Byte := ddramSet ||| (ddramAddr row0 col0).zeroExtend 8

/-- `SetCurBody(row0, col0)` (R67). -/
def setCurBody (p : Params) (bl : Bool) (row0 col0 : Nat) : List MicroOp := cmdXfer p bl (ddramCmd row0 col0)

/-- The display-control command of SETMODE (R76):
`DISPCTL_BASE | (nz(A) ? DISP_ON : 0) | (nz(C) ? CURSOR_ON : 0) | (nz(B) ? BLINK_ON : 0)`. -/
def dispctlCmd (p : Params) (displayOn blinkOn cursorOn : Byte) : Byte :=
  p.dispctlBase ||| (if nz displayOn then p.dispOn else 0) ||| (if nz cursorOn then p.cursorOn else 0)
    ||| (if nz blinkOn then p.blinkOn else 0)

/-! ## Micro-sequences of more than one transfer (R70, R71, R72, R75) -/

/-- CLEAR's micro-sequence (R71), which is also step 7 of INIT (R70). -/
def clearProgram (p : Params) (bl : Bool) : List MicroOp := cmdXfer p bl p.clearCmd ++ [.delay tClearMs]

/-- HOME's micro-sequence (R72). -/
def homeProgram (p : Params) (bl : Bool) : List MicroOp := cmdXfer p bl p.homeCmd ++ [.delay tHomeMs]

/-- One function-set step of INIT: a `writeCommand8` nibble and its delay (R70, steps 2 and 3). -/
def fsetStep (p : Params) (bl : Bool) (n : Nibble) : List MicroOp := nibbleXfer p bl n false ++ [.delay tFsetMs]

/-- INIT's micro-sequence (R70, steps 1 to 8). It does not depend on rows or cols. -/
def initProgram (p : Params) (bl : Bool) : List MicroOp :=
  [.delay tPowerupMs]
    ++ fsetStep p bl p.fset8Nibble ++ fsetStep p bl p.fset8Nibble ++ fsetStep p bl p.fset8Nibble
    ++ fsetStep p bl p.fset4Nibble
    ++ cmdXfer p bl p.functionSetCmd
    ++ cmdXfer p bl p.dispctlBase
    ++ cmdXfer p bl p.entryModeCmd
    ++ clearProgram p bl
    ++ cmdXfer p bl (p.dispctlBase ||| p.dispOn)

/-- The micro-sequence of a bare wait (R63): `if ms > 0: Delay(ms)`. -/
def waitProgram (ms : BitVec 16) : List MicroOp := if ms = 0 then [] else [.delay ms.toNat]

/-- The character loop of WSTR (R75): one data transfer per character, in order. -/
def dataProgram (p : Params) (bl : Bool) (text : List Byte) : List MicroOp := text.flatMap (dataXfer p bl)

/-- The number of columns from a 1-based `col` to the end of the row, `CFG_COLS - col + ORIGIN`: the longest text WSTR
writes there (R68, R75). Evaluated only for 1 ≤ col ≤ `CFG_COLS` (R68). -/
def columnsLeft (cfgCols col : Byte) : Nat := cfgCols.toNat - col.toNat + origin

/-- WSTR's micro-sequence at a valid position (R75): the cursor, then the characters that fit. -/
def writeProgram (p : Params) (bl : Bool) (cfgCols row col : Byte) (text : List Byte) : List MicroOp :=
  setCurBody p bl (row.toNat - origin) (col.toNat - origin) ++ dataProgram p bl (text.take (columnsLeft cfgCols col))

end Sys2Proof.Machine
end

