-- ==== Sys2Proof/Machine/Flags.lean ====
section
/-! DEFINITION. Status codes, fault causes and the checks that give them (10_state.md R21; 41_display_ops.md R66;
60_exceptions.md R77, R80). -/

namespace Sys2Proof.Machine

/-- The status codes (R77). "No other code is produced." -/
inductive Status where
  | ok
  | rowTooLow
  | rowTooHigh
  | colTooLow
  | colTooHigh
  | transportError
  deriving DecidableEq, Repr

/-- The code of a status (R77). -/
def Status.code : Status → Byte
  | .ok => 0x00
  | .rowTooLow => 0x01
  | .rowTooHigh => 0x02
  | .colTooLow => 0x03
  | .colTooHigh => 0x04
  | .transportError => 0x05

/-- The fault causes (R80). -/
inductive FaultCause where
  | illegalRequest
  | notInitialized
  | badConfig
  | rowIndexOutOfTable
  deriving DecidableEq, Repr

/-- The code of a fault cause (R80). -/
def FaultCause.code : FaultCause → Byte
  | .illegalRequest => 0x01
  | .notInitialized => 0x02
  | .badConfig => 0x03
  | .rowIndexOutOfTable => 0x04

/-- `Validate(row, col)` (R66): the first failing check, row before column. -/
def validate (cfgRows cfgCols row col : Byte) : Status :=
  if row.toNat < origin then .rowTooLow
  else if origin + cfgRows.toNat - 1 < row.toNat then .rowTooHigh
  else if col.toNat < origin then .colTooLow
  else if origin + cfgCols.toNat - 1 < col.toNat then .colTooHigh
  else .ok

/-- INIT's check (R70, D18): `rows < 1 or rows > 4 or cols < 1`. -/
def badConfig (rows cols : Byte) : Bool :=
  decide (rows.toNat < 1) || decide (4 < rows.toNat) || decide (cols.toNat < 1)

/-- SETCUR's check (R73, D20): `row0 > 3`. -/
def rowOutOfTable (row0 : Byte) : Bool := decide (3 < row0.toNat)

/-- What a bus write's answer leaves in `STATUS` (R31). -/
def Answer.status : Answer → Status
  | .ok => .ok
  | .err _ _ => .transportError

/-- What a bus write's answer leaves in `TERR_LAST` (R22, R31): `Ok` leaves it unchanged. -/
def Answer.terr (a : Answer) (old : TErr) : TErr :=
  match a with
  | .ok => old
  | .err e _ => e

/-- Whether the expander received the byte (R29): always after `Ok`, either after `Err`. -/
def Answer.landed : Answer → Bool
  | .ok => true
  | .err _ l => l

/-- What `Respond(s)` puts on the response channel (R78): `TERR_LAST` beside TRANSPORT_ERROR, no meaning otherwise. -/
def responseOf (status : Byte) (terrLast : TErr) : Response :=
  { status := status
    terr := if status = Status.transportError.code then some terrLast else none }

end Sys2Proof.Machine
end

