-- ==== Sys2Proof/Machine/Ghost.lean ====
section
/-! DEFINITION. The ghost state that R29 allows: the expander's output latch and the controller's interface mode. The block
never reads it. -/

namespace Sys2Proof.Machine

/-- The `SEQ_STEP` of INIT's first bus write: step 0 is the power-up delay (R70). -/
def initFirstWrite : Nat := 1

/-- The `SEQ_STEP` of INIT's eighth bus write, the last of its fourth `writeCommand8` (R29, R70). -/
def initFset4Write : Nat := 11

/-- Every write of the INIT in progress has landed, this one included. -/
def Ghost.resyncAfter (g : Ghost) (op : Byte) (idx : Nat) (landed : Bool) : Bool :=
  op == opInit && landed && (idx == initFirstWrite || g.resync)

/-- Whether the nibble pairing is known to be in phase after the write: INIT's eight function-set writes bring it in
phase once the last of them has landed and not before (R29, R99); SETBL's byte is no nibble (R62); a CMD8 nibble and a
write that did not reach the expander lose it (R99). -/
def Ghost.phaseAfter (g : Ghost) (op : Byte) (idx : Nat) (landed : Bool) : Bool :=
  if op = opSetbl then g.inPhase
  else if op = opInit ∧ idx ≤ initFset4Write then idx == initFset4Write && g.resyncAfter op idx landed
  else g.inPhase && landed && op != opCmd8

/-- The micro-operation is a bus write. -/
def MicroOp.isWrite : MicroOp → Bool
  | .write _ => true
  | .delay _ => false

/-- Before the micro-operations `rest`, a transfer is in its middle. The writes up to the next delay or the end of the
micro-sequence are then no whole number of byte transfers, four writes each (R58). Between transfers they are: a nibble
transfer of its own (CMD8, INIT's function sets) and SETBL's byte have no write right after them (R59, R62, R70). -/
def insideTransfer (rest : List MicroOp) : Bool := (rest.takeWhile MicroOp.isWrite).length % 4 != 0

/-- What an answered bus write of byte `b`, step `idx` of a request with opcode `op` and with the micro-operations
`rest` still to come, does outside the block.
- The expander latches a byte it received and keeps its lines otherwise (R29, R90).
- The controller is in 4-bit mode after the fourth `writeCommand8` of INIT (R29), for as long as its nibbles stay in phase;
  otherwise its mode is unknown: "any value" (R99; 93 part 3).
DEDUCED (log entry 12).
The model presumes that the controller takes every nibble that reaches the expander: the case of R97, a transfer sent during
the controller's execution time (CMD4 `CLEAR_CMD` or `HOME_CMD` with no WAIT after it), which the controller ignores, is left
out. 93 part 3 says "any value" for the controller there, and this state keeps what it was known to be: DESIGN CHOICE, unsafe
(log entry 20). -/
def Ghost.write (g : Ghost) (op : Byte) (idx : Nat) (rest : List MicroOp) (b : Byte) (landed : Bool) : Ghost :=
  { expander := if landed then some b else g.expander
    resync := g.resyncAfter op idx landed
    inPhase := g.phaseAfter op idx landed
    mid := insideTransfer rest
    ctrlMode :=
      if op == opInit && idx == initFset4Write && g.resyncAfter op idx landed then .fourBit
      else if g.inPhase && g.phaseAfter op idx landed then g.ctrlMode
      else .unknown }

/-- Reset touches neither the expander nor the controller (R94, D36). One that cuts a transfer leaves the controller's nibbles
out of phase (R99; 93 part 3; V-RST-3); any other, before a transfer, between two, in a delay or while a response is held,
leaves them as they were. -/
def Ghost.reset (g : Ghost) : Ghost := { g with resync := false, inPhase := g.inPhase && !g.mid, mid := false }

end Sys2Proof.Machine
end

