-- ==== Sys2Proof/Machine/Ops.lean ====
section
/-! DEFINITION. The shared operations of the pseudocode (00_scope.md R10): `Respond`, `raise Fault`, `BusWrite`, `Delay`, the
acceptance arms of R26, and the reset event (R94). The block has no memory (R32): there are no memory operations. -/

namespace Sys2Proof.Machine

/-- Append an event to the trace (R11). -/
def emit (e : Event) (s : State) : State := { s with trace := s.trace ++ [e] }

/-! ## Responding and faulting -/

/-- `Respond(s)` (R78): emit `Rsp` and hold the response until the host takes it. -/
def respond (st : Byte) (s : State) : State :=
  emit (.rsp (responseOf st s.terrLast)) { s with rsp := some (responseOf st s.terrLast) }

/-- The host takes the held response; "Only then does it return the sequencer to IDLE" (R78). -/
def releaseResponse (s : State) : State := { s with rsp := none, seqState := .idle }

/-- `raise Fault(c)` (R81), the block's one analogue of taking an exception: the first cause is kept, and the block enters
FAULTED. Only reset leaves it (R84): there is no return operation. -/
def raiseFault (c : FaultCause) (s : State) : State :=
  emit (.flt c.code)
    { s with
      fault := true
      faultCause := if s.fault then s.faultCause else c.code
      seqState := .faulted }

/-! ## Acceptance (R26) -/

/-- R26's arm `otherwise`: `STATUS <- OK; SEQ_PROG <- micro-sequence; SEQ_STEP <- 0; SEQ_STATE <- BUSY`. The caller has
made the request's own register writes. -/
def startRequest (prog : List MicroOp) (s : State) : State :=
  { s with status := Status.ok.code, seqProg := prog, seqStep := 0, seqState := .busy }

/-- R26's arm `validation failure s`: `STATUS <- s; Respond(STATUS)`; stay IDLE, no W or D step. -/
def rejectRequest (st : Status) (s : State) : State := respond st.code { s with status := st.code }

/-! ## Micro-operations (R26, R31, R89) -/

/-- `SEQ_STEP <- SEQ_STEP + 1` (R15, R26). -/
def advance (s : State) : State := { s with seqStep := s.seqStep + 1 }

/-- The first half of `BusWrite(b)` (R31): the transport takes the byte, `emit Tx(DEV_ADDR, b)`. The write is then
unanswered. -/
def issueWrite (b : Byte) (s : State) : State := emit (.tx s.params.devAddr b) { s with bwOut := true }

/-- The second half of `BusWrite(b)` (R31): the transport's answer sets `STATUS`, and `TERR_LAST` on `Err(e)`. The expander shows
the byte, if it receives it, from this step on and not while the write is still unanswered: DESIGN CHOICE (log entry 21). -/
def answerWrite (b : Byte) (a : Answer) (rest : List Answer) (s : State) : State :=
  emit (.ans a)
    { s with
      bwOut := false
      status := a.status.code
      terrLast := a.terr s.terrLast
      env := { s.env with answers := rest }
      ghost := s.ghost.write (opOf s.reqWord) s.seqStep (s.seqProg.drop (s.seqStep + 1)) b a.landed }

/-- The block presents the byte on the bus-write channel until the transport takes it (`bw_valid` and `bw_ready`, R30). -/
def offerWrite (p : Pins) (b : Byte) (s : State) : State := if s.bwOut || !p.bwReady then s else issueWrite b s

/-- A write that the transport has taken is complete, and the next step begins, when the answer comes (`br_valid`, R30,
R31); there is no bound on the wait (R101). -/
def awaitAnswer (p : Pins) (b : Byte) (s : State) : State :=
  if s.bwOut && p.brValid then
    match s.env.answers with
    | [] => s
    | a :: rest => advance (answerWrite b a rest s)
  else s

/-- The `W(b)` arm of R26 at a step with pin levels `p`. The answer may come in the step in which the transport takes the
write, or in any later one: DESIGN CHOICE (log entry 1). -/
def busWriteStep (p : Pins) (b : Byte) (s : State) : State := awaitAnswer p b (offerWrite p b s)

/-- The start of `Delay(ms)` (R89): `emit Dly(ms); DELAY_CNT <- ms × CLK_PER_MS`. A counter loaded with 0 is done at
once. -/
def startDelay (ms : Nat) (s : State) : State :=
  let s1 := emit (.dly ms) { s with delayCnt := ms * s.params.clkPerMs }
  if ms * s.params.clkPerMs = 0 then advance s1 else s1

/-- One `clk` cycle of `Delay(ms)` (R27, R89): decrement; the step completes on the cycle the counter is 0. -/
def tickDelay (s : State) : State :=
  let s1 := { s with delayCnt := s.delayCnt - 1 }
  if s.delayCnt - 1 = 0 then advance s1 else s1

/-- The `D(ms)` arm of R26. `DELAY_CNT` is nonzero exactly while the delay runs (R27). -/
def delayStep (ms : Nat) (s : State) : State := if s.delayCnt = 0 then startDelay ms s else tickDelay s

/-- R26's arm `SEQ_STEP = length(SEQ_PROG)`: the completion writes ("only INIT has one: INIT_DONE <- 1", whatever the
status, R19), then `Respond(STATUS)`. `REQ_WORD` says whether the request is INIT. -/
def completeRequest (s : State) : State :=
  respond s.status { s with initDone := s.initDone || opOf s.reqWord == opInit }

/-! ## The reset event (R94) -/

/-- What one clock edge with `rst_n` = 0 does: every register takes R13's reset value, the request in progress, a partly
taken WSTR and a held response are dropped, and nothing is emitted. The environment and the parameters are not the
block's. -/
def resetBlock (s : State) : State :=
  { s with
    cfgRows := s.params.atReset.cfgRows
    cfgCols := s.params.atReset.cfgCols
    bl := s.params.backlightReset
    initDone := false
    status := Status.ok.code
    terrLast := s.params.atReset.terrLast
    seqState := .idle
    seqProg := []
    seqStep := 0
    delayCnt := 0
    reqWord := s.params.atReset.reqWord
    payload := s.params.atReset.payload
    fault := false
    faultCause := 0x00
    collected := []
    bwOut := false
    rsp := none
    ghost := s.ghost.reset }

end Sys2Proof.Machine
end

