-- ==== Sys2Proof/Machine/Display.lean ====
section
/-! DEFINITION. The Display Operation Layer's requests (41_display_ops.md R70 to R76): what accepting each does. The order of
the checks is R82's. -/

namespace Sys2Proof.Machine

/-- INIT (R70): `BadConfig` is checked first; `CFG_ROWS` and `CFG_COLS` are stored at acceptance (D19). -/
def execInit (rows cols : Byte) (s : State) : Host.Outcome State Fault Refusal :=
  if badConfig rows cols then .next (raiseFault .badConfig s)
  else .next (startRequest (initProgram s.params s.bl) { s with cfgRows := rows, cfgCols := cols })

/-- CLEAR (R71). -/
def execClear (s : State) : Host.Outcome State Fault Refusal :=
  .next (startRequest (clearProgram s.params s.bl) s)

/-- HOME (R72). -/
def execHome (s : State) : Host.Outcome State Fault Refusal :=
  .next (startRequest (homeProgram s.params s.bl) s)

/-- SETCUR (R73): 0-based row and column, checked against the ROM's four entries only. -/
def execSetcur (row0 col0 : Byte) (s : State) : Host.Outcome State Fault Refusal :=
  if rowOutOfTable row0 then .next (raiseFault .rowIndexOutOfTable s)
  else .next (startRequest (setCurBody s.params s.bl row0.toNat col0.toNat) s)

/-- The shared front of WCHAR and WSTR (R74, R75, R82): `NotInitialized`, then `Validate`, then the micro-sequence. -/
def atPosition (row col : Byte) (prog : List MicroOp) (s : State) : State :=
  if s.initDone then
    match validate s.cfgRows s.cfgCols row col with
    | .ok => startRequest prog s
    | st => rejectRequest st s
  else raiseFault .notInitialized s

/-- WCHAR (R74): the cursor, then one data transfer. -/
def execWchar (ch row col : Byte) (s : State) : Host.Outcome State Fault Refusal :=
  .next (atPosition row col
    (setCurBody s.params s.bl (row.toNat - origin) (col.toNat - origin) ++ dataXfer s.params s.bl ch) s)

/-- WSTR (R75): the cursor, then one data transfer for each character that fits on the row. -/
def execWstr (row col : Byte) (text : List Byte) (s : State) : Host.Outcome State Fault Refusal :=
  .next (atPosition row col (writeProgram s.params s.bl s.cfgCols row col text) s)

/-- SETMODE (R76): one command transfer of the display-control byte. -/
def execSetmode (displayOn blinkOn cursorOn : Byte) (s : State) : Host.Outcome State Fault Refusal :=
  .next (startRequest (cmdXfer s.params s.bl (dispctlCmd s.params displayOn blinkOn cursorOn)) s)

end Sys2Proof.Machine
end

