-- ==== Sys2Proof/Machine/Engine.lean ====
section
/-! DEFINITION. The Nibble Transfer Engine's requests (40_engine.md R59 to R63): what accepting each does. The micro-sequence
it loads is then run by Machine/Sequencer.lean, one micro-operation a step (R26). -/

namespace Sys2Proof.Machine

/-- CMD8 (R59): one nibble transfer of `value[3:0]`, RS = 0; `value[7:4]` is discarded. -/
def execCmd8 (value : Byte) (s : State) : Host.Outcome State Fault Refusal :=
  .next (startRequest (nibbleXfer s.params s.bl (lowNibble value) false) s)

/-- CMD4 (R60): one command transfer. -/
def execCmd4 (value : Byte) (s : State) : Host.Outcome State Fault Refusal :=
  .next (startRequest (cmdXfer s.params s.bl value) s)

/-- DATA4 (R61): one data transfer. -/
def execData4 (value : Byte) (s : State) : Host.Outcome State Fault Refusal :=
  .next (startRequest (dataXfer s.params s.bl value) s)

/-- WAIT (R63): one delay, or none for 0. -/
def execWait (ms : BitVec 16) (s : State) : Host.Outcome State Fault Refusal :=
  .next (startRequest (waitProgram ms) s)

/-- SETBL (R62): `BL <- nz(C)` at acceptance, then one bus write of `blbits()`. -/
def execSetbl (on : Byte) (s : State) : Host.Outcome State Fault Refusal :=
  .next (startRequest [.write (blbits s.params (nz on))] { s with bl := nz on })

end Sys2Proof.Machine
end

