-- ==== Sys2Proof/Machine/Dispatch.lean ====
section
/-! DEFINITION. One arm per constructor of Instr: what accepting a decoded request does (10_state.md R26, arm IDLE). -/

namespace Sys2Proof.Machine

-- 10_state.md R26: the acceptance of a decoded request.
def exec (i : Instr) (s : State) : Host.Outcome State Fault Refusal :=
  match i with
  | .cmd8 value => Sys2Proof.Machine.execCmd8 value s
  | .cmd4 value => Sys2Proof.Machine.execCmd4 value s
  | .data4 value => Sys2Proof.Machine.execData4 value s
  | .wait ms => Sys2Proof.Machine.execWait ms s
  | .setbl on => Sys2Proof.Machine.execSetbl on s
  | .init rows cols => Sys2Proof.Machine.execInit rows cols s
  | .clear => Sys2Proof.Machine.execClear s
  | .home => Sys2Proof.Machine.execHome s
  | .setcur row0 col0 => Sys2Proof.Machine.execSetcur row0 col0 s
  | .wchar ch row col => Sys2Proof.Machine.execWchar ch row col s
  | .wstr row col text => Sys2Proof.Machine.execWstr row col text s
  | .setmode displayOn blinkOn cursorOn => Sys2Proof.Machine.execSetmode displayOn blinkOn cursorOn s

end Sys2Proof.Machine
end

