-- ==== Sys2Proof/Machine/Sequencer.lean ====
section
/-! DEFINITION. The sequencer (10_state.md R26): one step per micro-operation, and one per `clk` cycle of a delay. -/

namespace Sys2Proof.Machine

/-! ## The input pins (R30) -/

/-- Every input at 1: no reset, and every agent ready (log entry 4). -/
def Pins.allHigh : Pins := { rstN := true, reqValid := true, rspReady := true, bwReady := true, brValid := true }

/-- The pin levels of this step. -/
def pinsNow (s : State) : Pins := s.env.pins.headD Pins.allHigh

/-- `rst_n` is sampled low at this step. -/
def resetAsserted (s : State) : Bool := !(pinsNow s).rstN

/-- `req_valid` at this step. -/
def hostPresents (s : State) : Bool := (pinsNow s).reqValid

/-- `rsp_ready` at this step. -/
def hostReady (s : State) : Bool := (pinsNow s).rspReady

/-- The levels of this step are gone at the next. -/
def samplePins (s : State) : State := { s with env := { s.env with pins := s.env.pins.tail } }

/-! ## IDLE: taking words and accepting a request -/

/-- A word transfers on the request channel (R30). -/
def takeWord (rest : List Word) (s : State) : State := { s with env := { s.env with reqIn := rest } }

/-- `PAYLOAD[i]` for i < len takes character i; the entries past the length keep what they held, and no request can read
them (R28). Only the first 255 bytes have an entry, and len is at most 255 (R48). -/
def loadPayload (old : Vector Byte 255) (text : List Byte) : Vector Byte 255 :=
  ⟨(text.take 255 ++ old.toList.drop text.length).toArray, by
    simp only [List.size_toArray, List.length_append, List.length_take, List.length_drop, Vector.length_toList]
    omega⟩

/-- `REQ_WORD <- header; PAYLOAD <- payload bytes` (R26); the trace has `Req(header)` (R11). Lanes past character len - 1
are padding (R52); a request other than WSTR has no payload word, and leaves `PAYLOAD` alone. -/
def latchRequest (hdr : Word) (ps : List Word) (s : State) : State :=
  emit (.req hdr)
    { s with
      reqWord := hdr
      payload := loadPayload s.payload ((unpack ps).take (aOf hdr).toNat)
      collected := [] }

/-- Decode and check the request that `REQ_WORD` and `PAYLOAD` hold (R26, R28), and do what its outcome says. An illegal
request word raises `Fault(IllegalRequest)` (R51), before every other check (R82). -/
def decideRequest (s : State) : Host.Outcome State Fault Refusal :=
  match decode s.reqWord s.payload.toList with
  | .ok i => exec i s
  | .error _ => .next (raiseFault .illegalRequest s)

/-- One word arrives in IDLE. Until the last of the `1 + P` words is there the block collects (R30); "The block always
takes all P payload words before it decodes or checks the request" (R52). -/
def receiveWord (w : Word) (s : State) : Host.Outcome State Fault Refusal :=
  let hdr := s.collected.headD w
  let ps := (s.collected ++ [w]).tail
  if ps.length < payloadWords hdr then .next { s with collected := s.collected ++ [w] }
  else decideRequest (latchRequest hdr ps s)

/-- The IDLE arm (R26) at a step with pin levels `p`. With no word presented, nothing happens. -/
def idleStep (p : Pins) (s : State) : Host.Outcome State Fault Refusal :=
  if p.reqValid then
    match s.env.reqIn with
    | [] => .next s
    | w :: rest => receiveWord w (takeWord rest s)
  else .next s

/-! ## BUSY: running the micro-sequence -/

/-- The BUSY arm (R26) at a step with pin levels `p`. -/
def busyStep (p : Pins) (s : State) : Host.Outcome State Fault Refusal :=
  match s.seqProg[s.seqStep]? with
  | some (.write b) => .next (busWriteStep p b s)
  | some (.delay ms) => .next (delayStep ms s)
  | none => if s.seqStep = s.seqProg.length then .next (completeRequest s) else .fault .seqStepPastEnd

/-! ## One step -/

/-- Reset has priority in every state (R82, R94). FAULTED takes no step (R26). While a response is held the block waits
for the host and takes no request (R78, R100). -/
def sequencerStep (s : State) : Host.Outcome State Fault Refusal :=
  if resetAsserted s then .next (resetBlock (samplePins s))
  else
    match s.seqState, s.rsp with
    | .faulted, _ => .next (samplePins s)
    | .idle, some _ => .next (if hostReady s then releaseResponse (samplePins s) else samplePins s)
    | .busy, some _ => .next (if hostReady s then releaseResponse (samplePins s) else samplePins s)
    | .idle, none => idleStep (pinsNow s) (samplePins s)
    | .busy, none => busyStep (pinsNow s) (samplePins s)

/-! ## Placing a request where the next step takes it -/

/-- The request's words, the last on the request port and the others already taken, with the sequencer in IDLE, no
response held, `rst_n` and `req_valid` high: the very next step accepts it. -/
def placeRequest (ws : List Word) (s : State) : State :=
  { s with
    seqState := .idle
    delayCnt := 0
    bwOut := false
    rsp := none
    collected := ws.dropLast
    env := { s.env with
      reqIn := ws.drop (ws.length - 1) ++ s.env.reqIn
      pins := Pins.allHigh :: s.env.pins } }

end Sys2Proof.Machine
end

