-- ==== Sys2Proof/Machine/Step.lean ====
section
/-! DEFINITION. One step of the machine, and how a request is placed where the next step takes it. -/

namespace Sys2Proof.Machine

/-- One step (10_state.md R26, 70_reset_and_hazards.md R94). -/
def step (s : State) : Host.Outcome State Fault Refusal := sequencerStep s

/-- The request that the opcode-table number `w` of `nbits` bits stands for, placed so that the next step runs it. -/
def State.withFetchWord (s : State) (nbits w : Nat) : State := placeRequest (tableWords nbits w) s

end Sys2Proof.Machine
end

