-- ==== Sys2Proof/Machine/Assembly.lean ====
section
/-! DEFINITION. The assembly syntax of the request language (30_encoding.md R53), from a mnemonic and its operands to an
instruction. It is host-side: no step of the block uses it. -/

namespace Sys2Proof.Machine

/-- An operand as written: a number, a character literal, or a string literal as the bytes of its characters. -/
inductive AsmOperand where
  | number (n : Nat)
  | char (code : Byte)
  | text (bytes : List Byte)
  deriving DecidableEq, Repr

/-- Why a line is no request. -/
inductive AsmError where
  /-- Not one of R53's mnemonics with that many operands: "There are no pseudo-instructions and no mnemonic aliases". -/
  | noSuchForm
  /-- A number that does not fit its field. R53 gives it no encoding. DEDUCED (log entry 13). -/
  | outOfRange
  /-- A string where a number stands, or the other way round. DEDUCED (log entry 13). -/
  | wrongKind
  /-- "More than 255 bytes is an assembly error." -/
  | textTooLong
  deriving DecidableEq, Repr

/-! ## Numbers: decimal or `0x` hexadecimal -/

/-- The value of a digit in base 16. -/
def digitValue (c : Char) : Option Nat :=
  if '0' ≤ c ∧ c ≤ '9' then some (c.toNat - '0'.toNat)
  else if 'a' ≤ c ∧ c ≤ 'f' then some (c.toNat - 'a'.toNat + 10)
  else if 'A' ≤ c ∧ c ≤ 'F' then some (c.toNat - 'A'.toNat + 10)
  else none

/-- Digits in base `b`, read from the left onto `acc`. -/
def digits (b acc : Nat) : List Char → Option Nat
  | [] => some acc
  | c :: r =>
    match digitValue c with
    | some d => if d < b then digits b (b * acc + d) r else none
    | none => none

/-- A number as written. -/
def parseNumber : List Char → Option Nat
  | [] => none
  | ['0', 'x'] => none
  | '0' :: 'x' :: r => digits 16 0 r
  | r => digits 10 0 r

/-! ## Lines -/

/-- An operand of `w` bits. A character literal stands for its 8-bit code. -/
def AsmOperand.field (w : Nat) : AsmOperand → Except AsmError (BitVec w)
  | .number n => if n < 2 ^ w then .ok (BitVec.ofNat w n) else .error .outOfRange
  | .char c => .ok (c.zeroExtend w)
  | .text _ => .error .wrongKind

/-- The twelve line forms of R53, by mnemonic and number of operands. In WSTR the assembler sets `A` to the byte count. -/
def assemble (mnemonic : String) (operands : List AsmOperand) : Except AsmError Instr :=
  match operands with
  | [] =>
    if mnemonic = "CLEAR" then .ok .clear
    else if mnemonic = "HOME" then .ok .home
    else .error .noSuchForm
  | [x] =>
    if mnemonic = "CMD8" then (x.field 8).map .cmd8
    else if mnemonic = "CMD4" then (x.field 8).map .cmd4
    else if mnemonic = "DATA4" then (x.field 8).map .data4
    else if mnemonic = "WAIT" then (x.field 16).map .wait
    else if mnemonic = "SETBL" then (x.field 8).map .setbl
    else .error .noSuchForm
  | [x, y] =>
    if mnemonic = "INIT" then (x.field 8).bind fun rows => (y.field 8).map fun cols => .init rows cols
    else if mnemonic = "SETCUR" then (x.field 8).bind fun row0 => (y.field 8).map fun col0 => .setcur row0 col0
    else .error .noSuchForm
  | [x, y, .text bytes] =>
    if mnemonic = "WSTR" then
      if 255 < bytes.length then .error .textTooLong
      else (x.field 8).bind fun row => (y.field 8).map fun col => .wstr row col bytes
    else .error .wrongKind
  | [x, y, z] =>
    if mnemonic = "WCHAR" then
      (x.field 8).bind fun ch => (y.field 8).bind fun row => (z.field 8).map fun col => .wchar ch row col
    else if mnemonic = "SETMODE" then
      (x.field 8).bind fun d => (y.field 8).bind fun b => (z.field 8).map fun c => .setmode d b c
    else .error .noSuchForm
  | _ => .error .noSuchForm

end Sys2Proof.Machine
end

