-- ==== Sys2Proof/Machine/Ports.lean ====
section
/-! DEFINITION. The block's outputs as functions of its state (20_memory.md R30; 10_state.md R23, R24). -/

namespace Sys2Proof.Machine

/-- `req_ready` = 1 only in IDLE, not while a response is held (R30, R100, D4). A word transfers at a step with
`req_ready` and `hostPresents` both 1. -/
def reqReady (s : State) : Bool := decide (s.seqState = .idle) && s.rsp.isNone

/-- `rsp_valid`. -/
def rspValid (s : State) : Bool := s.rsp.isSome

/-- `bw_valid`, `bw_addr`, `bw_data`: the byte of the current `W` step, until the transport takes it. -/
def busRequest (s : State) : Option (Addr × Byte) :=
  match s.seqState, s.rsp, s.bwOut, s.seqProg[s.seqStep]? with
  | .busy, none, false, some (.write b) => some (s.params.devAddr, b)
  | _, _, _, _ => none

/-- `busy` is 1 exactly while `SEQ_STATE` = BUSY (R24). -/
def busyOut (s : State) : Bool := decide (s.seqState = .busy)

/-- `fault` and `fault_cause` (R23). -/
def faultOut (s : State) : Bool × Byte := (s.fault, s.faultCause)

end Sys2Proof.Machine
end

