-- ==== Sys2Proof/Safety.lean ====
section
/-! DEFINITION. The terms in which claims are stated: what the bytes, events and results of a request are, written from the
rules and not from the machine's own functions, and what a safe state is. -/

namespace Sys2Proof.Safety

open Sys2Proof.Machine

/-! ## Runs -/

/-- `k` steps from `s`, stopping at the first that answers no next state. -/
def runFor (k : Nat) (s : State) : Host.Outcome State Fault Refusal := Host.Core.run Sys2Proof.core k s

/-- Some number of steps leads from `s` to `u`, none of them stopping. -/
def Runs (s u : State) : Prop := ∃ k, runFor k s = .next u

/-- `rst_n` stays high at every step to come. -/
def NoReset (s : State) : Prop := ∀ p ∈ s.env.pins, p.rstN = true

/-- No agent keeps the block waiting for a word or for a bus write, at any step to come. -/
def Prompt (s : State) : Prop := ∀ p ∈ s.env.pins, p.reqValid = true ∧ p.bwReady = true ∧ p.brValid = true

/-- `s` leads to `u` by taking the word on the port: in one step, if the host presents it now, and after however many
steps of waiting otherwise. -/
def TakesTo (s u : State) : Prop := Runs s u ∧ (hostPresents s = true → step s = .next u)

/-- At this step the transport takes the current bus write or has taken it already. -/
def WriteTaken (s : State) : Prop := s.bwOut = true ∨ (pinsNow s).bwReady = true

/-- IDLE between requests: no word of a request taken, no write out, no delay running, no response held, no fault. -/
structure Idle (s : State) : Prop where
  idle : s.seqState = .idle
  noWord : s.collected = []
  noWrite : s.bwOut = false
  noDelay : s.delayCnt = 0
  noRsp : s.rsp = none
  noFault : s.fault = false

/-- In IDLE, with no reset to come, the host presents the request words `ws` and then `rest`. -/
structure Offered (s : State) (ws rest : List Word) : Prop where
  idle : Idle s
  noReset : NoReset s
  port : s.env.reqIn = ws ++ rest

/-! ## Request words, as R48, R50, R51 and R52 write them -/

/-- A request word that is not illegal (R51): its `OP` is in R50's map and each field that R48's format marks `0` is 0. -/
def LegalHeader (w : Word) : Prop :=
  (opOf w = 0x01 ∧ aOf w = 0 ∧ bOf w = 0) ∨ (opOf w = 0x02 ∧ aOf w = 0 ∧ bOf w = 0) ∨
  (opOf w = 0x03 ∧ aOf w = 0 ∧ bOf w = 0) ∨ (opOf w = 0x04 ∧ aOf w = 0) ∨
  (opOf w = 0x05 ∧ aOf w = 0 ∧ bOf w = 0) ∨ (opOf w = 0x10 ∧ aOf w = 0) ∨
  (opOf w = 0x11 ∧ aOf w = 0 ∧ bOf w = 0 ∧ cOf w = 0) ∨ (opOf w = 0x12 ∧ aOf w = 0 ∧ bOf w = 0 ∧ cOf w = 0) ∨
  (opOf w = 0x13 ∧ aOf w = 0) ∨ opOf w = 0x14 ∨ opOf w = 0x15 ∨ opOf w = 0x16

/-- `word[i div 4][31 - 8·(i mod 4) : 24 - 8·(i mod 4)]` (R52). -/
def charAt (ps : List Word) (i : Nat) : Byte := (ps.getD (i / 4) 0).extractLsb' (24 - 8 * (i % 4)) 8

/-- The first `n` characters of a payload. -/
def chars (ps : List Word) (n : Nat) : List Byte := (List.range n).map (charAt ps)

/-! ## Bytes, as R54, R56, R57 and R58 write them -/

/-- The enable-low byte of a nibble transfer: nibble in bits 7:4, backlight line, register select; EN and RW clear. -/
def lineByte (p : Params) (bl : Bool) (n : Nibble) (rs : Bool) : Byte :=
  (n.zeroExtend 8 <<< 4) ||| (if bl then p.blBit else 0) ||| (if rs then p.rsBit else 0)

/-- The two bytes of a nibble transfer: enable high, then enable low. -/
def nibblePair (p : Params) (bl : Bool) (n : Nibble) (rs : Bool) : List Byte :=
  [lineByte p bl n rs ||| p.enBit, lineByte p bl n rs]

/-- The four bytes of a command (rs = 0) or data (rs = 1) transfer of `v`: high nibble first. -/
def bytes8 (p : Params) (bl : Bool) (v : Byte) (rs : Bool) : List Byte :=
  nibblePair p bl (v.extractLsb' 4 4) rs ++ nibblePair p bl (v.extractLsb' 0 4) rs

/-- Bus writes of the bytes `bs`, in order. -/
def writes (bs : List Byte) : List MicroOp := bs.map .write

/-- The DDRAM-set command for 0-based `row0`, `col0`, from R6's table and R67's formula. -/
def cursorByte (row0 col0 : Nat) : Byte :=
  0x80 ||| BitVec.ofNat 8 ((([0x00, 0x40, 0x14, 0x54] : List Nat).getD row0 0 + col0) % 128)

/-! ## What running a micro-sequence shows -/

/-- How many bus writes a micro-sequence makes. -/
def writeCount : List MicroOp → Nat
  | [] => 0
  | .write _ :: r => writeCount r + 1
  | .delay _ :: r => writeCount r

/-- The sum of its delays, in milliseconds. -/
def delayTotal : List MicroOp → Nat
  | [] => 0
  | .write _ :: r => delayTotal r
  | .delay ms :: r => ms + delayTotal r

/-- How many steps it takes when every write is answered at once: one for a write, one to load the delay counter and one
for each of its `ms × clk` decrements. -/
def stepsOf (clk : Nat) : List MicroOp → Nat
  | [] => 0
  | .write _ :: r => stepsOf clk r + 1
  | .delay ms :: r => ms * clk + 1 + stepsOf clk r

/-- The events of a micro-sequence whose bus writes are answered `as`. -/
def eventsOf (p : Params) : List MicroOp → List Answer → List Event
  | [], _ => []
  | .write b :: r, a :: as => .tx p.devAddr b :: .ans a :: eventsOf p r as
  | .write _ :: _, [] => []
  | .delay ms :: r, as => .dly ms :: eventsOf p r as

/-- The status after bus writes answered `as`: that of the last one, OK if there was none (R21, R79). -/
def finalStatus (as : List Answer) : Byte :=
  match as.getLast? with
  | some (.err _ _) => 0x05
  | _ => 0x00

/-- `TERR_LAST` after bus writes answered `as`: the error of the last `Err` among them, or what it held (R22). -/
def finalTerr : TErr → List Answer → TErr
  | t, [] => t
  | t, .ok :: r => finalTerr t r
  | _, .err e _ :: r => finalTerr e r

/-- The response that those answers lead to (R77, R78). -/
def finalResponse (t : TErr) (as : List Answer) : Response :=
  { status := finalStatus as
    terr := if finalStatus as = 0x05 then some (finalTerr t as) else none }

/-! ## The ways a request ends -/

/-- The registers only some requests write: `CFG_ROWS`, `CFG_COLS`, `BL`, `INIT_DONE`, `PAYLOAD`. -/
structure SameConfig (s u : State) : Prop where
  rows : u.cfgRows = s.cfgRows
  cols : u.cfgCols = s.cfgCols
  bl : u.bl = s.bl
  init : u.initDone = s.initDone
  payload : u.payload = s.payload

/-- From `s` to `u` the request with header `hdr` ran the micro-sequence `prog` with its bus writes answered `as`, and
`u` holds its response: its events and no other, its status and error value, what it took from the environment, and the
registers that no request writes. (The response is held in BUSY: log entry 6; an answer's event is of the model: log
entry 8.) -/
structure Responded (hdr : Word) (prog : List MicroOp) (as : List Answer) (s u : State) : Prop where
  trace : u.trace = s.trace ++ .req hdr :: (eventsOf s.params prog as ++ [.rsp (finalResponse s.terrLast as)])
  rsp : u.rsp = some (finalResponse s.terrLast as)
  status : u.status = finalStatus as
  terr : u.terrLast = finalTerr s.terrLast as
  reqWord : u.reqWord = hdr
  busy : u.seqState = .busy
  collected : u.collected = []
  bwOut : u.bwOut = false
  delayCnt : u.delayCnt = 0
  answers : u.env.answers = s.env.answers.drop as.length
  fault : u.fault = s.fault
  faultCause : u.faultCause = s.faultCause
  params : u.params = s.params

/-- From `s` to `u` the request with header `hdr` was turned away with a validation status: no bus write and no delay. -/
structure Rejected (hdr : Word) (st : Byte) (s u : State) : Prop where
  trace : u.trace = s.trace ++ [.req hdr, .rsp { status := st, terr := none }]
  rsp : u.rsp = some { status := st, terr := none }
  status : u.status = st
  idle : u.seqState = .idle
  answers : u.env.answers = s.env.answers
  terr : u.terrLast = s.terrLast
  rows : u.cfgRows = s.cfgRows
  cols : u.cfgCols = s.cfgCols
  bl : u.bl = s.bl
  init : u.initDone = s.initDone
  fault : u.fault = s.fault
  faultCause : u.faultCause = s.faultCause
  ghost : u.ghost = s.ghost
  params : u.params = s.params

/-- From `s` to `u` the request with header `hdr` faulted: no bus write, no delay, no response, no effect on the
configuration (R81). -/
structure FaultedBy (hdr : Word) (cause : Byte) (s u : State) : Prop where
  trace : u.trace = s.trace ++ [.req hdr, .flt cause]
  faulted : u.seqState = .faulted
  fault : u.fault = true
  faultCause : u.faultCause = cause
  rsp : u.rsp = none
  answers : u.env.answers = s.env.answers
  status : u.status = s.status
  terr : u.terrLast = s.terrLast
  rows : u.cfgRows = s.cfgRows
  cols : u.cfgCols = s.cfgCols
  bl : u.bl = s.bl
  init : u.initDone = s.initDone
  ghost : u.ghost = s.ghost
  params : u.params = s.params

/-! ## Safe states -/

/-- Bus writes come in adjacent pairs that differ in the enable line alone, high then low (R42, R57). -/
def paired (p : Params) : List MicroOp → Bool
  | [] => true
  | .delay _ :: r => paired p r
  | .write hi :: .write lo :: r => hi == (lo ||| p.enBit) && lo &&& p.enBit == 0 && paired p r
  | .write _ :: .delay _ :: _ => false
  | [.write _] => false

/-- A micro-sequence as the block may build it: nibble transfers and delays, or SETBL's single byte (R40, R57, R62). -/
def Framed (p : Params) (bl : Bool) (prog : List MicroOp) : Prop :=
  paired p prog = true ∨ prog = [.write (if bl then p.blBit else 0)]

/-- Every byte carries the backlight line `bl` and keeps RW at write (R18, R57). -/
def LinesOk (p : Params) (bl : Bool) (prog : List MicroOp) : Prop :=
  ∀ b, MicroOp.write b ∈ prog → b &&& p.blBit = (if bl then p.blBit else 0) ∧ b &&& p.rwBit = 0

/-- What holds of every reachable state, given well-formed parameters and transport errors of `TERR_W` bits. -/
structure BlockInv (s : State) : Prop where
  /-- The parameters are as R7 and R54 ask. -/
  params : s.params.Wf
  /-- `FAULT` and FAULTED agree (R81). -/
  faulted : s.fault = true ↔ s.seqState = .faulted
  /-- `FAULT_CAUSE` is one of R80's codes after a fault, 0 before (R23). -/
  cause : if s.fault then s.faultCause ∈ ([0x01, 0x02, 0x03, 0x04] : List Byte) else s.faultCause = 0x00
  /-- `STATUS` is one of R77's codes. -/
  status : s.status ∈ ([0x00, 0x01, 0x02, 0x03, 0x04, 0x05] : List Byte)
  /-- Once INIT has been accepted the configuration is in range (R16, R17). -/
  config : s.initDone = true ∨ (s.seqState = .busy ∧ opOf s.reqWord = opInit) →
    1 ≤ s.cfgRows.toNat ∧ s.cfgRows.toNat ≤ 4 ∧ 1 ≤ s.cfgCols.toNat
  /-- `SEQ_STEP` does not pass the end of `SEQ_PROG` (R15). -/
  stepRange : s.seqStep ≤ s.seqProg.length
  /-- The longest micro-sequence has 1024 steps (R25). -/
  progLength : s.seqProg.length ≤ 1024
  /-- Bus writes are framed (R42). -/
  framed : Framed s.params s.bl s.seqProg
  /-- Every byte carries `BL` and leaves RW clear (R18, R64). -/
  lines : LinesOk s.params s.bl s.seqProg
  /-- Delays are of 1 to 65535 ms (R89). -/
  delays : ∀ ms, MicroOp.delay ms ∈ s.seqProg → 1 ≤ ms ∧ ms ≤ 65535
  /-- `DELAY_CNT` is 0 outside a `D` step and never above its load (R27). -/
  delay : s.delayCnt ≠ 0 → s.seqState = .busy ∧
    ∃ ms, s.seqProg[s.seqStep]? = some (.delay ms) ∧ s.delayCnt ≤ ms * s.params.clkPerMs
  /-- `DELAY_CNT` fits its width (R7). -/
  delayFits : s.delayCnt < 2 ^ s.params.dlyW
  /-- A write is out only in a `W` step (R31). -/
  write : s.bwOut = true → s.seqState = .busy ∧ ∃ b, s.seqProg[s.seqStep]? = some (.write b)
  /-- A held response carries `STATUS` and `TERR_LAST`, and stands where R26 responds (R78). -/
  held : ∀ r, s.rsp = some r → r = responseOf s.status s.terrLast ∧
    (s.seqState = .idle ∨ s.seqState = .busy ∧ s.seqStep = s.seqProg.length)
  /-- Error values fit `TERR_W` bits (R7). -/
  terr : s.terrLast < 2 ^ s.params.terrW
  /-- The transport's error values fit `TERR_W` bits (R30 `br_terr`). -/
  answers : ∀ e l, Answer.err e l ∈ s.env.answers → e < 2 ^ s.params.terrW
  /-- Words are collected in IDLE only, and fewer than the request has (R30, R52). -/
  collected : s.collected ≠ [] → s.seqState = .idle ∧ s.rsp = none ∧
    s.collected.length ≤ payloadWords (s.collected.headD 0)

/-- While a request runs, the trace ends with its `Req` and exactly the events of the micro-operations done so far, then
what the current one has shown already (R41). -/
def TraceFollows (s : State) : Prop :=
  s.seqState = .busy → ∃ before as, as.length = writeCount (s.seqProg.take s.seqStep) ∧
    s.trace = before ++ .req s.reqWord :: (eventsOf s.params (s.seqProg.take s.seqStep) as ++
      (match s.rsp with
       | some r => [.rsp r]
       | none =>
         match s.seqProg[s.seqStep]? with
         | some (.write b) => if s.bwOut then [.tx s.params.devAddr b] else []
         | some (.delay ms) => if s.delayCnt ≠ 0 then [.dly ms] else []
         | none => []))

/-- A transfer is in its middle only at a `W` step of a running request, right after another `W` step, with no whole number of
byte transfers to go before the next delay or the end (R57, R58). -/
def MidOk (s : State) : Prop :=
  s.ghost.mid = true → s.seqState = .busy ∧ s.rsp = none ∧ 0 < s.seqStep ∧
    (∃ b, s.seqProg[s.seqStep - 1]? = some (.write b)) ∧
    ((s.seqProg.drop s.seqStep).takeWhile MicroOp.isWrite).length % 4 ≠ 0

/-- The controller is known to be in 4-bit mode with its nibbles in phase (R29, R99). -/
def FourBitInPhase (s : State) : Prop := s.ghost.ctrlMode = .fourBit ∧ s.ghost.inPhase = true

/-- At this step the transport answers the bus write of byte `b` with `a`. -/
def Answers (s : State) (b : Byte) (a : Answer) : Prop :=
  resetAsserted s = false ∧ s.seqState = .busy ∧ s.rsp = none ∧ s.seqProg[s.seqStep]? = some (.write b) ∧
    WriteTaken s ∧ (pinsNow s).brValid = true ∧ s.env.answers.head? = some a

end Sys2Proof.Safety
end

