-- ==== Sys2Proof/Certificates/Slice0/Obligations.lean ====
section
/-! DEFINITION. The statements for the provers. "Answers a next state" is written out as an equation with `.next`. -/

open Sys2Proof Sys2Proof.Machine Sys2Proof.Safety

/-! ## Encoding -/

/-- Words written out from R48 and R50 (the vectors V-DEC-1 to V-DEC-10, V-DEC-8 with two paddings, the words of P1's
WSTR, and one word for each other row) decode to the requests they stand for. -/
def Obligations.TabledWordsDecodeToTheirRequests : Prop :=
  decodeWords [0x01000003] = .ok (.cmd8 0x03) ∧ decodeWords [0x010000F3] = .ok (.cmd8 0xF3) ∧
  decodeWords [0x02000028] = .ok (.cmd4 0x28) ∧ decodeWords [0x03000041] = .ok (.data4 0x41) ∧
  decodeWords [0x04000064] = .ok (.wait 100) ∧ decodeWords [0x0400FFFF] = .ok (.wait 65535) ∧
  decodeWords [0x05000080] = .ok (.setbl 0x80) ∧ decodeWords [0x10000414] = .ok (.init 4 20) ∧
  decodeWords [0x11000000] = .ok .clear ∧ decodeWords [0x12000000] = .ok .home ∧
  decodeWords [0x13000313] = .ok (.setcur 3 19) ∧ decodeWords [0x14410201] = .ok (.wchar 0x41 2 1) ∧
  decodeWords [0x150C0105, 0x48656C6C, 0x6F20576F, 0x726C6421] =
    .ok (.wstr 1 5 [0x48, 0x65, 0x6C, 0x6C, 0x6F, 0x20, 0x57, 0x6F, 0x72, 0x6C, 0x64, 0x21]) ∧
  decodeWords [0x15070113, 0x746F6F6C, 0x6F6E6700] = .ok (.wstr 1 19 [0x74, 0x6F, 0x6F, 0x6C, 0x6F, 0x6E, 0x67]) ∧
  decodeWords [0x15070113, 0x746F6F6C, 0x6F6E67FF] = .ok (.wstr 1 19 [0x74, 0x6F, 0x6F, 0x6C, 0x6F, 0x6E, 0x67]) ∧
  decodeWords [0x15020105, 0x48690000] = .ok (.wstr 1 5 [0x48, 0x69]) ∧ decodeWords [0x15000101] = .ok (.wstr 1 1 []) ∧
  decodeWords [0x16010001] = .ok (.setmode 1 0 1)

/-- Decoding the words of any well-formed instruction gives it back, with every operand at every value. -/
def Obligations.DecodeInvertsEncode : Prop :=
  ∀ i : Instr, i.wellFormed = true → decodeWords (encode i) = .ok i

/-- What decodes is a well-formed instruction whose header is the header decoded, bit for bit, and whose payload is the
characters at R52's places: no bit of a request is dropped but for the padding lanes. -/
def Obligations.DecodedRequestsKeepEveryBit : Prop :=
  ∀ (hdr : Word) (ps : List Word) (i : Instr), decodeWords (hdr :: ps) = .ok i →
    i.wellFormed = true ∧ header i = hdr ∧
      payloadBytes i = if opOf hdr = 0x15 then chars ps (aOf hdr).toNat else []

/-- R53. The twelve line forms give the instructions they stand for, with every operand at every value; a string of more
than 255 bytes is an error, whatever the position. -/
def Obligations.AssemblyLinesGiveTheirRequests : Prop :=
  (∀ a b c : Byte,
    assemble "CMD8" [.number a.toNat] = .ok (.cmd8 a) ∧ assemble "CMD4" [.number a.toNat] = .ok (.cmd4 a) ∧
    assemble "DATA4" [.char a] = .ok (.data4 a) ∧ assemble "SETBL" [.number a.toNat] = .ok (.setbl a) ∧
    assemble "INIT" [.number a.toNat, .number b.toNat] = .ok (.init a b) ∧ assemble "CLEAR" [] = .ok .clear ∧
    assemble "HOME" [] = .ok .home ∧ assemble "SETCUR" [.number a.toNat, .number b.toNat] = .ok (.setcur a b) ∧
    assemble "WCHAR" [.char a, .number b.toNat, .number c.toNat] = .ok (.wchar a b c) ∧
    assemble "SETMODE" [.number a.toNat, .number b.toNat, .number c.toNat] = .ok (.setmode a b c)) ∧
  (∀ ms : BitVec 16, assemble "WAIT" [.number ms.toNat] = .ok (.wait ms)) ∧
  (∀ (row col : Byte) (text : List Byte), (Instr.wstr row col text).wellFormed = true →
    assemble "WSTR" [.number row.toNat, .number col.toNat, .text text] = .ok (.wstr row col text)) ∧
  ∀ (x y : AsmOperand) (text : List Byte), 255 < text.length →
    assemble "WSTR" [x, y, .text text] = .error .textTooLong

/-- R51. A complete request decodes exactly when its header is legal; an illegal header makes the block fault with cause 1
in the step that takes it, with no bus write and no response. -/
def Obligations.IllegalRequestsFault : Prop :=
  (∀ (hdr : Word) (ps : List Word), ps.length = payloadWords hdr →
    ((∃ i, decodeWords (hdr :: ps) = .ok i) ↔ LegalHeader hdr)) ∧
  ∀ (s : State) (w : Word) (rest : List Word), Offered s [w] rest → ¬ LegalHeader w →
    ∃ u, TakesTo s u ∧ FaultedBy w 0x01 s u ∧ u.env.reqIn = rest

/-- R52. A WSTR header is followed by exactly `ceil(len / 4)` payload words and no other header by any; all are taken
before the request is decoded; character i comes from R52's lane; padding lanes have no effect. The model's choices
here: words are taken one a step (log entries 1 and 19), and `Req` comes with the last word (log entry 8). -/
def Obligations.WstrPayloadIsTakenWholeAndUnpacked : Prop :=
  (∀ hdr : Word, payloadWords hdr = if opOf hdr = 0x15 then ((aOf hdr).toNat + 3) / 4 else 0) ∧
  (∀ (s : State) (hdr : Word) (ps rest : List Word), Offered s (hdr :: ps) rest → opOf hdr = 0x15 →
    ps.length = payloadWords hdr →
    ∃ v u, Runs s v ∧ (Prompt s → runFor ps.length s = .next v) ∧ v.seqState = .idle ∧ v.trace = s.trace ∧
      v.env.reqIn = (hdr :: ps).drop ps.length ++ rest ∧ reqReady v = true ∧ hostPresents v = true ∧
      step v = .next u ∧ u.env.reqIn = rest ∧ u.collected = [] ∧ u.reqWord = hdr ∧
      (∃ evs, u.trace = s.trace ++ .req hdr :: evs) ∧
      ∀ i, i < (aOf hdr).toNat → u.payload.toList[i]? = some (charAt ps i)) ∧
  ∀ (hdr : Word) (ps qs : List Word), opOf hdr = 0x15 → ps.length = payloadWords hdr → qs.length = payloadWords hdr →
    (∀ i, i < (aOf hdr).toNat → charAt ps i = charAt qs i) → decodeWords (hdr :: ps) = decodeWords (hdr :: qs)

/-! ## A step -/

/-- When the words taken so far and the word the host presents decode to an instruction, one step latches the request
and is `exec` of that instruction. -/
def Obligations.StepRunsTheDecodedRequest : Prop :=
  ∀ (s : State) (w : Word) (rest : List Word) (i : Instr), resetAsserted s = false → s.seqState = .idle → s.rsp = none →
    hostPresents s = true → s.env.reqIn = w :: rest → decodeWords (s.collected ++ [w]) = .ok i →
    step s = exec i (latchRequest (s.collected.headD w) (s.collected ++ [w]).tail (takeWord rest (samplePins s)))

/-- R94. A step with `rst_n` low, from any state: each register R94 gives a value has it, the request in progress, a
partly taken WSTR and a response are gone with no event, the expander and the controller are as they were, and
`req_ready` = 1. -/
def Obligations.ResetEdgeTakesTheResetValues : Prop :=
  ∀ s : State, resetAsserted s = true →
    ∃ u, step s = .next u ∧
      u.seqState = .idle ∧ u.seqProg = [] ∧ u.seqStep = 0 ∧ u.delayCnt = 0 ∧ u.status = 0x00 ∧ u.initDone = false ∧
      u.fault = false ∧ u.faultCause = 0x00 ∧ u.bl = s.params.backlightReset ∧
      u.collected = [] ∧ u.rsp = none ∧ u.bwOut = false ∧ u.trace = s.trace ∧
      u.ghost.expander = s.ghost.expander ∧ u.ghost.ctrlMode = s.ghost.ctrlMode ∧ reqReady u = true

/-- The model's choices at a reset edge (log entries 2, 4 and 10): the registers that R94 leaves unspecified take
`Params.atReset`, and the environment only loses the pin levels of this step. -/
def Obligations.ResetEdgeKeepsTheEnvironment : Prop :=
  ∀ (s : State) (p : Pins) (ps : List Pins), s.env.pins = p :: ps → p.rstN = false →
    ∃ u, step s = .next u ∧
      u.cfgRows = s.params.atReset.cfgRows ∧ u.cfgCols = s.params.atReset.cfgCols ∧
      u.terrLast = s.params.atReset.terrLast ∧ u.reqWord = s.params.atReset.reqWord ∧
      u.payload = s.params.atReset.payload ∧ u.params = s.params ∧ u.env = { s.env with pins := ps }

/-- The state after reset, for every choice of the parameters: R13's column of reset values. -/
def Obligations.ResetStateHasTheResetValues : Prop :=
  ∀ p : Params,
    (State.resetOf p).bl = p.backlightReset ∧ (State.resetOf p).initDone = false ∧ (State.resetOf p).status = 0x00 ∧
    (State.resetOf p).seqState = .idle ∧ (State.resetOf p).seqProg = [] ∧ (State.resetOf p).seqStep = 0 ∧
    (State.resetOf p).delayCnt = 0 ∧ (State.resetOf p).fault = false ∧ (State.resetOf p).faultCause = 0x00 ∧
    Idle (State.resetOf p) ∧ reqReady (State.resetOf p) = true ∧
    (State.resetOf p).trace = [] ∧ (State.resetOf p).params = p

/-- R20. The ROM's four entries; nothing a step does changes them, since the table is a constant of the model. -/
def Obligations.RowBaseTableIsConstant : Prop :=
  rowBase 0 = 0x00 ∧ rowBase 1 = 0x40 ∧ rowBase 2 = 0x14 ∧ rowBase 3 = 0x54

/-! ## Invariants -/

/-- The invariants hold after reset, for well-formed parameters and for the model's own defaults (log entry 3). -/
def Obligations.InvariantsHoldAtReset : Prop :=
  (∀ p : Params, p.Wf → BlockInv (State.resetOf p) ∧ TraceFollows (State.resetOf p)) ∧ BlockInv State.reset

/-- Every step keeps the invariant. -/
def Obligations.EveryStepKeepsTheInvariant : Prop :=
  ∀ s s' : State, BlockInv s → step s = .next s' → BlockInv s'

/-- From a state with the invariant a step always answers a next state: the block never stops outside R26's arms. -/
def Obligations.EveryStepAnswersNext : Prop :=
  ∀ s : State, BlockInv s → ∃ s', step s = .next s'

/-- While a request runs, the trace is its `Req` and then exactly the events of its micro-operations in order, as far as
it has got: no event is lost, repeated, reordered or interleaved. -/
def Obligations.EveryStepKeepsTheTraceInProgramOrder : Prop :=
  ∀ s s' : State, BlockInv s → TraceFollows s → step s = .next s' → TraceFollows s'

/-- A step only appends to the trace, and what it appends is legal: every write goes to `DEV_ADDR`, keeps RW clear and
carries `BL`; every status is one of R77's codes, with an error value exactly beside TRANSPORT_ERROR; every fault is one
of R80's causes; every delay is of 1 to 65535 ms. -/
def Obligations.EveryEventIsLegal : Prop :=
  ∀ s s' : State, BlockInv s → step s = .next s' → ∃ evs, s'.trace = s.trace ++ evs ∧
    (∀ a b, Event.tx a b ∈ evs →
      a = s.params.devAddr ∧ b &&& s.params.rwBit = 0 ∧ b &&& s.params.blBit = (if s.bl then s.params.blBit else 0)) ∧
    (∀ r, Event.rsp r ∈ evs →
      r.status ∈ ([0x00, 0x01, 0x02, 0x03, 0x04, 0x05] : List Byte) ∧ (r.terr.isSome = true ↔ r.status = 0x05)) ∧
    (∀ c, Event.flt c ∈ evs → c ∈ ([0x01, 0x02, 0x03, 0x04] : List Byte)) ∧
    ∀ ms, Event.dly ms ∈ evs → 1 ≤ ms ∧ ms ≤ 65535

/-- R34. Every bus write of every step from every state addresses `DEV_ADDR`, which no step changes; its default is
0x27. -/
def Obligations.EveryBusWriteAddressesDevAddr : Prop :=
  defaultParams.devAddr = 0x27 ∧
  ∀ s s' : State, step s = .next s' → s'.params = s.params ∧
    ∃ evs, s'.trace = s.trace ++ evs ∧ ∀ a b, Event.tx a b ∈ evs → a = s.params.devAddr

/-! ## Registers over a step -/

/-- R18. Every byte written carries the backlight line exactly while `BL` = 1; reset loads `BACKLIGHT_RESET`; accepting
SETBL sets `BL` to 1 for a nonzero operand and 0 for a zero one; nothing else writes `BL`. -/
def Obligations.OnlySetblAndResetWriteTheBacklight : Prop :=
  ∀ s s' : State, BlockInv s → step s = .next s' →
    (∀ evs, s'.trace = s.trace ++ evs → ∀ a b, Event.tx a b ∈ evs →
      b &&& s.params.blBit = (if s.bl then s.params.blBit else 0)) ∧
    (resetAsserted s = true → s'.bl = s.params.backlightReset) ∧
    (resetAsserted s = false → s.seqState = .idle → s'.seqState = .busy → opOf s'.reqWord = 0x05 →
      s'.bl = decide (cOf s'.reqWord ≠ 0)) ∧
    (resetAsserted s = false → ¬ (s.seqState = .idle ∧ s'.seqState = .busy ∧ opOf s'.reqWord = 0x05) → s'.bl = s.bl)

/-- R19. `INIT_DONE` after a step: 0 after reset; otherwise what it was, or 1 if this step completes an INIT, whatever its
status. -/
def Obligations.OnlyResetClearsInitDone : Prop :=
  (∀ p : Params, (State.resetOf p).initDone = false) ∧
  ∀ s s' : State, step s = .next s' →
    s'.initDone =
      if resetAsserted s then false
      else s.initDone ||
        decide (s.seqState = .busy ∧ s.rsp = none ∧ s.seqStep = s.seqProg.length ∧ opOf s.reqWord = 0x10)

/-- R81. `raise Fault(c)`; a fault is entered from IDLE with no bus write, delay, response or effect on the configuration;
FAULTED takes no step at all until reset; reset leaves it. -/
def Obligations.FaultsAreStickyAndWithoutEffect : Prop :=
  (∀ (s : State) (c : FaultCause), (raiseFault c s).fault = true ∧ (raiseFault c s).seqState = .faulted ∧
    (raiseFault c s).trace = s.trace ++ [.flt c.code] ∧
    (raiseFault c s).faultCause = if s.fault then s.faultCause else c.code) ∧
  (∀ s s' : State, BlockInv s → step s = .next s' → s.fault = false → s'.fault = true →
    s.seqState = .idle ∧ ∃ (w : Word) (c : FaultCause), FaultedBy w c.code s s') ∧
  (∀ (s : State) (k : Nat), s.seqState = .faulted → NoReset s →
    runFor k s = .next { s with env := { s.env with pins := s.env.pins.drop k } }) ∧
  (∀ s : State, s.seqState = .faulted → reqReady s = false) ∧
  ∀ s : State, s.seqState = .faulted → resetAsserted s = true →
    ∃ u, step s = .next u ∧ u.seqState = .idle ∧ u.fault = false ∧ u.faultCause = 0x00

/-- `SEQ_STEP` over a step with no reset: BUSY leaves it or adds exactly 1, never past the end; a request that is accepted
starts at 0; nothing else moves it. It fits 11 bits. -/
def Obligations.SeqStepAdvancesByOne : Prop :=
  ∀ s s' : State, BlockInv s → step s = .next s' → s.seqStep < 2 ^ 11 ∧ (resetAsserted s = false →
    (s.seqState = .busy →
      s'.seqStep = s.seqStep ∨ (s'.seqStep = s.seqStep + 1 ∧ s.seqStep < s.seqProg.length ∧ s'.seqProg = s.seqProg)) ∧
    (s.seqState = .idle → s'.seqState = .busy → s'.seqStep = 0) ∧
    (s'.seqState = .idle ∨ s'.seqState = .faulted → s'.seqStep = s.seqStep))

/-- R30, R100. A word transfers only with `req_ready` and `req_valid` both 1: while BUSY, FAULTED or holding a response,
or while the host presents none, the block takes no word: the port keeps its words, the request registers keep theirs,
and no `Req` event appears. -/
def Obligations.NoRequestIsTakenWhileNotReady : Prop :=
  ∀ s s' : State, reqReady s = false ∨ hostPresents s = false → resetAsserted s = false → step s = .next s' →
    s'.env.reqIn = s.env.reqIn ∧ s'.reqWord = s.reqWord ∧ s'.payload = s.payload ∧ s'.collected = s.collected ∧
    ∃ evs, s'.trace = s.trace ++ evs ∧ ∀ w, Event.req w ∉ evs

/-- A held response stays, with everything else, for as long as `rsp_ready` is 0; when it is 1 the block is IDLE and ready
again. -/
def Obligations.ResponseIsHeldUntilTaken : Prop :=
  ∀ (s : State) (r : Response) (k : Nat), s.rsp = some r → s.seqState ≠ .faulted → k ≤ s.env.pins.length →
    (∀ p ∈ s.env.pins.take k, p.rstN = true ∧ p.rspReady = false) →
    runFor k s = .next { s with env := { s.env with pins := s.env.pins.drop k } } ∧
    ((∀ p, (s.env.pins.drop k).head? = some p → p.rstN = true ∧ p.rspReady = true) →
      runFor (k + 1) s =
        .next { s with env := { s.env with pins := s.env.pins.drop (k + 1) }, rsp := none, seqState := .idle })

/-! ## The bus write and the delay -/

/-- R31, with R30's handshakes, each at one step (log entry 1). A `BusWrite(b)` step. `Tx` goes out once, when the
transport takes the byte. The answer, when it comes, sets `STATUS`; `Ok` leaves `TERR_LAST`, `Err(e)` loads it; the next
micro-operation follows either way. With no answer yet the write stays out, and one that is not taken yet leaves the
block as it was. (What the write does outside the block is said in `ExpanderLatchesWhatItReceives`; that nothing outside
changes before the answer is log entry 21.) -/
def Obligations.BusWriteRecordsItsAnswer : Prop :=
  ∀ (s : State) (b : Byte), resetAsserted s = false → s.seqState = .busy → s.rsp = none →
    s.seqProg[s.seqStep]? = some (.write b) →
    (WriteTaken s → (pinsNow s).brValid = true → ∀ more, s.env.answers = .ok :: more → ∃ g,
      step s = .next { s with
        status := 0x00, seqStep := s.seqStep + 1, bwOut := false, ghost := g
        env := { s.env with answers := more, pins := s.env.pins.tail }
        trace := s.trace ++ (if s.bwOut then [] else [.tx s.params.devAddr b]) ++ [.ans .ok] }) ∧
    (WriteTaken s → (pinsNow s).brValid = true → ∀ e l more, s.env.answers = .err e l :: more → ∃ g,
      step s = .next { s with
        status := 0x05, terrLast := e, seqStep := s.seqStep + 1, bwOut := false, ghost := g
        env := { s.env with answers := more, pins := s.env.pins.tail }
        trace := s.trace ++ (if s.bwOut then [] else [.tx s.params.devAddr b]) ++ [.ans (.err e l)] }) ∧
    (WriteTaken s → (pinsNow s).brValid = false ∨ s.env.answers = [] →
      step s = .next { s with
        bwOut := true
        env := { s.env with pins := s.env.pins.tail }
        trace := s.trace ++ (if s.bwOut then [] else [.tx s.params.devAddr b]) }) ∧
    (¬ WriteTaken s → step s = .next { s with env := { s.env with pins := s.env.pins.tail } })

/-- R101, R30 (one step a handshake: log entries 1 and 4; nothing outside changes before the answer: log entry 21).
Nothing bounds a bus write: `n` steps without `bw_ready` leave the block as it was, with the byte presented; then the
transport takes it, and `m` steps without `br_valid` leave it out, once; then the answer completes it, as if it had come
at once. -/
def Obligations.BusWriteWaitsForTheTransport : Prop :=
  ∀ (s : State) (b : Byte) (n m : Nat) (p : Pins) (a : Answer) (more : List Answer), s.seqState = .busy → s.rsp = none →
    s.bwOut = false → s.seqProg[s.seqStep]? = some (.write b) → s.env.answers = a :: more →
    s.env.pins =
      List.replicate n { p with rstN := true, bwReady := false } ++
        { p with rstN := true, bwReady := true, brValid := false } ::
          List.replicate m { p with rstN := true, brValid := false } →
    busRequest s = some (s.params.devAddr, b) ∧
    runFor n s = .next { s with env := { s.env with pins := s.env.pins.drop n } } ∧
    runFor (n + 1 + m) s = .next { s with
      bwOut := true, env := { s.env with pins := [] }, trace := s.trace ++ [.tx s.params.devAddr b] } ∧
    ∃ g, runFor (n + 1 + m + 1) s = .next { s with
      status := (match a with | .ok => 0x00 | .err _ _ => 0x05)
      terrLast := (match a with | .ok => s.terrLast | .err e _ => e)
      seqStep := s.seqStep + 1, ghost := g
      env := { s.env with answers := more, pins := [] }
      trace := s.trace ++ [.tx s.params.devAddr b, .ans a] }

/-- A transport that never answers (log entries 1, 4 and 21) leaves the block BUSY at the same micro-operation for ever:
it has at most that one write out, and has it out once the transport has taken it; nothing else is emitted. -/
def Obligations.UnansweredWriteHangsTheBlock : Prop :=
  ∀ (s : State) (b : Byte) (k : Nat), s.seqState = .busy → s.rsp = none → s.bwOut = false → NoReset s →
    s.seqProg[s.seqStep]? = some (.write b) → s.env.answers = [] →
    ∃ out, (s.env.pins.length < k → out = true) ∧ ((∃ p ∈ s.env.pins.take k, p.bwReady = true) → out = true) ∧
      runFor k s = .next { s with
        bwOut := out
        env := { s.env with pins := s.env.pins.drop k }
        trace := s.trace ++ (if out then [.tx s.params.devAddr b] else []) }

/-- The expander's lines (log entries 12 and 21): a write that is answered latches its byte if it landed; no other step
of the block, no reset among them, changes them. -/
def Obligations.ExpanderLatchesWhatItReceives : Prop :=
  ∀ s s' : State, step s = .next s' →
    (∀ b a more, resetAsserted s = false → s.seqState = .busy → s.rsp = none →
      s.seqProg[s.seqStep]? = some (.write b) → WriteTaken s → (pinsNow s).brValid = true → s.env.answers = a :: more →
      s'.ghost.expander = if a.landed then some b else s.ghost.expander) ∧
    (¬ (resetAsserted s = false ∧ s.seqState = .busy ∧ s.rsp = none ∧ WriteTaken s ∧ (pinsNow s).brValid = true ∧
        s.env.answers ≠ [] ∧ ∃ b, s.seqProg[s.seqStep]? = some (.write b)) →
      s'.ghost.expander = s.ghost.expander)

/-- R27, one step a clock (log entries 1 and 14). A `D(ms)` step emits `Dly(ms)` and loads `ms × CLK_PER_MS`; the
counter goes down by 1 a clock while nothing else happens; the step completes when it is 0; outside a `D` step it is 0.
-/
def Obligations.DelayCounterCountsTheDelay : Prop :=
  (∀ (s : State) (ms j : Nat), s.seqState = .busy → s.rsp = none → s.delayCnt = 0 → NoReset s →
    s.seqProg[s.seqStep]? = some (.delay ms) → j < ms * s.params.clkPerMs →
    runFor (j + 1) s = .next { s with
      delayCnt := ms * s.params.clkPerMs - j
      env := { s.env with pins := s.env.pins.drop (j + 1) }
      trace := s.trace ++ [.dly ms] }) ∧
  (∀ (s : State) (ms : Nat), s.seqState = .busy → s.rsp = none → s.delayCnt = 0 → NoReset s →
    s.seqProg[s.seqStep]? = some (.delay ms) →
    runFor (ms * s.params.clkPerMs + 1) s = .next { s with
      seqStep := s.seqStep + 1
      env := { s.env with pins := s.env.pins.drop (ms * s.params.clkPerMs + 1) }
      trace := s.trace ++ [.dly ms] }) ∧
  ∀ s : State, BlockInv s → s.delayCnt ≠ 0 → s.seqState = .busy ∧ ∃ ms, s.seqProg[s.seqStep]? = some (.delay ms)

/-! ## Running a micro-sequence -/

/-- R79, with the model's hold of the response (log entry 6) and its step counts (log entries 1 and 14). From
acceptance, with every bus write answered, at whatever time, the block runs the whole micro-sequence whatever the
answers are, never repeats or skips a step, and responds with the status of the last write; it takes `stepsOf` steps and
one if no agent keeps it waiting; everything but the registers named keeps its value (the ghost state is not said here).
-/
def Obligations.MicroSequenceRunsToItsResponse : Prop :=
  ∀ (s : State) (as more : List Answer), s.seqState = .busy → s.seqStep = 0 → s.status = 0x00 → s.rsp = none →
    s.bwOut = false → s.delayCnt = 0 → NoReset s → s.env.answers = as ++ more → as.length = writeCount s.seqProg →
    ∃ k g, (Prompt s → k = stepsOf s.params.clkPerMs s.seqProg + 1) ∧
      runFor k s = .next { s with
        initDone := s.initDone || opOf s.reqWord == 0x10
        status := finalStatus as
        terrLast := finalTerr s.terrLast as
        seqStep := s.seqProg.length
        rsp := some (finalResponse s.terrLast as)
        env := { s.env with answers := more, pins := s.env.pins.drop k }
        ghost := g
        trace := s.trace ++ eventsOf s.params s.seqProg as ++ [.rsp (finalResponse s.terrLast as)] }

/-- From anywhere inside a request, if every remaining bus write is answered, at whatever time, and there is no reset,
the block reaches its response, which it holds in BUSY (log entry 6). -/
def Obligations.AnsweredRequestsFinish : Prop :=
  ∀ s : State, BlockInv s → s.seqState = .busy → NoReset s →
    writeCount (s.seqProg.drop s.seqStep) ≤ s.env.answers.length →
    ∃ u, Runs s u ∧ u.seqState = .busy ∧ u.seqStep = u.seqProg.length ∧ u.rsp.isSome = true ∧ u.seqProg = s.seqProg

/-- Nothing the block does depends on the state outside it: with any other ghost state a step stops in the same way or
gives the same state but for the ghost part. No step is refused. -/
def Obligations.GhostStateIsNeverRead : Prop :=
  ∀ (s : State) (g : Ghost),
    (∀ u, step s = .next u → ∃ g', step { s with ghost := g } = .next { u with ghost := g' }) ∧
    (∀ f, step s = .fault f → step { s with ghost := g } = .fault f) ∧
    ∀ r, step s ≠ .refused r

/-- (Ghost state as log entries 12 and 20 keep it.) An INIT whose bus writes all reach the expander leaves the
controller in 4-bit mode, its nibbles in phase, and the expander with the last byte written. -/
def Obligations.InitLeavesFourBitMode : Prop :=
  ∀ (s : State) (rows cols : Byte) (rest : List Word) (as more : List Answer),
    Offered s [header (.init rows cols)] rest → 1 ≤ rows.toNat → rows.toNat ≤ 4 → 1 ≤ cols.toNat →
    s.env.answers = as ++ more → as.length = 28 → (∀ a ∈ as, a.landed = true) →
    ∃ u, Runs s u ∧ u.rsp.isSome = true ∧ u.ghost.ctrlMode = .fourBit ∧ u.ghost.inPhase = true ∧
      u.ghost.expander =
        some (lineByte s.params s.bl ((s.params.dispctlBase ||| s.params.dispOn).extractLsb' 0 4) false)

/-- (Ghost state as log entries 12 and 21 keep it.) A transfer is in its middle only inside a running request, between
two of its adjacent bus writes: after reset none is, and every step keeps that. So a request's first step, a delay, a
completed micro-sequence and a held response are never inside one. -/
def Obligations.TransfersAreCutOnlyBetweenTheirWrites : Prop :=
  (∀ p : Params, MidOk (State.resetOf p)) ∧ ∀ s s' : State, MidOk s → step s = .next s' → MidOk s'

/-- R29's "permanently" as the model's ghost state keeps it (log entries 12, 20 and 21). A controller in 4-bit mode and in
phase stays so over every step but three: a reset that cuts a transfer; the answer to a write of a CMD8 or of an INIT's
first eight; and the answer to a write, SETBL's apart, that did not reach the expander. Named besides: a reset in IDLE,
at a request's first step, in a delay, right after one (INIT's first writes), at the end of the micro-sequence and with
a response held keeps both. A reset that cuts a transfer leaves the mode and loses the phase. -/
def Obligations.FourBitModeIsKeptOutsideCutTransfers : Prop :=
  ∀ s s' : State, MidOk s → FourBitInPhase s → step s = .next s' →
    (resetAsserted s = true → s.ghost.mid = false → FourBitInPhase s') ∧
    (resetAsserted s = true →
      s.seqState ≠ .busy ∨ s.rsp ≠ none ∨ s.seqStep = 0 ∨ s.seqProg.length ≤ s.seqStep ∨
        (∃ ms, s.seqProg[s.seqStep]? = some (.delay ms)) ∨
        (∃ ms, s.seqProg[s.seqStep - 1]? = some (.delay ms)) → FourBitInPhase s') ∧
    (resetAsserted s = true → s.ghost.mid = true → s'.ghost.ctrlMode = .fourBit ∧ s'.ghost.inPhase = false) ∧
    (resetAsserted s = false →
      (∀ b a, Answers s b a → opOf s.reqWord = 0x05 ∨
        (a.landed = true ∧ opOf s.reqWord ≠ 0x01 ∧ (opOf s.reqWord = 0x10 → 11 < s.seqStep))) → FourBitInPhase s') ∧
    ∀ b a, Answers s b a →
      s'.ghost.mid = (((s.seqProg.drop (s.seqStep + 1)).takeWhile MicroOp.isWrite).length % 4 != 0)

/-! ## The engine's bytes -/

/-- R64. The five laws of the engine, of the micro-sequences that CMD4 and DATA4 load and, for 2, 4 and 5, of any that a
request loads. -/
def Obligations.EngineLaws : Prop :=
  (∀ (s : State) (v : Byte), s.params.Wf → ∃ (c d : List Byte) (t u : State),
    exec (.cmd4 v) s = .next t ∧ t.seqProg = writes c ∧ exec (.data4 v) s = .next u ∧ u.seqProg = writes d ∧
    c.length = 4 ∧ d = c.map (fun b => b ||| s.params.rsBit) ∧ (∀ b ∈ c, b &&& s.params.rsBit = 0) ∧
    c.map (fun b => b.extractLsb' 4 4) = [v.extractLsb' 4 4, v.extractLsb' 4 4, v.extractLsb' 0 4, v.extractLsb' 0 4] ∧
    d.map (fun b => b.extractLsb' 4 4) = [v.extractLsb' 4 4, v.extractLsb' 4 4, v.extractLsb' 0 4, v.extractLsb' 0 4]) ∧
  ∀ (i : Instr) (s u : State), BlockInv s → exec i s = .next u →
    Framed u.params u.bl u.seqProg ∧ LinesOk u.params u.bl u.seqProg

/-- R67. SETCUR's, WCHAR's and WSTR's cursor command: the low 7 bits of the sum, which is the sum itself below 0x80. -/
def Obligations.CursorCommandIsTheDdramAddress : Prop :=
  (∀ (p : Params) (bl : Bool) (row0 col0 : Nat), row0 ≤ 3 →
    setCurBody p bl row0 col0 = writes (bytes8 p bl (cursorByte row0 col0) false)) ∧
  ∀ row0 col0 : Nat, row0 ≤ 3 → (rowBase (BitVec.ofNat 2 row0)).toNat + col0 < 0x80 →
    (cursorByte row0 col0).toNat = 0x80 + ((rowBase (BitVec.ofNat 2 row0)).toNat + col0)

/-! ## Accepting each request -/

/-- CMD8, CMD4 and DATA4 are accepted in every state: BUSY with their bytes to write, STATUS OK, nothing else changed. -/
def Obligations.TransferRequestsAreAccepted : Prop :=
  ∀ (s : State) (v : Byte),
    exec (.cmd8 v) s = .next { s with
      status := 0x00, seqStep := 0, seqState := .busy
      seqProg := writes (nibblePair s.params s.bl (v.extractLsb' 0 4) false) } ∧
    exec (.cmd4 v) s = .next { s with
      status := 0x00, seqStep := 0, seqState := .busy
      seqProg := writes (bytes8 s.params s.bl v false) } ∧
    exec (.data4 v) s = .next { s with
      status := 0x00, seqStep := 0, seqState := .busy
      seqProg := writes (bytes8 s.params s.bl v true) }

/-- WAIT is accepted in every state: one delay, none for 0. -/
def Obligations.WaitIsAccepted : Prop :=
  ∀ (s : State) (ms : BitVec 16),
    exec (.wait ms) s = .next { s with
      status := 0x00, seqStep := 0, seqState := .busy
      seqProg := if ms.toNat = 0 then [] else [.delay ms.toNat] }

/-- SETBL is accepted in every state: `BL` is set at acceptance, and one byte is to be written, with the backlight line
alone. -/
def Obligations.SetblIsAccepted : Prop :=
  ∀ (s : State) (on : Byte),
    exec (.setbl on) s = .next { s with
      bl := decide (on ≠ 0), status := 0x00, seqStep := 0, seqState := .busy
      seqProg := [.write (if on ≠ 0 then s.params.blBit else 0)] }

/-- INIT in range is accepted in every state and stores rows and cols; out of range it faults with cause 3 and stores
nothing. -/
def Obligations.InitIsAcceptedInRangeAndFaultsOutside : Prop :=
  ∀ (s : State) (rows cols : Byte),
    (1 ≤ rows.toNat → rows.toNat ≤ 4 → 1 ≤ cols.toNat →
      exec (.init rows cols) s = .next { s with
        cfgRows := rows, cfgCols := cols, status := 0x00, seqStep := 0, seqState := .busy
        seqProg :=
          [.delay 100]
            ++ writes (nibblePair s.params s.bl s.params.fset8Nibble false) ++ [.delay 100]
            ++ writes (nibblePair s.params s.bl s.params.fset8Nibble false) ++ [.delay 100]
            ++ writes (nibblePair s.params s.bl s.params.fset8Nibble false) ++ [.delay 100]
            ++ writes (nibblePair s.params s.bl s.params.fset4Nibble false) ++ [.delay 100]
            ++ writes (bytes8 s.params s.bl s.params.functionSetCmd false)
            ++ writes (bytes8 s.params s.bl s.params.dispctlBase false)
            ++ writes (bytes8 s.params s.bl s.params.entryModeCmd false)
            ++ writes (bytes8 s.params s.bl s.params.clearCmd false) ++ [.delay 100]
            ++ writes (bytes8 s.params s.bl (s.params.dispctlBase ||| s.params.dispOn) false) }) ∧
    (rows.toNat < 1 ∨ 4 < rows.toNat ∨ cols.toNat < 1 →
      exec (.init rows cols) s = .next { s with
        fault := true, faultCause := if s.fault then s.faultCause else 0x03, seqState := .faulted
        trace := s.trace ++ [.flt 0x03] })

/-- CLEAR and HOME are accepted in every state: one command transfer and then their delay. -/
def Obligations.ClearAndHomeAreAccepted : Prop :=
  ∀ s : State,
    exec .clear s = .next { s with
      status := 0x00, seqStep := 0, seqState := .busy
      seqProg := writes (bytes8 s.params s.bl s.params.clearCmd false) ++ [.delay 100] } ∧
    exec .home s = .next { s with
      status := 0x00, seqStep := 0, seqState := .busy
      seqProg := writes (bytes8 s.params s.bl s.params.homeCmd false) ++ [.delay 50] }

/-- SETCUR with row0 in the table is accepted in every state, whatever the configuration; with row0 > 3 it faults with
cause 4. -/
def Obligations.SetcurIsAcceptedInTableAndFaultsOutside : Prop :=
  ∀ (s : State) (row0 col0 : Byte),
    (row0.toNat ≤ 3 →
      exec (.setcur row0 col0) s = .next { s with
        status := 0x00, seqStep := 0, seqState := .busy
        seqProg := writes (bytes8 s.params s.bl (cursorByte row0.toNat col0.toNat) false) }) ∧
    (3 < row0.toNat →
      exec (.setcur row0 col0) s = .next { s with
        fault := true, faultCause := if s.fault then s.faultCause else 0x04, seqState := .faulted
        trace := s.trace ++ [.flt 0x04] })

/-- WCHAR at a valid position after INIT is accepted: the cursor command, then the character. -/
def Obligations.WcharIsAcceptedAtAValidPosition : Prop :=
  ∀ (s : State) (ch row col : Byte), BlockInv s → s.initDone = true →
    1 ≤ row.toNat → row.toNat ≤ s.cfgRows.toNat → 1 ≤ col.toNat → col.toNat ≤ s.cfgCols.toNat →
    exec (.wchar ch row col) s = .next { s with
      status := 0x00, seqStep := 0, seqState := .busy
      seqProg := writes (bytes8 s.params s.bl (cursorByte (row.toNat - 1) (col.toNat - 1)) false
        ++ bytes8 s.params s.bl ch true) }

/-- WSTR at a valid position after INIT is accepted: the cursor command, then the first `min(len, CFG_COLS - col + 1)`
characters in order. -/
def Obligations.WstrIsAcceptedAtAValidPosition : Prop :=
  ∀ (s : State) (row col : Byte) (text : List Byte), BlockInv s → s.initDone = true →
    1 ≤ row.toNat → row.toNat ≤ s.cfgRows.toNat → 1 ≤ col.toNat → col.toNat ≤ s.cfgCols.toNat →
    exec (.wstr row col text) s = .next { s with
      status := 0x00, seqStep := 0, seqState := .busy
      seqProg := writes (bytes8 s.params s.bl (cursorByte (row.toNat - 1) (col.toNat - 1)) false
        ++ (text.take (min text.length (s.cfgCols.toNat - col.toNat + 1))).flatMap
          (fun ch => bytes8 s.params s.bl ch true)) }

/-- SETMODE is accepted in every state: one command transfer; A is display, B is blink, C is cursor. -/
def Obligations.SetmodeIsAccepted : Prop :=
  ∀ (s : State) (a b c : Byte),
    exec (.setmode a b c) s = .next { s with
      status := 0x00, seqStep := 0, seqState := .busy
      seqProg := writes (bytes8 s.params s.bl
        (s.params.dispctlBase ||| (if a ≠ 0 then s.params.dispOn else 0)
          ||| (if c ≠ 0 then s.params.cursorOn else 0) ||| (if b ≠ 0 then s.params.blinkOn else 0)) false) }

/-- R66. WCHAR and WSTR after INIT: the first failing check in R66's order ends the request with its code, one response
and no micro-sequence; a position that fails none is accepted. -/
def Obligations.ValidationReportsTheFirstFailingCheck : Prop :=
  ∀ (s : State) (i : Instr) (row col : Byte), s.initDone = true →
    ((∃ ch, i = .wchar ch row col) ∨ ∃ text, i = .wstr row col text) →
    (row.toNat < 1 → exec i s = .next { s with
      status := 0x01, rsp := some { status := 0x01, terr := none }
      trace := s.trace ++ [.rsp { status := 0x01, terr := none }] }) ∧
    (¬ row.toNat < 1 → 1 + s.cfgRows.toNat - 1 < row.toNat → exec i s = .next { s with
      status := 0x02, rsp := some { status := 0x02, terr := none }
      trace := s.trace ++ [.rsp { status := 0x02, terr := none }] }) ∧
    (¬ row.toNat < 1 → ¬ 1 + s.cfgRows.toNat - 1 < row.toNat → col.toNat < 1 → exec i s = .next { s with
      status := 0x03, rsp := some { status := 0x03, terr := none }
      trace := s.trace ++ [.rsp { status := 0x03, terr := none }] }) ∧
    (¬ row.toNat < 1 → ¬ 1 + s.cfgRows.toNat - 1 < row.toNat → ¬ col.toNat < 1 → 1 + s.cfgCols.toNat - 1 < col.toNat →
      exec i s = .next { s with
        status := 0x04, rsp := some { status := 0x04, terr := none }
        trace := s.trace ++ [.rsp { status := 0x04, terr := none }] }) ∧
    (¬ row.toNat < 1 → ¬ 1 + s.cfgRows.toNat - 1 < row.toNat → ¬ col.toNat < 1 → ¬ 1 + s.cfgCols.toNat - 1 < col.toNat →
      ∃ prog, exec i s = .next { s with status := 0x00, seqProg := prog, seqStep := 0, seqState := .busy })

/-- WCHAR and WSTR before INIT fault with cause 2, whatever their operands: this check comes before validation. -/
def Obligations.WritingBeforeInitFaults : Prop :=
  ∀ (s : State) (i : Instr) (row col : Byte), s.initDone = false →
    ((∃ ch, i = .wchar ch row col) ∨ ∃ text, i = .wstr row col text) →
    exec i s = .next { s with
      fault := true, faultCause := if s.fault then s.faultCause else 0x02, seqState := .faulted
      trace := s.trace ++ [.flt 0x02] }

/-- R102. Bus writes and least delay of each accepted request; a validation error makes neither, only its response. -/
def Obligations.RequestsCostWhatTheTableSays : Prop :=
  (∀ (s u : State) (i : Instr), exec i s = .next u → s.seqState = .idle → u.seqState = .busy →
    match i with
    | .cmd8 _ => writeCount u.seqProg = 2 ∧ delayTotal u.seqProg = 0
    | .cmd4 _ => writeCount u.seqProg = 4 ∧ delayTotal u.seqProg = 0
    | .data4 _ => writeCount u.seqProg = 4 ∧ delayTotal u.seqProg = 0
    | .setbl _ => writeCount u.seqProg = 1 ∧ delayTotal u.seqProg = 0
    | .wait ms => writeCount u.seqProg = 0 ∧ delayTotal u.seqProg = ms.toNat
    | .init _ _ => writeCount u.seqProg = 28 ∧ delayTotal u.seqProg = 600
    | .clear => writeCount u.seqProg = 4 ∧ delayTotal u.seqProg = 100
    | .home => writeCount u.seqProg = 4 ∧ delayTotal u.seqProg = 50
    | .setcur _ _ => writeCount u.seqProg = 4 ∧ delayTotal u.seqProg = 0
    | .setmode _ _ _ => writeCount u.seqProg = 4 ∧ delayTotal u.seqProg = 0
    | .wchar _ _ _ => writeCount u.seqProg = 8 ∧ delayTotal u.seqProg = 0
    | .wstr _ col text =>
      writeCount u.seqProg = 4 + 4 * min text.length (s.cfgCols.toNat - col.toNat + 1) ∧ delayTotal u.seqProg = 0) ∧
  ∀ (s u : State) (i : Instr), exec i s = .next u → s.seqState = .idle → u.seqState = .idle →
    ∃ r, u.trace = s.trace ++ [.rsp r]

/-! ## Each request from the request port to its response -/

/-- R59. CMD8. R78, with the model's choices: the response held in BUSY is log entry 6, the events `ans` log entry 8,
the unchanged `PAYLOAD` log entry 11. -/
def Obligations.Cmd8RunsToItsResponse : Prop :=
  ∀ (s : State) (w : Word) (rest : List Word), Offered s [w] rest → opOf w = 0x01 →
    (aOf w ≠ 0 ∨ bOf w ≠ 0 → ∃ u, TakesTo s u ∧ FaultedBy w 0x01 s u) ∧
    (aOf w = 0 → bOf w = 0 → ∀ as more, s.env.answers = as ++ more → as.length = 2 →
      ∃ u, Runs s u ∧ SameConfig s u ∧ u.env.reqIn = rest ∧
        Responded w (writes (nibblePair s.params s.bl ((cOf w).extractLsb' 0 4) false)) as s u)

/-- R60. CMD4. R78, with the model's choices: the response held in BUSY is log entry 6, the events `ans` log entry 8,
the unchanged `PAYLOAD` log entry 11. -/
def Obligations.Cmd4RunsToItsResponse : Prop :=
  ∀ (s : State) (w : Word) (rest : List Word), Offered s [w] rest → opOf w = 0x02 →
    (aOf w ≠ 0 ∨ bOf w ≠ 0 → ∃ u, TakesTo s u ∧ FaultedBy w 0x01 s u) ∧
    (aOf w = 0 → bOf w = 0 → ∀ as more, s.env.answers = as ++ more → as.length = 4 →
      ∃ u, Runs s u ∧ SameConfig s u ∧ u.env.reqIn = rest ∧
        Responded w (writes (bytes8 s.params s.bl (cOf w) false)) as s u)

/-- R61. DATA4. R78, with the model's choices: the response held in BUSY is log entry 6, the events `ans` log entry 8,
the unchanged `PAYLOAD` log entry 11. -/
def Obligations.Data4RunsToItsResponse : Prop :=
  ∀ (s : State) (w : Word) (rest : List Word), Offered s [w] rest → opOf w = 0x03 →
    (aOf w ≠ 0 ∨ bOf w ≠ 0 → ∃ u, TakesTo s u ∧ FaultedBy w 0x01 s u) ∧
    (aOf w = 0 → bOf w = 0 → ∀ as more, s.env.answers = as ++ more → as.length = 4 →
      ∃ u, Runs s u ∧ SameConfig s u ∧ u.env.reqIn = rest ∧
        Responded w (writes (bytes8 s.params s.bl (cOf w) true)) as s u)

/-- R63. WAIT: no bus write, so no answer is needed and the status is OK. R78, with the model's choices: the response
held in BUSY is log entry 6, the unchanged `PAYLOAD` log entry 11. -/
def Obligations.WaitRunsToItsResponse : Prop :=
  ∀ (s : State) (w : Word) (rest : List Word), Offered s [w] rest → opOf w = 0x04 →
    (aOf w ≠ 0 → ∃ u, TakesTo s u ∧ FaultedBy w 0x01 s u) ∧
    (aOf w = 0 →
      ∃ u, Runs s u ∧ SameConfig s u ∧ u.env.reqIn = rest ∧
        Responded w
          (if 256 * (bOf w).toNat + (cOf w).toNat = 0 then [] else [.delay (256 * (bOf w).toNat + (cOf w).toNat)])
          [] s u)

/-- R62. SETBL: `BL` is updated whatever the answer is. R78, with the model's choices: the response held in BUSY is log
entry 6, the event `ans` log entry 8, the unchanged `PAYLOAD` log entry 11. -/
def Obligations.SetblRunsToItsResponse : Prop :=
  ∀ (s : State) (w : Word) (rest : List Word), Offered s [w] rest → opOf w = 0x05 →
    (aOf w ≠ 0 ∨ bOf w ≠ 0 → ∃ u, TakesTo s u ∧ FaultedBy w 0x01 s u) ∧
    (aOf w = 0 → bOf w = 0 → ∀ a more, s.env.answers = a :: more →
      ∃ u, Runs s u ∧ u.bl = decide (cOf w ≠ 0) ∧ u.cfgRows = s.cfgRows ∧ u.cfgCols = s.cfgCols ∧
        u.initDone = s.initDone ∧ u.payload = s.payload ∧ u.env.reqIn = rest ∧
        Responded w [.write (if cOf w ≠ 0 then s.params.blBit else 0)] [a] s u)

/-- R70. INIT: stores rows and cols, runs the eight steps whatever the answers are, and sets `INIT_DONE`; out of range
it faults with cause 3. R78, with the model's choices: the response held in BUSY is log entry 6, the events `ans` log
entry 8, the unchanged `PAYLOAD` log entry 11. -/
def Obligations.InitRunsToItsResponse : Prop :=
  ∀ (s : State) (w : Word) (rest : List Word), Offered s [w] rest → opOf w = 0x10 →
    (aOf w ≠ 0 → ∃ u, TakesTo s u ∧ FaultedBy w 0x01 s u) ∧
    (aOf w = 0 → (bOf w).toNat < 1 ∨ 4 < (bOf w).toNat ∨ (cOf w).toNat < 1 →
      ∃ u, TakesTo s u ∧ FaultedBy w 0x03 s u) ∧
    (aOf w = 0 → 1 ≤ (bOf w).toNat → (bOf w).toNat ≤ 4 → 1 ≤ (cOf w).toNat →
      ∀ as more, s.env.answers = as ++ more → as.length = 28 →
      ∃ u, Runs s u ∧ u.cfgRows = bOf w ∧ u.cfgCols = cOf w ∧ u.initDone = true ∧ u.bl = s.bl ∧
        u.payload = s.payload ∧ u.env.reqIn = rest ∧
        Responded w
          ([.delay 100]
            ++ writes (nibblePair s.params s.bl s.params.fset8Nibble false) ++ [.delay 100]
            ++ writes (nibblePair s.params s.bl s.params.fset8Nibble false) ++ [.delay 100]
            ++ writes (nibblePair s.params s.bl s.params.fset8Nibble false) ++ [.delay 100]
            ++ writes (nibblePair s.params s.bl s.params.fset4Nibble false) ++ [.delay 100]
            ++ writes (bytes8 s.params s.bl s.params.functionSetCmd false)
            ++ writes (bytes8 s.params s.bl s.params.dispctlBase false)
            ++ writes (bytes8 s.params s.bl s.params.entryModeCmd false)
            ++ writes (bytes8 s.params s.bl s.params.clearCmd false) ++ [.delay 100]
            ++ writes (bytes8 s.params s.bl (s.params.dispctlBase ||| s.params.dispOn) false))
          as s u)

/-- R71. CLEAR. R78, with the model's choices: the response held in BUSY is log entry 6, the events `ans` log entry 8,
the unchanged `PAYLOAD` log entry 11. -/
def Obligations.ClearRunsToItsResponse : Prop :=
  ∀ (s : State) (w : Word) (rest : List Word), Offered s [w] rest → opOf w = 0x11 →
    (aOf w ≠ 0 ∨ bOf w ≠ 0 ∨ cOf w ≠ 0 → ∃ u, TakesTo s u ∧ FaultedBy w 0x01 s u) ∧
    (aOf w = 0 → bOf w = 0 → cOf w = 0 → ∀ as more, s.env.answers = as ++ more → as.length = 4 →
      ∃ u, Runs s u ∧ SameConfig s u ∧ u.env.reqIn = rest ∧
        Responded w (writes (bytes8 s.params s.bl s.params.clearCmd false) ++ [.delay 100]) as s u)

/-- R72. HOME. R78, with the model's choices: the response held in BUSY is log entry 6, the events `ans` log entry 8,
the unchanged `PAYLOAD` log entry 11. -/
def Obligations.HomeRunsToItsResponse : Prop :=
  ∀ (s : State) (w : Word) (rest : List Word), Offered s [w] rest → opOf w = 0x12 →
    (aOf w ≠ 0 ∨ bOf w ≠ 0 ∨ cOf w ≠ 0 → ∃ u, TakesTo s u ∧ FaultedBy w 0x01 s u) ∧
    (aOf w = 0 → bOf w = 0 → cOf w = 0 → ∀ as more, s.env.answers = as ++ more → as.length = 4 →
      ∃ u, Runs s u ∧ SameConfig s u ∧ u.env.reqIn = rest ∧
        Responded w (writes (bytes8 s.params s.bl s.params.homeCmd false) ++ [.delay 50]) as s u)

/-- R73. SETCUR: no check against the configuration; row0 > 3 faults with cause 4. R78, with the model's choices: the
response held in BUSY is log entry 6, the events `ans` log entry 8, the unchanged `PAYLOAD` log entry 11. -/
def Obligations.SetcurRunsToItsResponse : Prop :=
  ∀ (s : State) (w : Word) (rest : List Word), Offered s [w] rest → opOf w = 0x13 →
    (aOf w ≠ 0 → ∃ u, TakesTo s u ∧ FaultedBy w 0x01 s u) ∧
    (aOf w = 0 → 3 < (bOf w).toNat → ∃ u, TakesTo s u ∧ FaultedBy w 0x04 s u) ∧
    (aOf w = 0 → (bOf w).toNat ≤ 3 → ∀ as more, s.env.answers = as ++ more → as.length = 4 →
      ∃ u, Runs s u ∧ SameConfig s u ∧ u.env.reqIn = rest ∧
        Responded w (writes (bytes8 s.params s.bl (cursorByte (bOf w).toNat (cOf w).toNat) false)) as s u)

/-- R74. WCHAR. R78, with the model's choices: the response held in BUSY or IDLE is log entry 6, the events `ans` log
entry 8, the unchanged `PAYLOAD` log entry 11. -/
def Obligations.WcharRunsToItsResponse : Prop :=
  ∀ (s : State) (w : Word) (rest : List Word), BlockInv s → Offered s [w] rest → opOf w = 0x14 →
    (s.initDone = false → ∃ u, TakesTo s u ∧ FaultedBy w 0x02 s u) ∧
    (s.initDone = true → (bOf w).toNat < 1 → ∃ u, TakesTo s u ∧ Rejected w 0x01 s u) ∧
    (s.initDone = true → s.cfgRows.toNat < (bOf w).toNat → ∃ u, TakesTo s u ∧ Rejected w 0x02 s u) ∧
    (s.initDone = true → 1 ≤ (bOf w).toNat → (bOf w).toNat ≤ s.cfgRows.toNat → (cOf w).toNat < 1 →
      ∃ u, TakesTo s u ∧ Rejected w 0x03 s u) ∧
    (s.initDone = true → 1 ≤ (bOf w).toNat → (bOf w).toNat ≤ s.cfgRows.toNat → s.cfgCols.toNat < (cOf w).toNat →
      ∃ u, TakesTo s u ∧ Rejected w 0x04 s u) ∧
    (s.initDone = true → 1 ≤ (bOf w).toNat → (bOf w).toNat ≤ s.cfgRows.toNat →
      1 ≤ (cOf w).toNat → (cOf w).toNat ≤ s.cfgCols.toNat →
      ∀ as more, s.env.answers = as ++ more → as.length = 8 →
      ∃ u, Runs s u ∧ SameConfig s u ∧ u.env.reqIn = rest ∧
        Responded w
          (writes (bytes8 s.params s.bl (cursorByte ((bOf w).toNat - 1) ((cOf w).toNat - 1)) false
            ++ bytes8 s.params s.bl (aOf w) true)) as s u)

/-- R75. WSTR: all payload words are taken first; silent truncation; 4 + 4n bus writes. R78, with the model's choices:
the response held in BUSY or IDLE is log entry 6, the events `ans` and the place of `Req` log entry 8. -/
def Obligations.WstrRunsToItsResponse : Prop :=
  ∀ (s : State) (w : Word) (ps rest : List Word), BlockInv s → Offered s (w :: ps) rest → opOf w = 0x15 →
    ps.length = ((aOf w).toNat + 3) / 4 →
    (s.initDone = false → ∃ u, Runs s u ∧ FaultedBy w 0x02 s u ∧ u.env.reqIn = rest) ∧
    (s.initDone = true → (bOf w).toNat < 1 → ∃ u, Runs s u ∧ Rejected w 0x01 s u ∧ u.env.reqIn = rest) ∧
    (s.initDone = true → s.cfgRows.toNat < (bOf w).toNat →
      ∃ u, Runs s u ∧ Rejected w 0x02 s u ∧ u.env.reqIn = rest) ∧
    (s.initDone = true → 1 ≤ (bOf w).toNat → (bOf w).toNat ≤ s.cfgRows.toNat → (cOf w).toNat < 1 →
      ∃ u, Runs s u ∧ Rejected w 0x03 s u ∧ u.env.reqIn = rest) ∧
    (s.initDone = true → 1 ≤ (bOf w).toNat → (bOf w).toNat ≤ s.cfgRows.toNat → s.cfgCols.toNat < (cOf w).toNat →
      ∃ u, Runs s u ∧ Rejected w 0x04 s u ∧ u.env.reqIn = rest) ∧
    (s.initDone = true → 1 ≤ (bOf w).toNat → (bOf w).toNat ≤ s.cfgRows.toNat →
      1 ≤ (cOf w).toNat → (cOf w).toNat ≤ s.cfgCols.toNat →
      ∀ n, n = min (aOf w).toNat (s.cfgCols.toNat - (cOf w).toNat + 1) →
      ∀ as more, s.env.answers = as ++ more → as.length = 4 + 4 * n →
      ∃ u, Runs s u ∧ u.cfgRows = s.cfgRows ∧ u.cfgCols = s.cfgCols ∧ u.bl = s.bl ∧ u.initDone = s.initDone ∧
        u.env.reqIn = rest ∧
        Responded w
          (writes (bytes8 s.params s.bl (cursorByte ((bOf w).toNat - 1) ((cOf w).toNat - 1)) false
            ++ (chars ps n).flatMap (fun ch => bytes8 s.params s.bl ch true))) as s u)

/-- R76. SETMODE: A is display, B is blink, C is cursor; any nonzero byte is on. R78, with the model's choices: the
response held in BUSY is log entry 6, the events `ans` log entry 8, the unchanged `PAYLOAD` log entry 11. -/
def Obligations.SetmodeRunsToItsResponse : Prop :=
  ∀ (s : State) (w : Word) (rest : List Word), Offered s [w] rest → opOf w = 0x16 →
    ∀ as more, s.env.answers = as ++ more → as.length = 4 →
      ∃ u, Runs s u ∧ SameConfig s u ∧ u.env.reqIn = rest ∧
        Responded w
          (writes (bytes8 s.params s.bl
            (s.params.dispctlBase ||| (if aOf w ≠ 0 then s.params.dispOn else 0)
              ||| (if cOf w ≠ 0 then s.params.cursorOn else 0) ||| (if bOf w ≠ 0 then s.params.blinkOn else 0)) false))
          as s u
end

