-- ==== Sys2Proof/Laws/Decode.lean ====
section
/-! SUPPORT. Lemmas about request words: the fields of a header, packing and unpacking, and what a decoded request is. -/

namespace Sys2Proof

open Sys2Proof.Safety

/-! ## The fields of a header -/

@[simp] theorem opOf_mkHeader (op a b c : Byte) : opOf (mkHeader op a b c) = op := by
  apply BitVec.eq_of_getLsbD_eq
  intro i hi
  simp only [opOf, mkHeader, BitVec.getLsbD_extractLsb', BitVec.getLsbD_append, hi]
  have h1 : ¬ 24 + i < 8 := by omega
  have h2 : ¬ 24 + i - 8 < 8 := by omega
  have h3 : ¬ 24 + i - 8 - 8 < 8 := by omega
  have h4 : 24 + i - 8 - 8 - 8 = i := by omega
  simp [h1, h2, h3, h4]

@[simp] theorem aOf_mkHeader (op a b c : Byte) : aOf (mkHeader op a b c) = a := by
  apply BitVec.eq_of_getLsbD_eq
  intro i hi
  simp only [aOf, mkHeader, BitVec.getLsbD_extractLsb', BitVec.getLsbD_append, hi]
  have h1 : ¬ 16 + i < 8 := by omega
  have h2 : ¬ 16 + i - 8 < 8 := by omega
  have h3 : 16 + i - 8 - 8 = i := by omega
  simp [h1, h2, h3, hi]

@[simp] theorem bOf_mkHeader (op a b c : Byte) : bOf (mkHeader op a b c) = b := by
  apply BitVec.eq_of_getLsbD_eq
  intro i hi
  simp only [bOf, mkHeader, BitVec.getLsbD_extractLsb', BitVec.getLsbD_append, hi]
  have h1 : ¬ 8 + i < 8 := by omega
  have h2 : 8 + i - 8 = i := by omega
  simp [h1, h2, hi]

@[simp] theorem cOf_mkHeader (op a b c : Byte) : cOf (mkHeader op a b c) = c := by
  apply BitVec.eq_of_getLsbD_eq
  intro i hi
  simp only [cOf, mkHeader, BitVec.getLsbD_extractLsb', BitVec.getLsbD_append, hi]
  simp [hi]

/-- A header is its four fields. -/
theorem mkHeader_fields (w : Word) : mkHeader (opOf w) (aOf w) (bOf w) (cOf w) = w := by
  apply BitVec.eq_of_getLsbD_eq
  intro i hi
  simp only [opOf, aOf, bOf, cOf, mkHeader, BitVec.getLsbD_extractLsb', BitVec.getLsbD_append]
  by_cases h1 : i < 8
  · simp [h1]
  · by_cases h2 : i - 8 < 8
    · have : 8 + (i - 8) = i := by omega
      simp [h1, h2, this]
    · by_cases h3 : i - 8 - 8 < 8
      · have : 16 + (i - 8 - 8) = i := by omega
        simp [h1, h2, h3, this]
      · have h4 : i - 8 - 8 - 8 < 8 := by omega
        have : 24 + (i - 8 - 8 - 8) = i := by omega
        simp [h1, h2, h3, h4, this]

/-- The 16-bit operand of WAIT is `{B, C}` (R49). -/
theorem append_extract (ms : BitVec 16) : (ms.extractLsb' 8 8 ++ ms.extractLsb' 0 8 : BitVec 16) = ms := by
  apply BitVec.eq_of_getLsbD_eq
  intro i hi
  simp only [BitVec.getLsbD_extractLsb', BitVec.getLsbD_append]
  by_cases h1 : i < 8
  · simp [h1]
  · have h2 : i - 8 < 8 := by omega
    have : 8 + (i - 8) = i := by omega
    simp [h1, h2, this]

/-- The two fields of `{B, C}`. -/
theorem extract_append (b c : Byte) :
    (b ++ c : BitVec 16).extractLsb' 8 8 = b ∧ (b ++ c : BitVec 16).extractLsb' 0 8 = c := by
  constructor
  · apply BitVec.eq_of_getLsbD_eq
    intro i hi
    simp only [BitVec.getLsbD_extractLsb', BitVec.getLsbD_append, hi]
    have h1 : ¬ 8 + i < 8 := by omega
    have h2 : 8 + i - 8 = i := by omega
    simp [h1, h2]
  · apply BitVec.eq_of_getLsbD_eq
    intro i hi
    simp only [BitVec.getLsbD_extractLsb', BitVec.getLsbD_append, hi]
    simp [hi]

/-! ## Payload -/

theorem lanes_append (a b c d : Byte) : lanes (a ++ b ++ c ++ d) = [a, b, c, d] := by
  have h1 := opOf_mkHeader a b c d
  have h2 := aOf_mkHeader a b c d
  have h3 := bOf_mkHeader a b c d
  have h4 := cOf_mkHeader a b c d
  simp only [opOf, aOf, bOf, cOf, mkHeader] at h1 h2 h3 h4
  simp only [lanes]
  rw [h1, h2, h3, h4]

@[simp] theorem lanes_length (w : Word) : (lanes w).length = 4 := rfl

@[simp] theorem unpack_nil : unpack [] = [] := rfl

theorem unpack_cons (w : Word) (ps : List Word) : unpack (w :: ps) = lanes w ++ unpack ps := by
  simp [unpack]

theorem unpack_length (ps : List Word) : (unpack ps).length = 4 * ps.length := by
  induction ps with
  | nil => rfl
  | cons w ps ih => simp only [unpack_cons, List.length_append, lanes_length, ih, List.length_cons]; omega

theorem pack_length (l : List Byte) : (pack l).length = (l.length + 3) / 4 := by
  induction l using pack.induct with
  | case1 => rfl
  | case2 a => simp [pack]
  | case3 a b => simp [pack]
  | case4 a b c => simp [pack]
  | case5 a b c d rest ih => simp only [pack, List.length_cons, ih]; omega

/-- Packing loses no character: the characters are the first lanes of the words. -/
theorem unpack_pack (l : List Byte) : (unpack (pack l)).take l.length = l := by
  induction l using pack.induct with
  | case1 => rfl
  | case2 a => simp [pack, unpack_cons, lanes_append]
  | case3 a b => simp [pack, unpack_cons, lanes_append]
  | case4 a b c => simp [pack, unpack_cons, lanes_append]
  | case5 a b c d rest ih => simp [pack, unpack_cons, lanes_append, ih]

/-- R52: byte i of the payload is the lane `charAt` names. -/
theorem unpack_getElem? (ps : List Word) (i : Nat) (h : i < 4 * ps.length) : (unpack ps)[i]? = some (charAt ps i) := by
  induction ps generalizing i with
  | nil => simp at h
  | cons w ps ih =>
    rw [unpack_cons]
    by_cases h4 : i < 4
    · rw [List.getElem?_append_left (by simpa using h4)]
      have hd : i / 4 = 0 := by omega
      have hm : i % 4 = i := by omega
      simp only [charAt, hd, hm, List.getD_cons_zero]
      interval_cases i <;> rfl
    · rw [List.getElem?_append_right (by simpa using h4), lanes_length]
      rw [ih (i - 4) (by simp at h; omega)]
      have hd : i / 4 = (i - 4) / 4 + 1 := by omega
      have hm : i % 4 = (i - 4) % 4 := by omega
      simp only [charAt, hd, hm, List.getD_cons_succ]

/-- The first `n` bytes of a payload are its first `n` characters. -/
theorem unpack_take (ps : List Word) (n : Nat) (h : n ≤ 4 * ps.length) : (unpack ps).take n = chars ps n := by
  apply List.ext_getElem?
  intro i
  by_cases hi : i < n
  · rw [List.getElem?_take_of_lt hi, unpack_getElem? ps i (by omega)]
    simp [chars, hi]
  · rw [List.getElem?_eq_none, List.getElem?_eq_none]
    · simp [chars]; omega
    · simp; omega

/-! ## Decoding -/

theorem whenZero_eq_ok {b : Bool} {i j : Instr} : whenZero b i = .ok j ↔ b = true ∧ i = j := by
  cases b <;> simp [whenZero]

/-- What a header that decodes is: R48's formats, read off the decoder once. -/
theorem decode_ok_cases {hdr : Word} {bytes : List Byte} {i : Instr} (h : decode hdr bytes = .ok i) :
    (opOf hdr = opCmd8 ∧ aOf hdr = 0 ∧ bOf hdr = 0 ∧ i = .cmd8 (cOf hdr)) ∨
    (opOf hdr = opCmd4 ∧ aOf hdr = 0 ∧ bOf hdr = 0 ∧ i = .cmd4 (cOf hdr)) ∨
    (opOf hdr = opData4 ∧ aOf hdr = 0 ∧ bOf hdr = 0 ∧ i = .data4 (cOf hdr)) ∨
    (opOf hdr = opWait ∧ aOf hdr = 0 ∧ i = .wait (bOf hdr ++ cOf hdr)) ∨
    (opOf hdr = opSetbl ∧ aOf hdr = 0 ∧ bOf hdr = 0 ∧ i = .setbl (cOf hdr)) ∨
    (opOf hdr = opInit ∧ aOf hdr = 0 ∧ i = .init (bOf hdr) (cOf hdr)) ∨
    (opOf hdr = opClear ∧ aOf hdr = 0 ∧ bOf hdr = 0 ∧ cOf hdr = 0 ∧ i = .clear) ∨
    (opOf hdr = opHome ∧ aOf hdr = 0 ∧ bOf hdr = 0 ∧ cOf hdr = 0 ∧ i = .home) ∨
    (opOf hdr = opSetcur ∧ aOf hdr = 0 ∧ i = .setcur (bOf hdr) (cOf hdr)) ∨
    (opOf hdr = opWchar ∧ i = .wchar (aOf hdr) (bOf hdr) (cOf hdr)) ∨
    (opOf hdr = opWstr ∧ (bytes.take (aOf hdr).toNat).length = (aOf hdr).toNat ∧
      i = .wstr (bOf hdr) (cOf hdr) (bytes.take (aOf hdr).toNat)) ∨
    (opOf hdr = opSetmode ∧ i = .setmode (aOf hdr) (bOf hdr) (cOf hdr)) := by
  unfold decode at h
  by_cases ho : opOf hdr = opCmd8
  · rw [if_pos ho] at h
    obtain ⟨hz, rfl⟩ := whenZero_eq_ok.mp h
    simp at hz; exact .inl ⟨ho, hz.1, hz.2, rfl⟩
  rw [if_neg ho] at h; right
  by_cases ho : opOf hdr = opCmd4
  · rw [if_pos ho] at h
    obtain ⟨hz, rfl⟩ := whenZero_eq_ok.mp h
    simp at hz; exact .inl ⟨ho, hz.1, hz.2, rfl⟩
  rw [if_neg ho] at h; right
  by_cases ho : opOf hdr = opData4
  · rw [if_pos ho] at h
    obtain ⟨hz, rfl⟩ := whenZero_eq_ok.mp h
    simp at hz; exact .inl ⟨ho, hz.1, hz.2, rfl⟩
  rw [if_neg ho] at h; right
  by_cases ho : opOf hdr = opWait
  · rw [if_pos ho] at h
    obtain ⟨hz, rfl⟩ := whenZero_eq_ok.mp h
    simp at hz; exact .inl ⟨ho, hz, rfl⟩
  rw [if_neg ho] at h; right
  by_cases ho : opOf hdr = opSetbl
  · rw [if_pos ho] at h
    obtain ⟨hz, rfl⟩ := whenZero_eq_ok.mp h
    simp at hz; exact .inl ⟨ho, hz.1, hz.2, rfl⟩
  rw [if_neg ho] at h; right
  by_cases ho : opOf hdr = opInit
  · rw [if_pos ho] at h
    obtain ⟨hz, rfl⟩ := whenZero_eq_ok.mp h
    simp at hz; exact .inl ⟨ho, hz, rfl⟩
  rw [if_neg ho] at h; right
  by_cases ho : opOf hdr = opClear
  · rw [if_pos ho] at h
    obtain ⟨hz, rfl⟩ := whenZero_eq_ok.mp h
    simp at hz; exact .inl ⟨ho, hz.1.1, hz.1.2, hz.2, rfl⟩
  rw [if_neg ho] at h; right
  by_cases ho : opOf hdr = opHome
  · rw [if_pos ho] at h
    obtain ⟨hz, rfl⟩ := whenZero_eq_ok.mp h
    simp at hz; exact .inl ⟨ho, hz.1.1, hz.1.2, hz.2, rfl⟩
  rw [if_neg ho] at h; right
  by_cases ho : opOf hdr = opSetcur
  · rw [if_pos ho] at h
    obtain ⟨hz, rfl⟩ := whenZero_eq_ok.mp h
    simp at hz; exact .inl ⟨ho, hz, rfl⟩
  rw [if_neg ho] at h; right
  by_cases ho : opOf hdr = opWchar
  · rw [if_pos ho] at h
    exact .inl ⟨ho, (Except.ok.inj h).symm⟩
  rw [if_neg ho] at h; right
  by_cases ho : opOf hdr = opWstr
  · rw [if_pos ho] at h
    by_cases hl : (bytes.take (aOf hdr).toNat).length = (aOf hdr).toNat
    · rw [if_pos hl] at h
      exact .inl ⟨ho, hl, (Except.ok.inj h).symm⟩
    · rw [if_neg hl] at h
      exact absurd h (by simp)
  rw [if_neg ho] at h; right
  by_cases ho : opOf hdr = opSetmode
  · rw [if_pos ho] at h
    exact ⟨ho, (Except.ok.inj h).symm⟩
  rw [if_neg ho] at h
  exact absurd h (by simp)

/-- Decoding reads no byte past the length (R28). -/
theorem decode_congr {hdr : Word} {b1 b2 : List Byte}
    (h : opOf hdr = opWstr → b1.take (aOf hdr).toNat = b2.take (aOf hdr).toNat) : decode hdr b1 = decode hdr b2 := by
  by_cases ho : opOf hdr = opWstr
  · simp only [decode, h ho]
  · unfold decode
    simp only [if_neg ho]

/-- A request other than WSTR has no payload word (R52). -/
theorem payloadWords_eq (hdr : Word) : payloadWords hdr = if opOf hdr = 0x15 then ((aOf hdr).toNat + 3) / 4 else 0 := rfl

/-- The words of the header announce enough lanes for every character. -/
theorem le_four_mul_payloadWords {hdr : Word} (h : opOf hdr = opWstr) : (aOf hdr).toNat ≤ 4 * payloadWords hdr := by
  simp only [payloadWords, h, if_true]; omega

theorem decodeWords_cons {hdr : Word} {ps : List Word} (h : ps.length = payloadWords hdr) :
    decodeWords (hdr :: ps) = decode hdr (unpack ps) := by
  simp [decodeWords, h]

end Sys2Proof
end

