-- ==== Sys2Proof/Laws/State.lean ====
section
/-! SUPPORT. One lemma per field of State and per update: what the update leaves in the field. True by rfl. -/

namespace Sys2Proof.Machine

variable (s : State)

/-! ## `emit` -/

@[simp] theorem emit_cfgRows (e : Event) : (emit e s).cfgRows = s.cfgRows := rfl
@[simp] theorem emit_cfgCols (e : Event) : (emit e s).cfgCols = s.cfgCols := rfl
@[simp] theorem emit_bl (e : Event) : (emit e s).bl = s.bl := rfl
@[simp] theorem emit_initDone (e : Event) : (emit e s).initDone = s.initDone := rfl
@[simp] theorem emit_status (e : Event) : (emit e s).status = s.status := rfl
@[simp] theorem emit_terrLast (e : Event) : (emit e s).terrLast = s.terrLast := rfl
@[simp] theorem emit_seqState (e : Event) : (emit e s).seqState = s.seqState := rfl
@[simp] theorem emit_seqProg (e : Event) : (emit e s).seqProg = s.seqProg := rfl
@[simp] theorem emit_seqStep (e : Event) : (emit e s).seqStep = s.seqStep := rfl
@[simp] theorem emit_delayCnt (e : Event) : (emit e s).delayCnt = s.delayCnt := rfl
@[simp] theorem emit_reqWord (e : Event) : (emit e s).reqWord = s.reqWord := rfl
@[simp] theorem emit_payload (e : Event) : (emit e s).payload = s.payload := rfl
@[simp] theorem emit_fault (e : Event) : (emit e s).fault = s.fault := rfl
@[simp] theorem emit_faultCause (e : Event) : (emit e s).faultCause = s.faultCause := rfl
@[simp] theorem emit_collected (e : Event) : (emit e s).collected = s.collected := rfl
@[simp] theorem emit_bwOut (e : Event) : (emit e s).bwOut = s.bwOut := rfl
@[simp] theorem emit_rsp (e : Event) : (emit e s).rsp = s.rsp := rfl
@[simp] theorem emit_params (e : Event) : (emit e s).params = s.params := rfl
@[simp] theorem emit_env (e : Event) : (emit e s).env = s.env := rfl
@[simp] theorem emit_ghost (e : Event) : (emit e s).ghost = s.ghost := rfl
@[simp] theorem emit_trace (e : Event) : (emit e s).trace = s.trace ++ [e] := rfl

/-! ## `respond` -/

@[simp] theorem respond_cfgRows (st : Byte) : (respond st s).cfgRows = s.cfgRows := rfl
@[simp] theorem respond_cfgCols (st : Byte) : (respond st s).cfgCols = s.cfgCols := rfl
@[simp] theorem respond_bl (st : Byte) : (respond st s).bl = s.bl := rfl
@[simp] theorem respond_initDone (st : Byte) : (respond st s).initDone = s.initDone := rfl
@[simp] theorem respond_status (st : Byte) : (respond st s).status = s.status := rfl
@[simp] theorem respond_terrLast (st : Byte) : (respond st s).terrLast = s.terrLast := rfl
@[simp] theorem respond_seqState (st : Byte) : (respond st s).seqState = s.seqState := rfl
@[simp] theorem respond_seqProg (st : Byte) : (respond st s).seqProg = s.seqProg := rfl
@[simp] theorem respond_seqStep (st : Byte) : (respond st s).seqStep = s.seqStep := rfl
@[simp] theorem respond_delayCnt (st : Byte) : (respond st s).delayCnt = s.delayCnt := rfl
@[simp] theorem respond_reqWord (st : Byte) : (respond st s).reqWord = s.reqWord := rfl
@[simp] theorem respond_payload (st : Byte) : (respond st s).payload = s.payload := rfl
@[simp] theorem respond_fault (st : Byte) : (respond st s).fault = s.fault := rfl
@[simp] theorem respond_faultCause (st : Byte) : (respond st s).faultCause = s.faultCause := rfl
@[simp] theorem respond_collected (st : Byte) : (respond st s).collected = s.collected := rfl
@[simp] theorem respond_bwOut (st : Byte) : (respond st s).bwOut = s.bwOut := rfl
@[simp] theorem respond_rsp (st : Byte) : (respond st s).rsp = some (responseOf st s.terrLast) := rfl
@[simp] theorem respond_params (st : Byte) : (respond st s).params = s.params := rfl
@[simp] theorem respond_env (st : Byte) : (respond st s).env = s.env := rfl
@[simp] theorem respond_ghost (st : Byte) : (respond st s).ghost = s.ghost := rfl
@[simp] theorem respond_trace (st : Byte) : (respond st s).trace = s.trace ++ [.rsp (responseOf st s.terrLast)] := rfl

/-! ## `releaseResponse` -/

@[simp] theorem releaseResponse_cfgRows : (releaseResponse s).cfgRows = s.cfgRows := rfl
@[simp] theorem releaseResponse_cfgCols : (releaseResponse s).cfgCols = s.cfgCols := rfl
@[simp] theorem releaseResponse_bl : (releaseResponse s).bl = s.bl := rfl
@[simp] theorem releaseResponse_initDone : (releaseResponse s).initDone = s.initDone := rfl
@[simp] theorem releaseResponse_status : (releaseResponse s).status = s.status := rfl
@[simp] theorem releaseResponse_terrLast : (releaseResponse s).terrLast = s.terrLast := rfl
@[simp] theorem releaseResponse_seqState : (releaseResponse s).seqState = .idle := rfl
@[simp] theorem releaseResponse_seqProg : (releaseResponse s).seqProg = s.seqProg := rfl
@[simp] theorem releaseResponse_seqStep : (releaseResponse s).seqStep = s.seqStep := rfl
@[simp] theorem releaseResponse_delayCnt : (releaseResponse s).delayCnt = s.delayCnt := rfl
@[simp] theorem releaseResponse_reqWord : (releaseResponse s).reqWord = s.reqWord := rfl
@[simp] theorem releaseResponse_payload : (releaseResponse s).payload = s.payload := rfl
@[simp] theorem releaseResponse_fault : (releaseResponse s).fault = s.fault := rfl
@[simp] theorem releaseResponse_faultCause : (releaseResponse s).faultCause = s.faultCause := rfl
@[simp] theorem releaseResponse_collected : (releaseResponse s).collected = s.collected := rfl
@[simp] theorem releaseResponse_bwOut : (releaseResponse s).bwOut = s.bwOut := rfl
@[simp] theorem releaseResponse_rsp : (releaseResponse s).rsp = none := rfl
@[simp] theorem releaseResponse_params : (releaseResponse s).params = s.params := rfl
@[simp] theorem releaseResponse_env : (releaseResponse s).env = s.env := rfl
@[simp] theorem releaseResponse_ghost : (releaseResponse s).ghost = s.ghost := rfl
@[simp] theorem releaseResponse_trace : (releaseResponse s).trace = s.trace := rfl

/-! ## `raiseFault` -/

@[simp] theorem raiseFault_cfgRows (c : FaultCause) : (raiseFault c s).cfgRows = s.cfgRows := rfl
@[simp] theorem raiseFault_cfgCols (c : FaultCause) : (raiseFault c s).cfgCols = s.cfgCols := rfl
@[simp] theorem raiseFault_bl (c : FaultCause) : (raiseFault c s).bl = s.bl := rfl
@[simp] theorem raiseFault_initDone (c : FaultCause) : (raiseFault c s).initDone = s.initDone := rfl
@[simp] theorem raiseFault_status (c : FaultCause) : (raiseFault c s).status = s.status := rfl
@[simp] theorem raiseFault_terrLast (c : FaultCause) : (raiseFault c s).terrLast = s.terrLast := rfl
@[simp] theorem raiseFault_seqState (c : FaultCause) : (raiseFault c s).seqState = .faulted := rfl
@[simp] theorem raiseFault_seqProg (c : FaultCause) : (raiseFault c s).seqProg = s.seqProg := rfl
@[simp] theorem raiseFault_seqStep (c : FaultCause) : (raiseFault c s).seqStep = s.seqStep := rfl
@[simp] theorem raiseFault_delayCnt (c : FaultCause) : (raiseFault c s).delayCnt = s.delayCnt := rfl
@[simp] theorem raiseFault_reqWord (c : FaultCause) : (raiseFault c s).reqWord = s.reqWord := rfl
@[simp] theorem raiseFault_payload (c : FaultCause) : (raiseFault c s).payload = s.payload := rfl
@[simp] theorem raiseFault_fault (c : FaultCause) : (raiseFault c s).fault = true := rfl
@[simp] theorem raiseFault_faultCause (c : FaultCause) :
    (raiseFault c s).faultCause = if s.fault then s.faultCause else c.code := rfl
@[simp] theorem raiseFault_collected (c : FaultCause) : (raiseFault c s).collected = s.collected := rfl
@[simp] theorem raiseFault_bwOut (c : FaultCause) : (raiseFault c s).bwOut = s.bwOut := rfl
@[simp] theorem raiseFault_rsp (c : FaultCause) : (raiseFault c s).rsp = s.rsp := rfl
@[simp] theorem raiseFault_params (c : FaultCause) : (raiseFault c s).params = s.params := rfl
@[simp] theorem raiseFault_env (c : FaultCause) : (raiseFault c s).env = s.env := rfl
@[simp] theorem raiseFault_ghost (c : FaultCause) : (raiseFault c s).ghost = s.ghost := rfl
@[simp] theorem raiseFault_trace (c : FaultCause) : (raiseFault c s).trace = s.trace ++ [.flt c.code] := rfl

/-! ## `startRequest` -/

@[simp] theorem startRequest_cfgRows (prog : List MicroOp) : (startRequest prog s).cfgRows = s.cfgRows := rfl
@[simp] theorem startRequest_cfgCols (prog : List MicroOp) : (startRequest prog s).cfgCols = s.cfgCols := rfl
@[simp] theorem startRequest_bl (prog : List MicroOp) : (startRequest prog s).bl = s.bl := rfl
@[simp] theorem startRequest_initDone (prog : List MicroOp) : (startRequest prog s).initDone = s.initDone := rfl
@[simp] theorem startRequest_status (prog : List MicroOp) : (startRequest prog s).status = 0x00 := rfl
@[simp] theorem startRequest_terrLast (prog : List MicroOp) : (startRequest prog s).terrLast = s.terrLast := rfl
@[simp] theorem startRequest_seqState (prog : List MicroOp) : (startRequest prog s).seqState = .busy := rfl
@[simp] theorem startRequest_seqProg (prog : List MicroOp) : (startRequest prog s).seqProg = prog := rfl
@[simp] theorem startRequest_seqStep (prog : List MicroOp) : (startRequest prog s).seqStep = 0 := rfl
@[simp] theorem startRequest_delayCnt (prog : List MicroOp) : (startRequest prog s).delayCnt = s.delayCnt := rfl
@[simp] theorem startRequest_reqWord (prog : List MicroOp) : (startRequest prog s).reqWord = s.reqWord := rfl
@[simp] theorem startRequest_payload (prog : List MicroOp) : (startRequest prog s).payload = s.payload := rfl
@[simp] theorem startRequest_fault (prog : List MicroOp) : (startRequest prog s).fault = s.fault := rfl
@[simp] theorem startRequest_faultCause (prog : List MicroOp) : (startRequest prog s).faultCause = s.faultCause := rfl
@[simp] theorem startRequest_collected (prog : List MicroOp) : (startRequest prog s).collected = s.collected := rfl
@[simp] theorem startRequest_bwOut (prog : List MicroOp) : (startRequest prog s).bwOut = s.bwOut := rfl
@[simp] theorem startRequest_rsp (prog : List MicroOp) : (startRequest prog s).rsp = s.rsp := rfl
@[simp] theorem startRequest_params (prog : List MicroOp) : (startRequest prog s).params = s.params := rfl
@[simp] theorem startRequest_env (prog : List MicroOp) : (startRequest prog s).env = s.env := rfl
@[simp] theorem startRequest_ghost (prog : List MicroOp) : (startRequest prog s).ghost = s.ghost := rfl
@[simp] theorem startRequest_trace (prog : List MicroOp) : (startRequest prog s).trace = s.trace := rfl

/-! ## `rejectRequest` -/

@[simp] theorem rejectRequest_cfgRows (st : Status) : (rejectRequest st s).cfgRows = s.cfgRows := rfl
@[simp] theorem rejectRequest_cfgCols (st : Status) : (rejectRequest st s).cfgCols = s.cfgCols := rfl
@[simp] theorem rejectRequest_bl (st : Status) : (rejectRequest st s).bl = s.bl := rfl
@[simp] theorem rejectRequest_initDone (st : Status) : (rejectRequest st s).initDone = s.initDone := rfl
@[simp] theorem rejectRequest_status (st : Status) : (rejectRequest st s).status = st.code := rfl
@[simp] theorem rejectRequest_terrLast (st : Status) : (rejectRequest st s).terrLast = s.terrLast := rfl
@[simp] theorem rejectRequest_seqState (st : Status) : (rejectRequest st s).seqState = s.seqState := rfl
@[simp] theorem rejectRequest_seqProg (st : Status) : (rejectRequest st s).seqProg = s.seqProg := rfl
@[simp] theorem rejectRequest_seqStep (st : Status) : (rejectRequest st s).seqStep = s.seqStep := rfl
@[simp] theorem rejectRequest_delayCnt (st : Status) : (rejectRequest st s).delayCnt = s.delayCnt := rfl
@[simp] theorem rejectRequest_reqWord (st : Status) : (rejectRequest st s).reqWord = s.reqWord := rfl
@[simp] theorem rejectRequest_payload (st : Status) : (rejectRequest st s).payload = s.payload := rfl
@[simp] theorem rejectRequest_fault (st : Status) : (rejectRequest st s).fault = s.fault := rfl
@[simp] theorem rejectRequest_faultCause (st : Status) : (rejectRequest st s).faultCause = s.faultCause := rfl
@[simp] theorem rejectRequest_collected (st : Status) : (rejectRequest st s).collected = s.collected := rfl
@[simp] theorem rejectRequest_bwOut (st : Status) : (rejectRequest st s).bwOut = s.bwOut := rfl
@[simp] theorem rejectRequest_rsp (st : Status) :
    (rejectRequest st s).rsp = some (responseOf st.code s.terrLast) := rfl
@[simp] theorem rejectRequest_params (st : Status) : (rejectRequest st s).params = s.params := rfl
@[simp] theorem rejectRequest_env (st : Status) : (rejectRequest st s).env = s.env := rfl
@[simp] theorem rejectRequest_ghost (st : Status) : (rejectRequest st s).ghost = s.ghost := rfl
@[simp] theorem rejectRequest_trace (st : Status) :
    (rejectRequest st s).trace = s.trace ++ [.rsp (responseOf st.code s.terrLast)] := rfl

/-! ## `advance` -/

@[simp] theorem advance_cfgRows : (advance s).cfgRows = s.cfgRows := rfl
@[simp] theorem advance_cfgCols : (advance s).cfgCols = s.cfgCols := rfl
@[simp] theorem advance_bl : (advance s).bl = s.bl := rfl
@[simp] theorem advance_initDone : (advance s).initDone = s.initDone := rfl
@[simp] theorem advance_status : (advance s).status = s.status := rfl
@[simp] theorem advance_terrLast : (advance s).terrLast = s.terrLast := rfl
@[simp] theorem advance_seqState : (advance s).seqState = s.seqState := rfl
@[simp] theorem advance_seqProg : (advance s).seqProg = s.seqProg := rfl
@[simp] theorem advance_seqStep : (advance s).seqStep = s.seqStep + 1 := rfl
@[simp] theorem advance_delayCnt : (advance s).delayCnt = s.delayCnt := rfl
@[simp] theorem advance_reqWord : (advance s).reqWord = s.reqWord := rfl
@[simp] theorem advance_payload : (advance s).payload = s.payload := rfl
@[simp] theorem advance_fault : (advance s).fault = s.fault := rfl
@[simp] theorem advance_faultCause : (advance s).faultCause = s.faultCause := rfl
@[simp] theorem advance_collected : (advance s).collected = s.collected := rfl
@[simp] theorem advance_bwOut : (advance s).bwOut = s.bwOut := rfl
@[simp] theorem advance_rsp : (advance s).rsp = s.rsp := rfl
@[simp] theorem advance_params : (advance s).params = s.params := rfl
@[simp] theorem advance_env : (advance s).env = s.env := rfl
@[simp] theorem advance_ghost : (advance s).ghost = s.ghost := rfl
@[simp] theorem advance_trace : (advance s).trace = s.trace := rfl

/-! ## `issueWrite` -/

@[simp] theorem issueWrite_cfgRows (b : Byte) : (issueWrite b s).cfgRows = s.cfgRows := rfl
@[simp] theorem issueWrite_cfgCols (b : Byte) : (issueWrite b s).cfgCols = s.cfgCols := rfl
@[simp] theorem issueWrite_bl (b : Byte) : (issueWrite b s).bl = s.bl := rfl
@[simp] theorem issueWrite_initDone (b : Byte) : (issueWrite b s).initDone = s.initDone := rfl
@[simp] theorem issueWrite_status (b : Byte) : (issueWrite b s).status = s.status := rfl
@[simp] theorem issueWrite_terrLast (b : Byte) : (issueWrite b s).terrLast = s.terrLast := rfl
@[simp] theorem issueWrite_seqState (b : Byte) : (issueWrite b s).seqState = s.seqState := rfl
@[simp] theorem issueWrite_seqProg (b : Byte) : (issueWrite b s).seqProg = s.seqProg := rfl
@[simp] theorem issueWrite_seqStep (b : Byte) : (issueWrite b s).seqStep = s.seqStep := rfl
@[simp] theorem issueWrite_delayCnt (b : Byte) : (issueWrite b s).delayCnt = s.delayCnt := rfl
@[simp] theorem issueWrite_reqWord (b : Byte) : (issueWrite b s).reqWord = s.reqWord := rfl
@[simp] theorem issueWrite_payload (b : Byte) : (issueWrite b s).payload = s.payload := rfl
@[simp] theorem issueWrite_fault (b : Byte) : (issueWrite b s).fault = s.fault := rfl
@[simp] theorem issueWrite_faultCause (b : Byte) : (issueWrite b s).faultCause = s.faultCause := rfl
@[simp] theorem issueWrite_collected (b : Byte) : (issueWrite b s).collected = s.collected := rfl
@[simp] theorem issueWrite_bwOut (b : Byte) : (issueWrite b s).bwOut = true := rfl
@[simp] theorem issueWrite_rsp (b : Byte) : (issueWrite b s).rsp = s.rsp := rfl
@[simp] theorem issueWrite_params (b : Byte) : (issueWrite b s).params = s.params := rfl
@[simp] theorem issueWrite_env (b : Byte) : (issueWrite b s).env = s.env := rfl
@[simp] theorem issueWrite_ghost (b : Byte) : (issueWrite b s).ghost = s.ghost := rfl
@[simp] theorem issueWrite_trace (b : Byte) : (issueWrite b s).trace = s.trace ++ [.tx s.params.devAddr b] := rfl

/-! ## `answerWrite` -/

@[simp] theorem answerWrite_cfgRows (b : Byte) (a : Answer) (rest : List Answer) :
    (answerWrite b a rest s).cfgRows = s.cfgRows := rfl
@[simp] theorem answerWrite_cfgCols (b : Byte) (a : Answer) (rest : List Answer) :
    (answerWrite b a rest s).cfgCols = s.cfgCols := rfl
@[simp] theorem answerWrite_bl (b : Byte) (a : Answer) (rest : List Answer) :
    (answerWrite b a rest s).bl = s.bl := rfl
@[simp] theorem answerWrite_initDone (b : Byte) (a : Answer) (rest : List Answer) :
    (answerWrite b a rest s).initDone = s.initDone := rfl
@[simp] theorem answerWrite_status (b : Byte) (a : Answer) (rest : List Answer) :
    (answerWrite b a rest s).status = a.status.code := rfl
@[simp] theorem answerWrite_terrLast (b : Byte) (a : Answer) (rest : List Answer) :
    (answerWrite b a rest s).terrLast = a.terr s.terrLast := rfl
@[simp] theorem answerWrite_seqState (b : Byte) (a : Answer) (rest : List Answer) :
    (answerWrite b a rest s).seqState = s.seqState := rfl
@[simp] theorem answerWrite_seqProg (b : Byte) (a : Answer) (rest : List Answer) :
    (answerWrite b a rest s).seqProg = s.seqProg := rfl
@[simp] theorem answerWrite_seqStep (b : Byte) (a : Answer) (rest : List Answer) :
    (answerWrite b a rest s).seqStep = s.seqStep := rfl
@[simp] theorem answerWrite_delayCnt (b : Byte) (a : Answer) (rest : List Answer) :
    (answerWrite b a rest s).delayCnt = s.delayCnt := rfl
@[simp] theorem answerWrite_reqWord (b : Byte) (a : Answer) (rest : List Answer) :
    (answerWrite b a rest s).reqWord = s.reqWord := rfl
@[simp] theorem answerWrite_payload (b : Byte) (a : Answer) (rest : List Answer) :
    (answerWrite b a rest s).payload = s.payload := rfl
@[simp] theorem answerWrite_fault (b : Byte) (a : Answer) (rest : List Answer) :
    (answerWrite b a rest s).fault = s.fault := rfl
@[simp] theorem answerWrite_faultCause (b : Byte) (a : Answer) (rest : List Answer) :
    (answerWrite b a rest s).faultCause = s.faultCause := rfl
@[simp] theorem answerWrite_collected (b : Byte) (a : Answer) (rest : List Answer) :
    (answerWrite b a rest s).collected = s.collected := rfl
@[simp] theorem answerWrite_bwOut (b : Byte) (a : Answer) (rest : List Answer) :
    (answerWrite b a rest s).bwOut = false := rfl
@[simp] theorem answerWrite_rsp (b : Byte) (a : Answer) (rest : List Answer) :
    (answerWrite b a rest s).rsp = s.rsp := rfl
@[simp] theorem answerWrite_params (b : Byte) (a : Answer) (rest : List Answer) :
    (answerWrite b a rest s).params = s.params := rfl
@[simp] theorem answerWrite_env (b : Byte) (a : Answer) (rest : List Answer) :
    (answerWrite b a rest s).env = { s.env with answers := rest } := rfl
@[simp] theorem answerWrite_ghost (b : Byte) (a : Answer) (rest : List Answer) :
    (answerWrite b a rest s).ghost =
      s.ghost.write (opOf s.reqWord) s.seqStep (s.seqProg.drop (s.seqStep + 1)) b a.landed := rfl
@[simp] theorem answerWrite_trace (b : Byte) (a : Answer) (rest : List Answer) :
    (answerWrite b a rest s).trace = s.trace ++ [.ans a] := rfl

/-! ## `completeRequest` -/

@[simp] theorem completeRequest_cfgRows : (completeRequest s).cfgRows = s.cfgRows := rfl
@[simp] theorem completeRequest_cfgCols : (completeRequest s).cfgCols = s.cfgCols := rfl
@[simp] theorem completeRequest_bl : (completeRequest s).bl = s.bl := rfl
@[simp] theorem completeRequest_initDone :
    (completeRequest s).initDone = (s.initDone || opOf s.reqWord == opInit) := rfl
@[simp] theorem completeRequest_status : (completeRequest s).status = s.status := rfl
@[simp] theorem completeRequest_terrLast : (completeRequest s).terrLast = s.terrLast := rfl
@[simp] theorem completeRequest_seqState : (completeRequest s).seqState = s.seqState := rfl
@[simp] theorem completeRequest_seqProg : (completeRequest s).seqProg = s.seqProg := rfl
@[simp] theorem completeRequest_seqStep : (completeRequest s).seqStep = s.seqStep := rfl
@[simp] theorem completeRequest_delayCnt : (completeRequest s).delayCnt = s.delayCnt := rfl
@[simp] theorem completeRequest_reqWord : (completeRequest s).reqWord = s.reqWord := rfl
@[simp] theorem completeRequest_payload : (completeRequest s).payload = s.payload := rfl
@[simp] theorem completeRequest_fault : (completeRequest s).fault = s.fault := rfl
@[simp] theorem completeRequest_faultCause : (completeRequest s).faultCause = s.faultCause := rfl
@[simp] theorem completeRequest_collected : (completeRequest s).collected = s.collected := rfl
@[simp] theorem completeRequest_bwOut : (completeRequest s).bwOut = s.bwOut := rfl
@[simp] theorem completeRequest_rsp : (completeRequest s).rsp = some (responseOf s.status s.terrLast) := rfl
@[simp] theorem completeRequest_params : (completeRequest s).params = s.params := rfl
@[simp] theorem completeRequest_env : (completeRequest s).env = s.env := rfl
@[simp] theorem completeRequest_ghost : (completeRequest s).ghost = s.ghost := rfl
@[simp] theorem completeRequest_trace :
    (completeRequest s).trace = s.trace ++ [.rsp (responseOf s.status s.terrLast)] := rfl

/-! ## `samplePins` -/

@[simp] theorem samplePins_cfgRows : (samplePins s).cfgRows = s.cfgRows := rfl
@[simp] theorem samplePins_cfgCols : (samplePins s).cfgCols = s.cfgCols := rfl
@[simp] theorem samplePins_bl : (samplePins s).bl = s.bl := rfl
@[simp] theorem samplePins_initDone : (samplePins s).initDone = s.initDone := rfl
@[simp] theorem samplePins_status : (samplePins s).status = s.status := rfl
@[simp] theorem samplePins_terrLast : (samplePins s).terrLast = s.terrLast := rfl
@[simp] theorem samplePins_seqState : (samplePins s).seqState = s.seqState := rfl
@[simp] theorem samplePins_seqProg : (samplePins s).seqProg = s.seqProg := rfl
@[simp] theorem samplePins_seqStep : (samplePins s).seqStep = s.seqStep := rfl
@[simp] theorem samplePins_delayCnt : (samplePins s).delayCnt = s.delayCnt := rfl
@[simp] theorem samplePins_reqWord : (samplePins s).reqWord = s.reqWord := rfl
@[simp] theorem samplePins_payload : (samplePins s).payload = s.payload := rfl
@[simp] theorem samplePins_fault : (samplePins s).fault = s.fault := rfl
@[simp] theorem samplePins_faultCause : (samplePins s).faultCause = s.faultCause := rfl
@[simp] theorem samplePins_collected : (samplePins s).collected = s.collected := rfl
@[simp] theorem samplePins_bwOut : (samplePins s).bwOut = s.bwOut := rfl
@[simp] theorem samplePins_rsp : (samplePins s).rsp = s.rsp := rfl
@[simp] theorem samplePins_params : (samplePins s).params = s.params := rfl
@[simp] theorem samplePins_env : (samplePins s).env = { s.env with pins := s.env.pins.tail } := rfl
@[simp] theorem samplePins_ghost : (samplePins s).ghost = s.ghost := rfl
@[simp] theorem samplePins_trace : (samplePins s).trace = s.trace := rfl

/-! ## `takeWord` -/

@[simp] theorem takeWord_cfgRows (rest : List Word) : (takeWord rest s).cfgRows = s.cfgRows := rfl
@[simp] theorem takeWord_cfgCols (rest : List Word) : (takeWord rest s).cfgCols = s.cfgCols := rfl
@[simp] theorem takeWord_bl (rest : List Word) : (takeWord rest s).bl = s.bl := rfl
@[simp] theorem takeWord_initDone (rest : List Word) : (takeWord rest s).initDone = s.initDone := rfl
@[simp] theorem takeWord_status (rest : List Word) : (takeWord rest s).status = s.status := rfl
@[simp] theorem takeWord_terrLast (rest : List Word) : (takeWord rest s).terrLast = s.terrLast := rfl
@[simp] theorem takeWord_seqState (rest : List Word) : (takeWord rest s).seqState = s.seqState := rfl
@[simp] theorem takeWord_seqProg (rest : List Word) : (takeWord rest s).seqProg = s.seqProg := rfl
@[simp] theorem takeWord_seqStep (rest : List Word) : (takeWord rest s).seqStep = s.seqStep := rfl
@[simp] theorem takeWord_delayCnt (rest : List Word) : (takeWord rest s).delayCnt = s.delayCnt := rfl
@[simp] theorem takeWord_reqWord (rest : List Word) : (takeWord rest s).reqWord = s.reqWord := rfl
@[simp] theorem takeWord_payload (rest : List Word) : (takeWord rest s).payload = s.payload := rfl
@[simp] theorem takeWord_fault (rest : List Word) : (takeWord rest s).fault = s.fault := rfl
@[simp] theorem takeWord_faultCause (rest : List Word) : (takeWord rest s).faultCause = s.faultCause := rfl
@[simp] theorem takeWord_collected (rest : List Word) : (takeWord rest s).collected = s.collected := rfl
@[simp] theorem takeWord_bwOut (rest : List Word) : (takeWord rest s).bwOut = s.bwOut := rfl
@[simp] theorem takeWord_rsp (rest : List Word) : (takeWord rest s).rsp = s.rsp := rfl
@[simp] theorem takeWord_params (rest : List Word) : (takeWord rest s).params = s.params := rfl
@[simp] theorem takeWord_env (rest : List Word) : (takeWord rest s).env = { s.env with reqIn := rest } := rfl
@[simp] theorem takeWord_ghost (rest : List Word) : (takeWord rest s).ghost = s.ghost := rfl
@[simp] theorem takeWord_trace (rest : List Word) : (takeWord rest s).trace = s.trace := rfl

/-! ## `latchRequest` -/

@[simp] theorem latchRequest_cfgRows (hdr : Word) (ps : List Word) :
    (latchRequest hdr ps s).cfgRows = s.cfgRows := rfl
@[simp] theorem latchRequest_cfgCols (hdr : Word) (ps : List Word) :
    (latchRequest hdr ps s).cfgCols = s.cfgCols := rfl
@[simp] theorem latchRequest_bl (hdr : Word) (ps : List Word) : (latchRequest hdr ps s).bl = s.bl := rfl
@[simp] theorem latchRequest_initDone (hdr : Word) (ps : List Word) :
    (latchRequest hdr ps s).initDone = s.initDone := rfl
@[simp] theorem latchRequest_status (hdr : Word) (ps : List Word) : (latchRequest hdr ps s).status = s.status := rfl
@[simp] theorem latchRequest_terrLast (hdr : Word) (ps : List Word) :
    (latchRequest hdr ps s).terrLast = s.terrLast := rfl
@[simp] theorem latchRequest_seqState (hdr : Word) (ps : List Word) :
    (latchRequest hdr ps s).seqState = s.seqState := rfl
@[simp] theorem latchRequest_seqProg (hdr : Word) (ps : List Word) :
    (latchRequest hdr ps s).seqProg = s.seqProg := rfl
@[simp] theorem latchRequest_seqStep (hdr : Word) (ps : List Word) :
    (latchRequest hdr ps s).seqStep = s.seqStep := rfl
@[simp] theorem latchRequest_delayCnt (hdr : Word) (ps : List Word) :
    (latchRequest hdr ps s).delayCnt = s.delayCnt := rfl
@[simp] theorem latchRequest_reqWord (hdr : Word) (ps : List Word) : (latchRequest hdr ps s).reqWord = hdr := rfl
@[simp] theorem latchRequest_payload (hdr : Word) (ps : List Word) :
    (latchRequest hdr ps s).payload = loadPayload s.payload ((unpack ps).take (aOf hdr).toNat) := rfl
@[simp] theorem latchRequest_fault (hdr : Word) (ps : List Word) : (latchRequest hdr ps s).fault = s.fault := rfl
@[simp] theorem latchRequest_faultCause (hdr : Word) (ps : List Word) :
    (latchRequest hdr ps s).faultCause = s.faultCause := rfl
@[simp] theorem latchRequest_collected (hdr : Word) (ps : List Word) : (latchRequest hdr ps s).collected = [] := rfl
@[simp] theorem latchRequest_bwOut (hdr : Word) (ps : List Word) : (latchRequest hdr ps s).bwOut = s.bwOut := rfl
@[simp] theorem latchRequest_rsp (hdr : Word) (ps : List Word) : (latchRequest hdr ps s).rsp = s.rsp := rfl
@[simp] theorem latchRequest_params (hdr : Word) (ps : List Word) : (latchRequest hdr ps s).params = s.params := rfl
@[simp] theorem latchRequest_env (hdr : Word) (ps : List Word) : (latchRequest hdr ps s).env = s.env := rfl
@[simp] theorem latchRequest_ghost (hdr : Word) (ps : List Word) : (latchRequest hdr ps s).ghost = s.ghost := rfl
@[simp] theorem latchRequest_trace (hdr : Word) (ps : List Word) :
    (latchRequest hdr ps s).trace = s.trace ++ [.req hdr] := rfl

/-! ## `resetBlock` -/

@[simp] theorem resetBlock_cfgRows : (resetBlock s).cfgRows = s.params.atReset.cfgRows := rfl
@[simp] theorem resetBlock_cfgCols : (resetBlock s).cfgCols = s.params.atReset.cfgCols := rfl
@[simp] theorem resetBlock_bl : (resetBlock s).bl = s.params.backlightReset := rfl
@[simp] theorem resetBlock_initDone : (resetBlock s).initDone = false := rfl
@[simp] theorem resetBlock_status : (resetBlock s).status = 0x00 := rfl
@[simp] theorem resetBlock_terrLast : (resetBlock s).terrLast = s.params.atReset.terrLast := rfl
@[simp] theorem resetBlock_seqState : (resetBlock s).seqState = .idle := rfl
@[simp] theorem resetBlock_seqProg : (resetBlock s).seqProg = [] := rfl
@[simp] theorem resetBlock_seqStep : (resetBlock s).seqStep = 0 := rfl
@[simp] theorem resetBlock_delayCnt : (resetBlock s).delayCnt = 0 := rfl
@[simp] theorem resetBlock_reqWord : (resetBlock s).reqWord = s.params.atReset.reqWord := rfl
@[simp] theorem resetBlock_payload : (resetBlock s).payload = s.params.atReset.payload := rfl
@[simp] theorem resetBlock_fault : (resetBlock s).fault = false := rfl
@[simp] theorem resetBlock_faultCause : (resetBlock s).faultCause = 0x00 := rfl
@[simp] theorem resetBlock_collected : (resetBlock s).collected = [] := rfl
@[simp] theorem resetBlock_bwOut : (resetBlock s).bwOut = false := rfl
@[simp] theorem resetBlock_rsp : (resetBlock s).rsp = none := rfl
@[simp] theorem resetBlock_params : (resetBlock s).params = s.params := rfl
@[simp] theorem resetBlock_env : (resetBlock s).env = s.env := rfl
@[simp] theorem resetBlock_ghost : (resetBlock s).ghost = s.ghost.reset := rfl
@[simp] theorem resetBlock_trace : (resetBlock s).trace = s.trace := rfl

/-! ## The ghost state -/

@[simp] theorem Ghost.reset_expander (g : Ghost) : g.reset.expander = g.expander := rfl
@[simp] theorem Ghost.reset_ctrlMode (g : Ghost) : g.reset.ctrlMode = g.ctrlMode := rfl
@[simp] theorem Ghost.reset_inPhase (g : Ghost) : g.reset.inPhase = (g.inPhase && !g.mid) := rfl
@[simp] theorem Ghost.reset_mid (g : Ghost) : g.reset.mid = false := rfl
@[simp] theorem Ghost.reset_resync (g : Ghost) : g.reset.resync = false := rfl

variable {g : Ghost} {op b : Byte} {idx : Nat} {rest : List MicroOp} {landed : Bool}

@[simp] theorem Ghost.write_expander : (g.write op idx rest b landed).expander = if landed then some b else g.expander := rfl
@[simp] theorem Ghost.write_inPhase : (g.write op idx rest b landed).inPhase = g.phaseAfter op idx landed := rfl
@[simp] theorem Ghost.write_mid : (g.write op idx rest b landed).mid = insideTransfer rest := rfl
@[simp] theorem Ghost.write_resync : (g.write op idx rest b landed).resync = g.resyncAfter op idx landed := rfl

/-- Before a delay, no transfer is in its middle. -/
@[simp] theorem insideTransfer_delay (ms : Nat) : insideTransfer (.delay ms :: rest) = false := rfl

/-- At the end of the micro-sequence, no transfer is in its middle. -/
@[simp] theorem insideTransfer_nil : insideTransfer [] = false := rfl

end Sys2Proof.Machine
end

