-- ==== Sys2Proof/Laws/Ops.lean ====
section
/-! SUPPORT. What each shared operation can do, said once (the fields after the unconditional ones are in Laws/State.lean). -/

namespace Sys2Proof.Machine

open Sys2Proof.Safety

variable {s : State}

/-! ## Bus write -/

/-- A bus write that the transport does not take yet: nothing happens. -/
theorem busWriteStep_untaken {p : Pins} {b : Byte} (ho : s.bwOut = false) (hp : p.bwReady = false) :
    busWriteStep p b s = s := by
  simp [busWriteStep, offerWrite, awaitAnswer, ho, hp]

/-- What the first half leaves of a write that the transport takes now or has taken. -/
theorem offerWrite_taken {p : Pins} {b : Byte} (h : s.bwOut = true ∨ p.bwReady = true) :
    offerWrite p b s = if s.bwOut then s else issueWrite b s := by
  cases ho : s.bwOut with
  | true => simp [offerWrite, ho]
  | false => simp [offerWrite, ho, h.resolve_left (by simp [ho])]

/-- ... it is out, and has its answers still to come. -/
theorem offerWrite_out {b : Byte} :
    (if s.bwOut then s else issueWrite b s).bwOut = true ∧ (if s.bwOut then s else issueWrite b s).env = s.env := by
  cases ho : s.bwOut <;> simp [ho]

/-- A bus write that is taken, with no answer yet: it is out, once. -/
theorem busWriteStep_unanswered {p : Pins} {b : Byte} (ht : s.bwOut = true ∨ p.bwReady = true)
    (h : p.brValid = false ∨ s.env.answers = []) : busWriteStep p b s = if s.bwOut then s else issueWrite b s := by
  obtain ⟨h1, h2⟩ := offerWrite_out (s := s) (b := b)
  unfold busWriteStep awaitAnswer
  rw [offerWrite_taken ht, h1, h2]
  rcases h with h | h <;> simp [h]

/-- A bus write that is answered: issued if it was not, then `STATUS` and `TERR_LAST` from the answer, and the next
step. -/
theorem busWriteStep_answered {p : Pins} {b : Byte} {a : Answer} {rest : List Answer}
    (ht : s.bwOut = true ∨ p.bwReady = true) (hv : p.brValid = true) (h : s.env.answers = a :: rest) :
    busWriteStep p b s = advance (answerWrite b a rest (if s.bwOut then s else issueWrite b s)) := by
  obtain ⟨h1, h2⟩ := offerWrite_out (s := s) (b := b)
  unfold busWriteStep awaitAnswer
  rw [offerWrite_taken ht, h1, h2, h]
  simp [hv]

/-- The three things a bus-write step can be. -/
theorem busWriteStep_cases (p : Pins) (b : Byte) (s : State) :
    (s.bwOut = false ∧ p.bwReady = false ∧ busWriteStep p b s = s) ∨
    ((s.bwOut = true ∨ p.bwReady = true) ∧ (p.brValid = false ∨ s.env.answers = []) ∧
      busWriteStep p b s = if s.bwOut then s else issueWrite b s) ∨
    ∃ a rest, (s.bwOut = true ∨ p.bwReady = true) ∧ p.brValid = true ∧ s.env.answers = a :: rest ∧
      busWriteStep p b s = advance (answerWrite b a rest (if s.bwOut then s else issueWrite b s)) := by
  by_cases ht : s.bwOut = true ∨ p.bwReady = true
  · right
    cases hv : p.brValid with
    | false => exact .inl ⟨ht, .inl rfl, busWriteStep_unanswered ht (.inl hv)⟩
    | true =>
      cases ha : s.env.answers with
      | nil => exact .inl ⟨ht, .inr rfl, busWriteStep_unanswered ht (.inr ha)⟩
      | cons a rest => exact .inr ⟨a, rest, ht, rfl, rfl, busWriteStep_answered ht hv ha⟩
  · simp only [not_or, Bool.not_eq_true] at ht
    exact .inl ⟨ht.1, ht.2, busWriteStep_untaken ht.1 ht.2⟩

/-- Everything a bus write can change: its own handshake, `STATUS`, `TERR_LAST`, `SEQ_STEP` by at most one, the answers
left, the ghost state and the trace. -/
theorem busWriteStep_writes (p : Pins) (b : Byte) (s : State) :
    ∃ out st t n as g evs, (n = s.seqStep ∨ n = s.seqStep + 1) ∧
      busWriteStep p b s = { s with
        bwOut := out, status := st, terrLast := t, seqStep := n, env := { s.env with answers := as }, ghost := g
        trace := s.trace ++ evs } := by
  rcases busWriteStep_cases p b s with ⟨_, _, h⟩ | ⟨_, _, h⟩ | ⟨a, rest, _, _, _, h⟩ <;> rw [h]
  · exact ⟨s.bwOut, s.status, s.terrLast, s.seqStep, s.env.answers, s.ghost, [], .inl rfl, by simp⟩
  · split
    · exact ⟨s.bwOut, s.status, s.terrLast, s.seqStep, s.env.answers, s.ghost, [], .inl rfl, by simp⟩
    · exact ⟨true, s.status, s.terrLast, s.seqStep, s.env.answers, s.ghost, [_], .inl rfl, rfl⟩
  · split
    · exact ⟨false, _, _, _, rest, _, [.ans a], .inr rfl, rfl⟩
    · exact ⟨false, a.status.code, a.terr s.terrLast, s.seqStep + 1, rest,
        s.ghost.write (opOf s.reqWord) s.seqStep (s.seqProg.drop (s.seqStep + 1)) b a.landed,
         [.tx s.params.devAddr b, .ans a], .inr rfl, by
        simp [advance, answerWrite, issueWrite, emit]⟩

/-! ## Delay -/

/-- The start of a delay whose counter does not load 0. -/
theorem delayStep_start {ms : Nat} (h : s.delayCnt = 0) (hn : ms * s.params.clkPerMs ≠ 0) :
    delayStep ms s = emit (.dly ms) { s with delayCnt := ms * s.params.clkPerMs } := by
  simp only [delayStep, if_pos h, startDelay, if_neg hn]

/-- A delay whose counter loads 0 is done at once. -/
theorem delayStep_zero {ms : Nat} (h : s.delayCnt = 0) (hn : ms * s.params.clkPerMs = 0) :
    delayStep ms s = advance (emit (.dly ms) { s with delayCnt := 0 }) := by
  simp only [delayStep, if_pos h, startDelay, hn, if_true]

/-- A clock cycle of a running delay that is not its last. -/
theorem delayStep_tick {ms n : Nat} (h : s.delayCnt = n + 2) : delayStep ms s = { s with delayCnt := n + 1 } := by
  simp [delayStep, tickDelay, h]

/-- The last clock cycle of a running delay. -/
theorem delayStep_last {ms : Nat} (h : s.delayCnt = 1) : delayStep ms s = advance { s with delayCnt := 0 } := by
  simp [delayStep, tickDelay, h]

/-- Everything a delay can change: `DELAY_CNT`, `SEQ_STEP` by at most one, and the trace by at most `Dly`. -/
theorem delayStep_writes (ms : Nat) (s : State) :
    ∃ c n evs, (n = s.seqStep ∨ n = s.seqStep + 1) ∧ (evs = [] ∨ evs = [.dly ms]) ∧
      delayStep ms s = { s with delayCnt := c, seqStep := n, trace := s.trace ++ evs } := by
  by_cases h0 : s.delayCnt = 0
  · by_cases hz : ms * s.params.clkPerMs = 0
    · exact ⟨0, _, _, .inr rfl, .inr rfl, delayStep_zero h0 hz⟩
    · exact ⟨_, _, _, .inl rfl, .inr rfl, delayStep_start h0 hz⟩
  · obtain ⟨n, hn⟩ : ∃ n, s.delayCnt = n + 1 := ⟨s.delayCnt - 1, by omega⟩
    cases n with
    | zero => exact ⟨0, _, [], .inr rfl, .inl rfl, by rw [delayStep_last hn]; simp [advance]⟩
    | succ n => exact ⟨n + 1, _, [], .inl rfl, .inl rfl, by rw [delayStep_tick hn]; simp⟩

/-! ## Position checks -/

/-- The front of WCHAR and WSTR before INIT. -/
theorem atPosition_uninitialized {row col : Byte} {prog : List MicroOp} (h : s.initDone = false) :
    atPosition row col prog s = raiseFault .notInitialized s := by
  simp [atPosition, h]

/-- The front of WCHAR and WSTR at a valid position. -/
theorem atPosition_valid {row col : Byte} {prog : List MicroOp} (h : s.initDone = true)
    (hv : validate s.cfgRows s.cfgCols row col = .ok) : atPosition row col prog s = startRequest prog s := by
  simp [atPosition, h, hv]

/-- The front of WCHAR and WSTR at a position that fails a check. -/
theorem atPosition_invalid {row col : Byte} {prog : List MicroOp} (h : s.initDone = true)
    (hv : validate s.cfgRows s.cfgCols row col ≠ .ok) :
    atPosition row col prog s = rejectRequest (validate s.cfgRows s.cfgCols row col) s := by
  unfold atPosition
  rw [if_pos h]
  split
  next h' => exact absurd h' hv
  next => rfl

/-- `Validate` passes exactly the positions on the display (R66). -/
theorem validate_eq_ok {rows cols row col : Byte} :
    validate rows cols row col = .ok ↔
      1 ≤ row.toNat ∧ row.toNat ≤ rows.toNat ∧ 1 ≤ col.toNat ∧ col.toNat ≤ cols.toNat := by
  unfold validate origin
  split_ifs <;> simp <;> omega

/-- A check never gives TRANSPORT_ERROR, so the response to a rejected request has no error value. -/
theorem responseOf_validate {rows cols row col : Byte} {t : TErr} :
    responseOf (validate rows cols row col).code t = { status := (validate rows cols row col).code, terr := none } := by
  unfold validate
  split_ifs <;> rfl

/-! ## The payload register -/

/-- The characters of a request are the first entries of `PAYLOAD`. -/
theorem loadPayload_take {old : Vector Byte 255} {text : List Byte} (h : text.length ≤ 255) :
    (loadPayload old text).toList.take text.length = text := by
  simp [loadPayload, Vector.toList, List.take_of_length_le h]

/-- A request without payload leaves `PAYLOAD` alone. -/
@[simp] theorem loadPayload_nil (old : Vector Byte 255) : loadPayload old [] = old := by
  apply Vector.toList_inj.mp
  simp [loadPayload, Vector.toList]

/-! ## Accepting a request -/

/-- The three ways `exec` ends: a fault, a rejection, or a micro-sequence started after the request's own register
writes. -/
theorem exec_cases {i : Instr} {u : State} (h : exec i s = .next u) :
    (∃ c, u = raiseFault c s) ∨
    (∃ row col, s.initDone = true ∧ validate s.cfgRows s.cfgCols row col ≠ .ok ∧
      u = rejectRequest (validate s.cfgRows s.cfgCols row col) s) ∨
    (∃ prog rows cols bl, u = startRequest prog { s with cfgRows := rows, cfgCols := cols, bl := bl }) := by
  cases i with
  | cmd8 v => exact .inr (.inr ⟨_, s.cfgRows, s.cfgCols, s.bl, (Host.Outcome.next.inj h).symm⟩)
  | cmd4 v => exact .inr (.inr ⟨_, s.cfgRows, s.cfgCols, s.bl, (Host.Outcome.next.inj h).symm⟩)
  | data4 v => exact .inr (.inr ⟨_, s.cfgRows, s.cfgCols, s.bl, (Host.Outcome.next.inj h).symm⟩)
  | wait ms => exact .inr (.inr ⟨_, s.cfgRows, s.cfgCols, s.bl, (Host.Outcome.next.inj h).symm⟩)
  | setbl on => exact .inr (.inr ⟨_, s.cfgRows, s.cfgCols, nz on, (Host.Outcome.next.inj h).symm⟩)
  | init rows cols =>
    simp only [exec, execInit] at h
    split at h
    · exact .inl ⟨_, (Host.Outcome.next.inj h).symm⟩
    · exact .inr (.inr ⟨_, rows, cols, s.bl, (Host.Outcome.next.inj h).symm⟩)
  | clear => exact .inr (.inr ⟨_, s.cfgRows, s.cfgCols, s.bl, (Host.Outcome.next.inj h).symm⟩)
  | home => exact .inr (.inr ⟨_, s.cfgRows, s.cfgCols, s.bl, (Host.Outcome.next.inj h).symm⟩)
  | setcur row0 col0 =>
    simp only [exec, execSetcur] at h
    split at h
    · exact .inl ⟨_, (Host.Outcome.next.inj h).symm⟩
    · exact .inr (.inr ⟨_, s.cfgRows, s.cfgCols, s.bl, (Host.Outcome.next.inj h).symm⟩)
  | wchar ch row col =>
    simp only [exec, execWchar, Host.Outcome.next.injEq] at h
    by_cases hi : s.initDone = true
    · by_cases hv : validate s.cfgRows s.cfgCols row col = .ok
      · rw [atPosition_valid hi hv] at h
        exact .inr (.inr ⟨_, s.cfgRows, s.cfgCols, s.bl, h.symm⟩)
      · rw [atPosition_invalid hi hv] at h
        exact .inr (.inl ⟨row, col, hi, hv, h.symm⟩)
    · rw [atPosition_uninitialized (by simpa using hi)] at h
      exact .inl ⟨_, h.symm⟩
  | wstr row col text =>
    simp only [exec, execWstr, Host.Outcome.next.injEq] at h
    by_cases hi : s.initDone = true
    · by_cases hv : validate s.cfgRows s.cfgCols row col = .ok
      · rw [atPosition_valid hi hv] at h
        exact .inr (.inr ⟨_, s.cfgRows, s.cfgCols, s.bl, h.symm⟩)
      · rw [atPosition_invalid hi hv] at h
        exact .inr (.inl ⟨row, col, hi, hv, h.symm⟩)
    · rw [atPosition_uninitialized (by simpa using hi)] at h
      exact .inl ⟨_, h.symm⟩
  | setmode a b c => exact .inr (.inr ⟨_, s.cfgRows, s.cfgCols, s.bl, (Host.Outcome.next.inj h).symm⟩)

/-- `exec` always answers a next state: no instruction stops. -/
theorem exec_next (i : Instr) (s : State) : ∃ u, exec i s = .next u := by
  cases i with
  | init rows cols => simp only [exec, execInit]; split <;> exact ⟨_, rfl⟩
  | setcur row0 col0 => simp only [exec, execSetcur]; split <;> exact ⟨_, rfl⟩
  | cmd8 v => exact ⟨_, rfl⟩
  | cmd4 v => exact ⟨_, rfl⟩
  | data4 v => exact ⟨_, rfl⟩
  | wait ms => exact ⟨_, rfl⟩
  | setbl on => exact ⟨_, rfl⟩
  | clear => exact ⟨_, rfl⟩
  | home => exact ⟨_, rfl⟩
  | wchar ch row col => exact ⟨_, rfl⟩
  | wstr row col text => exact ⟨_, rfl⟩
  | setmode a b c => exact ⟨_, rfl⟩

end Sys2Proof.Machine
end

