-- ==== Sys2Proof/Laws/PerInstr.lean ====
section
/-! SUPPORT. One law per instruction about its words: the opcode of the table in bits 31:24, and the length that the header
announces (30_encoding.md R47, R50, R52). -/

namespace Sys2Proof.Laws.OpcodeField

/-- The opcode column of R50. -/
def opcode : Instr → Byte
  | .cmd8 _ => 0x01
  | .cmd4 _ => 0x02
  | .data4 _ => 0x03
  | .wait _ => 0x04
  | .setbl _ => 0x05
  | .init _ _ => 0x10
  | .clear => 0x11
  | .home => 0x12
  | .setcur _ _ => 0x13
  | .wchar _ _ _ => 0x14
  | .wstr _ _ _ => 0x15
  | .setmode _ _ _ => 0x16

/-- A well-formed instruction carries its row's opcode, and is as many words long as its header announces. -/
def Statement (i : Instr) : Prop :=
  i.wellFormed = true → opOf (header i) = opcode i ∧ (encode i).length = 1 + payloadWords (header i)

/-- An instruction with no payload: one word. -/
theorem one_word {i : Instr} {op a b c : Byte} (hh : header i = mkHeader op a b c) (hp : payloadBytes i = [])
    (ho : op = opcode i) (hne : op ≠ opWstr) : Statement i := by
  intro _
  rw [encode, hh, hp, opOf_mkHeader, payloadWords, opOf_mkHeader, if_neg hne]
  exact ⟨ho, rfl⟩

theorem cmd8 (v : Byte) : Statement (.cmd8 v) := one_word rfl rfl rfl (by decide)
theorem cmd4 (v : Byte) : Statement (.cmd4 v) := one_word rfl rfl rfl (by decide)
theorem data4 (v : Byte) : Statement (.data4 v) := one_word rfl rfl rfl (by decide)
theorem wait (ms : BitVec 16) : Statement (.wait ms) := one_word rfl rfl rfl (by decide)
theorem setbl (on : Byte) : Statement (.setbl on) := one_word rfl rfl rfl (by decide)
theorem init (rows cols : Byte) : Statement (.init rows cols) := one_word rfl rfl rfl (by decide)
theorem clear : Statement .clear := one_word rfl rfl rfl (by decide)
theorem home : Statement .home := one_word rfl rfl rfl (by decide)
theorem setcur (row0 col0 : Byte) : Statement (.setcur row0 col0) := one_word rfl rfl rfl (by decide)
theorem wchar (ch row col : Byte) : Statement (.wchar ch row col) := one_word rfl rfl rfl (by decide)
theorem setmode (d b c : Byte) : Statement (.setmode d b c) := one_word rfl rfl rfl (by decide)

/-- WSTR: one word and `ceil(len / 4)` more. -/
theorem wstr (row col : Byte) (text : List Byte) : Statement (.wstr row col text) := by
  intro hw
  have hlen : text.length % 256 = text.length := Nat.mod_eq_of_lt (by simpa [Instr.wellFormed, Nat.lt_succ_iff] using hw)
  refine ⟨opOf_mkHeader _ _ _ _, ?_⟩
  simp only [encode, header, payloadBytes, payloadWords, opOf_mkHeader, aOf_mkHeader, if_true, BitVec.toNat_ofNat,
    List.length_cons, pack_length]
  rw [show text.length % 2 ^ 8 = text.length from hlen]
  omega

end Sys2Proof.Laws.OpcodeField
end

