-- ==== Sys2Proof/Laws/Program.lean ====
section
/-! SUPPORT. Lemmas about bus bytes and micro-sequences. -/

namespace Sys2Proof.Machine

open Sys2Proof.Safety

/-! ## Masks (R54) -/

/-- The data nibble and a control mask share no line. -/
theorem nibble_and_mask {m : Byte} (hm : isControlMask m) (n : Nibble) : (n.zeroExtend 8 <<< 4) &&& m = 0 := by
  rcases hm with rfl | rfl | rfl | rfl <;> revert n <;> decide

/-- A control mask has no line in bits 7:4. -/
theorem mask_high {m : Byte} (hm : isControlMask m) : m.extractLsb' 4 4 = 0 := by
  rcases hm with rfl | rfl | rfl | rfl <;> decide

/-- Two different control masks share no line. -/
theorem mask_and_mask {a b : Byte} (ha : isControlMask a) (hb : isControlMask b) (h : a ≠ b) : a &&& b = 0 := by
  rcases ha with rfl | rfl | rfl | rfl <;> rcases hb with rfl | rfl | rfl | rfl <;> first | decide | exact absurd rfl h

theorem or_and (x y m : Byte) : (x ||| y) &&& m = (x &&& m) ||| (y &&& m) := by
  ext i; simp [Bool.and_or_distrib_right]

variable {p : Params}

/-- The six pairs of distinct lines. -/
theorem Params.Wf.ne (h : p.Wf) : p.enBit ≠ p.rsBit ∧ p.enBit ≠ p.rwBit ∧ p.enBit ≠ p.blBit ∧ p.rsBit ≠ p.rwBit ∧
    p.rsBit ≠ p.blBit ∧ p.rwBit ≠ p.blBit := by
  have := h.distinct
  simp only [List.nodup_cons, List.mem_cons, List.not_mem_nil, or_false, not_or] at this
  tauto

/-! ## The enable-low byte of a nibble transfer (R57) -/

@[simp] theorem busByte_eq (p : Params) (bl : Bool) (n : Nibble) (rs : Bool) : busByte p bl n rs = lineByte p bl n rs := rfl

/-- What a control mask sees of the byte: only the backlight and register-select parts. -/
theorem lineByte_and {m : Byte} (hm : isControlMask m) (bl : Bool) (n : Nibble) (rs : Bool) :
    lineByte p bl n rs &&& m = ((if bl then p.blBit else 0) &&& m) ||| ((if rs then p.rsBit else 0) &&& m) := by
  simp only [lineByte, or_and, nibble_and_mask hm]; simp

theorem lineByte_and_en (h : p.Wf) (bl : Bool) (n : Nibble) (rs : Bool) : lineByte p bl n rs &&& p.enBit = 0 := by
  have hn := Params.Wf.ne h
  rw [lineByte_and h.en]
  cases bl <;> cases rs <;>
    simp [mask_and_mask h.bl h.en hn.2.2.1.symm, mask_and_mask h.rs h.en hn.1.symm]

theorem lineByte_and_rw (h : p.Wf) (bl : Bool) (n : Nibble) (rs : Bool) : lineByte p bl n rs &&& p.rwBit = 0 := by
  have hn := Params.Wf.ne h
  rw [lineByte_and h.rw]
  cases bl <;> cases rs <;>
    simp [mask_and_mask h.bl h.rw hn.2.2.2.2.2.symm, mask_and_mask h.rs h.rw hn.2.2.2.1]

theorem lineByte_and_bl (h : p.Wf) (bl : Bool) (n : Nibble) (rs : Bool) :
    lineByte p bl n rs &&& p.blBit = if bl then p.blBit else 0 := by
  have hn := Params.Wf.ne h
  rw [lineByte_and h.bl]
  cases bl <;> cases rs <;> simp [mask_and_mask h.rs h.bl hn.2.2.2.2.1]

theorem lineByte_and_rs (h : p.Wf) (bl : Bool) (n : Nibble) (rs : Bool) :
    lineByte p bl n rs &&& p.rsBit = if rs then p.rsBit else 0 := by
  have hn := Params.Wf.ne h
  rw [lineByte_and h.rs]
  cases bl <;> cases rs <;> simp [mask_and_mask h.bl h.rs hn.2.2.2.2.1.symm]

/-- RS is OR'ed into the byte and nothing else changes. -/
theorem lineByte_true (bl : Bool) (n : Nibble) : lineByte p bl n true = lineByte p bl n false ||| p.rsBit := by
  simp [lineByte]

/-- Bits 7:4 are the nibble. -/
theorem lineByte_high (h : p.Wf) (bl : Bool) (n : Nibble) (rs : Bool) : (lineByte p bl n rs).extractLsb' 4 4 = n := by
  have hz : ((n.zeroExtend 8 <<< 4 : Byte)).extractLsb' 4 4 = n := by revert n; decide
  have hor : ∀ x y : Byte, (x ||| y).extractLsb' 4 4 = x.extractLsb' 4 4 ||| y.extractLsb' 4 4 := by
    intro x y; ext i; simp
  have hr := mask_high h.rs
  have hb := mask_high h.bl
  simp only [lineByte, hor, hz]
  cases bl <;> cases rs <;> simp [hr, hb]

theorem lineByte_en_high (h : p.Wf) (bl : Bool) (n : Nibble) (rs : Bool) :
    (lineByte p bl n rs ||| p.enBit).extractLsb' 4 4 = n := by
  have hor : ∀ x y : Byte, (x ||| y).extractLsb' 4 4 = x.extractLsb' 4 4 ||| y.extractLsb' 4 4 := by
    intro x y; ext i; simp
  rw [hor, lineByte_high h, mask_high h.en]; simp

/-! ## Micro-sequences as bytes -/

@[simp] theorem nibbleXfer_eq (p : Params) (bl : Bool) (n : Nibble) (rs : Bool) :
    nibbleXfer p bl n rs = writes (nibblePair p bl n rs) := rfl

@[simp] theorem writes_append (a b : List Byte) : writes (a ++ b) = writes a ++ writes b := by simp [writes]

theorem xfer8_eq (p : Params) (bl : Bool) (v : Byte) (rs : Bool) : xfer8 p bl v rs = writes (bytes8 p bl v rs) := rfl

@[simp] theorem cmdXfer_eq (p : Params) (bl : Bool) (v : Byte) : cmdXfer p bl v = writes (bytes8 p bl v false) := rfl

@[simp] theorem dataXfer_eq (p : Params) (bl : Bool) (v : Byte) : dataXfer p bl v = writes (bytes8 p bl v true) := rfl

theorem dataProgram_eq (p : Params) (bl : Bool) (text : List Byte) :
    dataProgram p bl text = writes (text.flatMap (fun ch => bytes8 p bl ch true)) := by
  induction text with
  | nil => rfl
  | cons c r ih => simp only [dataProgram, List.flatMap_cons, writes_append] at ih ⊢; rw [ih]; rfl

@[simp] theorem bytes8_length (p : Params) (bl : Bool) (v : Byte) (rs : Bool) : (bytes8 p bl v rs).length = 4 := rfl

/-- The ROM and R6's table agree, so the cursor command is R67's (row0 in the table). -/
theorem ddramCmd_eq {row0 col0 : Nat} (h : row0 ≤ 3) : ddramCmd row0 col0 = cursorByte row0 col0 := by
  have key : ∀ n : Nat, (ddramSet ||| (BitVec.ofNat 7 n).zeroExtend 8) = 0x80 ||| BitVec.ofNat 8 (n % 128) := by
    intro n
    have : (BitVec.ofNat 7 n).zeroExtend 8 = BitVec.ofNat 8 (n % 128) := by
      apply BitVec.eq_of_toNat_eq; simp
    rw [this]; rfl
  have hb : (rowBase (BitVec.ofNat 2 row0)).toNat = ([0x00, 0x40, 0x14, 0x54] : List Nat).getD row0 0 := by
    interval_cases row0 <;> rfl
  simp only [ddramCmd, ddramAddr, cursorByte, hb, key]

/-! ## Counting -/

@[simp] theorem writeCount_append (a b : List MicroOp) : writeCount (a ++ b) = writeCount a + writeCount b := by
  induction a with
  | nil => simp [writeCount]
  | cons o r ih => cases o <;> simp [writeCount, ih]; omega

@[simp] theorem delayTotal_append (a b : List MicroOp) : delayTotal (a ++ b) = delayTotal a + delayTotal b := by
  induction a with
  | nil => simp [delayTotal]
  | cons o r ih => cases o <;> simp [delayTotal, ih]; omega

@[simp] theorem writeCount_writes (bs : List Byte) : writeCount (writes bs) = bs.length := by
  induction bs with
  | nil => rfl
  | cons b r ih => simp only [writes, List.map_cons, writeCount, List.length_cons] at ih ⊢; rw [ih]

@[simp] theorem delayTotal_writes (bs : List Byte) : delayTotal (writes bs) = 0 := by
  induction bs with
  | nil => rfl
  | cons b r ih => simp only [writes, List.map_cons, delayTotal] at ih ⊢; rw [ih]

@[simp] theorem writes_length (bs : List Byte) : (writes bs).length = bs.length := by simp [writes]

/-! ## Framing -/

/-- Paired micro-sequences in a row are paired. -/
theorem paired_append {a b : List MicroOp} (ha : paired p a = true) (hb : paired p b = true) : paired p (a ++ b) = true := by
  induction a using paired.induct with
  | case1 => exact hb
  | case2 ms r ih => simp only [List.cons_append, paired] at ha ⊢; exact ih ha
  | case3 hi lo r ih =>
    simp only [List.cons_append, paired, Bool.and_eq_true] at ha ⊢
    exact ⟨ha.1, ih ha.2⟩
  | case4 b ms r => simp [paired] at ha
  | case5 b => simp [paired] at ha

theorem paired_nibblePair (h : p.Wf) (bl : Bool) (n : Nibble) (rs : Bool) :
    paired p (writes (nibblePair p bl n rs)) = true := by
  simp [writes, nibblePair, paired, lineByte_and_en h]

theorem paired_bytes8 (h : p.Wf) (bl : Bool) (v : Byte) (rs : Bool) : paired p (writes (bytes8 p bl v rs)) = true := by
  rw [bytes8, writes_append]
  exact paired_append (paired_nibblePair h _ _ _) (paired_nibblePair h _ _ _)

theorem paired_delay (ms : Nat) : paired p [.delay ms] = true := rfl

theorem paired_flatMap (h : p.Wf) (bl : Bool) (text : List Byte) :
    paired p (writes (text.flatMap (fun ch => bytes8 p bl ch true))) = true := by
  induction text with
  | nil => rfl
  | cons c r ih => rw [List.flatMap_cons, writes_append]; exact paired_append (paired_bytes8 h _ _ _) ih

/-! ## Lines -/

theorem linesOk_append {bl : Bool} {a b : List MicroOp} (ha : LinesOk p bl a) (hb : LinesOk p bl b) :
    LinesOk p bl (a ++ b) := fun x hx => (List.mem_append.mp hx).elim (ha x) (hb x)

theorem linesOk_nibblePair (h : p.Wf) (bl : Bool) (n : Nibble) (rs : Bool) :
    LinesOk p bl (writes (nibblePair p bl n rs)) := by
  have hn := Params.Wf.ne h
  intro b hb
  simp only [writes, nibblePair, List.map_cons, List.map_nil, List.mem_cons, MicroOp.write.injEq, List.not_mem_nil,
    or_false] at hb
  rcases hb with rfl | rfl
  · simp [or_and, lineByte_and_bl h, lineByte_and_rw h, mask_and_mask h.en h.bl hn.2.2.1, mask_and_mask h.en h.rw hn.2.1]
  · exact ⟨lineByte_and_bl h _ _ _, lineByte_and_rw h _ _ _⟩

theorem linesOk_bytes8 (h : p.Wf) (bl : Bool) (v : Byte) (rs : Bool) : LinesOk p bl (writes (bytes8 p bl v rs)) := by
  rw [bytes8, writes_append]
  exact linesOk_append (linesOk_nibblePair h _ _ _) (linesOk_nibblePair h _ _ _)

theorem linesOk_delay (bl : Bool) (ms : Nat) : LinesOk p bl [.delay ms] := by simp [LinesOk]

theorem linesOk_flatMap (h : p.Wf) (bl : Bool) (text : List Byte) :
    LinesOk p bl (writes (text.flatMap (fun ch => bytes8 p bl ch true))) := by
  induction text with
  | nil => simp [LinesOk, writes]
  | cons c r ih => rw [List.flatMap_cons, writes_append]; exact linesOk_append (linesOk_bytes8 h _ _ _) ih

end Sys2Proof.Machine
end

