-- ==== Sys2Proof/Laws/Step.lean ====
section
/-! SUPPORT. What a step can do, said once: `StepTo` lists the arms of R26 and R94, `step_next_cases` reads them off a step,
and one lemma per arm gives the step. -/

namespace Sys2Proof.Machine

open Sys2Proof.Safety

/-- The block with the word `w` taken as the last of a request: `REQ_WORD` and `PAYLOAD` latched, `Req` emitted. -/
def latched (s : State) (w : Word) (rest : List Word) : State :=
  latchRequest (s.collected.headD w) (s.collected ++ [w]).tail (takeWord rest (samplePins s))

/-- The arms of a step that answers a next state. -/
inductive StepTo (s : State) : State → Prop
  | reset (h : resetAsserted s = true) : StepTo s (resetBlock (samplePins s))
  | faulted (h : resetAsserted s = false) (hf : s.seqState = .faulted) : StepTo s (samplePins s)
  | held (h : resetAsserted s = false) (hf : s.seqState ≠ .faulted) (r : Response) (hr : s.rsp = some r)
      (hn : hostReady s = false) : StepTo s (samplePins s)
  | released (h : resetAsserted s = false) (hf : s.seqState ≠ .faulted) (r : Response) (hr : s.rsp = some r)
      (hn : hostReady s = true) : StepTo s (releaseResponse (samplePins s))
  | noWord (h : resetAsserted s = false) (hi : s.seqState = .idle) (hr : s.rsp = none)
      (hw : hostPresents s = false ∨ s.env.reqIn = []) : StepTo s (samplePins s)
  | collect (h : resetAsserted s = false) (hi : s.seqState = .idle) (hr : s.rsp = none) (hp : hostPresents s = true)
      (w : Word) (rest : List Word) (hw : s.env.reqIn = w :: rest)
      (hl : (s.collected ++ [w]).tail.length < payloadWords (s.collected.headD w)) :
      StepTo s { takeWord rest (samplePins s) with collected := s.collected ++ [w] }
  | illegal (h : resetAsserted s = false) (hi : s.seqState = .idle) (hr : s.rsp = none) (hp : hostPresents s = true)
      (w : Word) (rest : List Word) (hw : s.env.reqIn = w :: rest)
      (hl : ¬ (s.collected ++ [w]).tail.length < payloadWords (s.collected.headD w))
      (e : DecodeError) (hd : decode (latched s w rest).reqWord (latched s w rest).payload.toList = .error e) :
      StepTo s (raiseFault .illegalRequest (latched s w rest))
  | accept (h : resetAsserted s = false) (hi : s.seqState = .idle) (hr : s.rsp = none) (hp : hostPresents s = true)
      (w : Word) (rest : List Word) (hw : s.env.reqIn = w :: rest)
      (hl : ¬ (s.collected ++ [w]).tail.length < payloadWords (s.collected.headD w))
      (i : Instr) (hd : decode (latched s w rest).reqWord (latched s w rest).payload.toList = .ok i)
      (u : State) (hu : exec i (latched s w rest) = .next u) : StepTo s u
  | write (h : resetAsserted s = false) (hb : s.seqState = .busy) (hr : s.rsp = none) (b : Byte)
      (ho : s.seqProg[s.seqStep]? = some (.write b)) : StepTo s (busWriteStep (pinsNow s) b (samplePins s))
  | delay (h : resetAsserted s = false) (hb : s.seqState = .busy) (hr : s.rsp = none) (ms : Nat)
      (ho : s.seqProg[s.seqStep]? = some (.delay ms)) : StepTo s (delayStep ms (samplePins s))
  | complete (h : resetAsserted s = false) (hb : s.seqState = .busy) (hr : s.rsp = none)
      (hl : s.seqStep = s.seqProg.length) : StepTo s (completeRequest (samplePins s))

variable {s s' : State}

/-! ## The arms -/

theorem step_reset (h : resetAsserted s = true) : step s = .next (resetBlock (samplePins s)) := by
  simp only [step, sequencerStep, if_pos h]

theorem step_faulted (h : resetAsserted s = false) (hf : s.seqState = .faulted) : step s = .next (samplePins s) := by
  simp [step, sequencerStep, h, hf]

theorem step_held {r : Response} (h : resetAsserted s = false) (hf : s.seqState ≠ .faulted) (hr : s.rsp = some r) :
    step s = .next (if hostReady s then releaseResponse (samplePins s) else samplePins s) := by
  cases hq : s.seqState with
  | faulted => exact absurd hq hf
  | idle => simp [step, sequencerStep, h, hq, hr]
  | busy => simp [step, sequencerStep, h, hq, hr]

theorem step_idle (h : resetAsserted s = false) (hi : s.seqState = .idle) (hr : s.rsp = none) :
    step s = idleStep (pinsNow s) (samplePins s) := by
  simp [step, sequencerStep, h, hi, hr]

theorem step_noWord (h : resetAsserted s = false) (hi : s.seqState = .idle) (hr : s.rsp = none)
    (hw : hostPresents s = false ∨ s.env.reqIn = []) : step s = .next (samplePins s) := by
  rw [step_idle h hi hr]
  rcases hw with hw | hw
  · rw [hostPresents] at hw; simp [idleStep, hw]
  · simp [idleStep, hw]

theorem step_word {w : Word} {rest : List Word} (h : resetAsserted s = false) (hi : s.seqState = .idle)
    (hr : s.rsp = none) (hp : hostPresents s = true) (hw : s.env.reqIn = w :: rest) :
    step s =
      if (s.collected ++ [w]).tail.length < payloadWords (s.collected.headD w)
      then .next { takeWord rest (samplePins s) with collected := s.collected ++ [w] }
      else decideRequest (latched s w rest) := by
  rw [hostPresents] at hp
  rw [step_idle h hi hr]; simp [idleStep, hp, hw, receiveWord, latched]

theorem step_write {b : Byte} (h : resetAsserted s = false) (hb : s.seqState = .busy) (hr : s.rsp = none)
    (ho : s.seqProg[s.seqStep]? = some (.write b)) : step s = .next (busWriteStep (pinsNow s) b (samplePins s)) := by
  simp [step, sequencerStep, h, hb, hr, busyStep, ho]

theorem step_delay {ms : Nat} (h : resetAsserted s = false) (hb : s.seqState = .busy) (hr : s.rsp = none)
    (ho : s.seqProg[s.seqStep]? = some (.delay ms)) : step s = .next (delayStep ms (samplePins s)) := by
  simp [step, sequencerStep, h, hb, hr, busyStep, ho]

theorem step_complete (h : resetAsserted s = false) (hb : s.seqState = .busy) (hr : s.rsp = none)
    (hl : s.seqStep = s.seqProg.length) : step s = .next (completeRequest (samplePins s)) := by
  simp [step, sequencerStep, h, hb, hr, busyStep, hl]

/-! ## The inversion -/

/-- A step that answers a next state took one of the arms. -/
theorem step_next_cases (h : step s = .next s') : StepTo s s' := by
  by_cases hr : resetAsserted s = true
  · rw [step_reset hr] at h; cases h; exact .reset hr
  have hr : resetAsserted s = false := by simpa using hr
  by_cases hf : s.seqState = .faulted
  · rw [step_faulted hr hf] at h; cases h; exact .faulted hr hf
  cases hp : s.rsp with
  | some r =>
    rw [step_held hr hf hp] at h
    by_cases hn : hostReady s = true
    · rw [if_pos hn] at h; cases h; exact .released hr hf r hp hn
    · rw [if_neg hn] at h; cases h; exact .held hr hf r hp (by simpa using hn)
  | none =>
    cases hq : s.seqState with
    | faulted => exact absurd hq hf
    | idle =>
      by_cases hpr : hostPresents s = true
      case neg =>
        have hpr : hostPresents s = false := by simpa using hpr
        rw [step_noWord hr hq hp (.inl hpr)] at h; cases h; exact .noWord hr hq hp (.inl hpr)
      cases hw : s.env.reqIn with
      | nil => rw [step_noWord hr hq hp (.inr hw)] at h; cases h; exact .noWord hr hq hp (.inr hw)
      | cons w rest =>
        rw [step_word hr hq hp hpr hw] at h
        by_cases hl : (s.collected ++ [w]).tail.length < payloadWords (s.collected.headD w)
        · rw [if_pos hl] at h; cases h; exact .collect hr hq hp hpr w rest hw hl
        · rw [if_neg hl, decideRequest] at h
          split at h
          next i hd => exact .accept hr hq hp hpr w rest hw hl i hd s' h
          next e hd => cases h; exact .illegal hr hq hp hpr w rest hw hl e hd
    | busy =>
      cases ho : s.seqProg[s.seqStep]? with
      | none =>
        by_cases hl : s.seqStep = s.seqProg.length
        · rw [step_complete hr hq hp hl] at h; cases h; exact .complete hr hq hp hl
        · simp [step, sequencerStep, hr, hq, hp, busyStep, ho, hl] at h
      | some o =>
        cases o with
        | write b => rw [step_write hr hq hp ho] at h; cases h; exact .write hr hq hp b ho
        | delay ms => rw [step_delay hr hq hp ho] at h; cases h; exact .delay hr hq hp ms ho

/-! ## The request registers -/

/-- What the block decodes from `REQ_WORD` and `PAYLOAD` is what the words it took decode to. -/
theorem decode_latchRequest {hdr : Word} {ps : List Word} (hl : ps.length = payloadWords hdr) :
    decode hdr (latchRequest hdr ps s).payload.toList = decodeWords (hdr :: ps) := by
  rw [decodeWords_cons hl]
  apply decode_congr
  intro ho
  have h4 := le_four_mul_payloadWords ho
  have h8 := (aOf hdr).isLt
  have hlen : ((unpack ps).take (aOf hdr).toNat).length = (aOf hdr).toNat := by
    rw [List.length_take, unpack_length]; omega
  have ht := loadPayload_take (old := s.payload) (text := (unpack ps).take (aOf hdr).toNat) (by omega)
  rw [hlen] at ht
  simpa using ht

/-! ## Runs -/

@[simp] theorem run_zero (s : State) : runFor 0 s = .next s := rfl

/-- The first step of a run. -/
theorem run_succ_eq (k : Nat) (s : State) :
    runFor (k + 1) s =
      match step s with
      | .next u => runFor k u
      | .fault r => .fault r
      | .refused r => .refused r := by
  simp only [runFor, Host.Core.run, show Sys2Proof.core.step s = step s from rfl]
  cases step s <;> rfl

/-- The first step of a run that does not stop there. -/
theorem run_succ {k : Nat} (h : step s = .next s') : runFor (k + 1) s = runFor k s' := by
  rw [run_succ_eq, h]

/-- Two runs in a row. -/
theorem run_add {j k : Nat} (h : runFor j s = .next s') : runFor (j + k) s = runFor k s' := by
  induction j generalizing s with
  | zero => rw [run_zero] at h; cases h; rw [Nat.zero_add]
  | succ j ih =>
    rw [show j + 1 + k = (j + k) + 1 by omega]
    cases ht : step s with
    | next t => rw [run_succ ht] at h ⊢; exact ih h
    | fault r => rw [run_succ_eq, ht] at h; cases h
    | refused r => rw [run_succ_eq, ht] at h; cases h

/-- One more step after a run. -/
theorem run_then_step {k : Nat} {t : State} (h : runFor k s = .next s') (ht : step s' = .next t) :
    runFor (k + 1) s = .next t := by
  rw [run_add h, run_succ ht, run_zero]

/-! ## Input pins -/

/-- With no pin level left, every input is 1. -/
theorem pinsNow_nil (h : s.env.pins = []) : pinsNow s = Pins.allHigh := by rw [pinsNow, h]; rfl

theorem pinsNow_cons {p : Pins} {ps : List Pins} (h : s.env.pins = p :: ps) : pinsNow s = p := by rw [pinsNow, h]; rfl

/-- The levels of this step are the list's first or all 1. -/
theorem pinsNow_cases (s : State) : pinsNow s ∈ s.env.pins ∨ pinsNow s = Pins.allHigh := by
  cases h : s.env.pins with
  | nil => exact .inr (pinsNow_nil h)
  | cons p ps => exact .inl (by rw [pinsNow_cons h]; simp)

/-- With `rst_n` high at every step to come it is high at this one. -/
theorem resetAsserted_of_noReset (h : Safety.NoReset s) : resetAsserted s = false := by
  rcases pinsNow_cases s with hp | hp
  · simp [resetAsserted, h _ hp]
  · rw [resetAsserted, hp]; rfl

/-- With no agent waiting at any step to come, none waits at this one. -/
theorem ready_of_prompt (h : Safety.Prompt s) :
    hostPresents s = true ∧ (pinsNow s).bwReady = true ∧ (pinsNow s).brValid = true := by
  rcases pinsNow_cases s with hp | hp
  · exact h _ hp
  · rw [hostPresents, hp]; exact ⟨rfl, rfl, rfl⟩

/-- ... and at the steps after it, whatever else changed. -/
theorem noReset_of_pins {u : State} (h : Safety.NoReset s) {n : Nat} (hp : u.env.pins = s.env.pins.drop n) :
    Safety.NoReset u := fun p hm => h p (List.mem_of_mem_drop (hp ▸ hm))

theorem prompt_of_pins {u : State} (h : Safety.Prompt s) {n : Nat} (hp : u.env.pins = s.env.pins.drop n) :
    Safety.Prompt u := fun p hm => h p (List.mem_of_mem_drop (hp ▸ hm))

/-! ## Waiting -/

/-- While a step does nothing but sample the pins as long as a level `f` is low, the block gets to a step at which it is
high, with everything else as it was: the levels end, and after the last all are 1. -/
theorem run_until (f : Pins → Bool) (hf : f Pins.allHigh = true) (l : List Pins) :
    ∀ s : State, s.env.pins = l →
    (∀ u : State, u = { s with env := { s.env with pins := u.env.pins } } → u.env.pins <:+ l → f (pinsNow u) = false →
      step u = .next (samplePins u)) →
    ∃ k, runFor k s = .next { s with env := { s.env with pins := l.drop k } } ∧
      f (pinsNow { s with env := { s.env with pins := l.drop k } }) = true ∧ (f (pinsNow s) = true → k = 0) := by
  induction l with
  | nil => intro s hl _; exact ⟨0, by rw [run_zero, ← hl]; rfl, hf, fun _ => rfl⟩
  | cons p ps ih =>
    intro s hl hw
    by_cases hp : f p = true
    · exact ⟨0, by rw [run_zero, ← hl]; rfl, hp, fun _ => rfl⟩
    · have hp' : f (pinsNow s) = false := by rw [pinsNow_cons hl]; simpa using hp
      have hs := hw s rfl (hl ▸ List.suffix_refl _) hp'
      obtain ⟨k, h1, h2, _⟩ := ih (samplePins s) (by simp [hl])
        (fun u hu hsu => hw u (by rw [hu]; rfl) (hsu.trans (List.suffix_cons p ps)))
      exact ⟨k + 1, (run_succ hs).trans h1, h2, fun h => by rw [h] at hp'; cases hp'⟩

end Sys2Proof.Machine
end

