-- ==== Sys2Proof/Laws/Request.lean ====
section
/-! SUPPORT. How the words of a request are taken, from the port to the decoder, whenever the host presents them. -/

namespace Sys2Proof.Machine

open Sys2Proof.Safety

variable {s : State}

/-- In IDLE the block waits, with everything as it was, until the host presents. -/
theorem run_to_word (hi : s.seqState = .idle) (hn : s.rsp = none) (hnr : NoReset s) :
    ∃ k, runFor k s = .next { s with env := { s.env with pins := s.env.pins.drop k } } ∧
      hostPresents { s with env := { s.env with pins := s.env.pins.drop k } } = true ∧ (hostPresents s = true → k = 0) :=
  run_until Pins.reqValid rfl s.env.pins s rfl fun _ hu hsu hf =>
    step_noWord (resetAsserted_of_noReset fun p hp => hnr p (hsu.mem hp)) (by rw [hu]; exact hi) (by rw [hu]; exact hn) (.inl hf)

/-- The last word of a request: the block latches the request and decides it. -/
theorem step_last {w hdr : Word} {ps rest : List Word} (h : resetAsserted s = false) (hi : s.seqState = .idle)
    (hn : s.rsp = none) (hpr : hostPresents s = true) (hw : s.env.reqIn = w :: rest)
    (hap : s.collected ++ [w] = hdr :: ps) (hhd : s.collected.headD w = hdr) (hl : ps.length = payloadWords hdr) :
    step s = decideRequest (latchRequest hdr ps (takeWord rest (samplePins s))) := by
  rw [step_word h hi hn hpr hw, hap, hhd, if_neg (by simp [hl])]
  simp only [latched, hap, hhd, List.tail_cons]

/-- The words before the last are collected, one a step from when the host presents each, and nothing else changes. -/
theorem run_collect (ws : List Word) : ∀ (s : State) (rest : List Word) (hdr : Word), s.seqState = .idle →
    s.rsp = none → NoReset s → s.env.reqIn = ws ++ rest → (∀ w, (s.collected ++ ws).headD w = hdr) ∨ ws = [] →
    s.collected.length + ws.length ≤ payloadWords hdr →
    ∃ k, (Prompt s → k = ws.length) ∧ (ws = [] → k = 0) ∧
      runFor k s = .next { s with
        collected := s.collected ++ ws, env := { s.env with reqIn := rest, pins := s.env.pins.drop k } } := by
  induction ws with
  | nil =>
    intro s rest hdr hi hn hnr hp _ _
    have : rest = s.env.reqIn := by simpa using hp.symm
    exact ⟨0, fun _ => rfl, fun _ => rfl, by simp [this]⟩
  | cons w ws ih =>
    intro s rest hdr hi hn hnr hp hh hl
    have hh : ∀ w', (s.collected ++ w :: ws).headD w' = hdr := by simpa using hh
    have hh0 : s.collected.headD w = hdr := by
      have := hh w; cases hc : s.collected <;> simpa [hc] using this
    obtain ⟨j, h1, h2, h3⟩ := run_to_word hi hn hnr
    have hnr' := noReset_of_pins (u := { s with env := { s.env with pins := s.env.pins.drop j } }) hnr rfl
    have hs := step_word (resetAsserted_of_noReset hnr') hi hn h2 (w := w) (rest := ws ++ rest) (by simpa using hp)
    rw [if_pos (by simp only [hh0]; simp at hl ⊢; omega)] at hs
    obtain ⟨k, k1, _, k3⟩ := ih { s with
      collected := s.collected ++ [w], env := { s.env with reqIn := ws ++ rest, pins := s.env.pins.drop (j + 1) } } rest hdr
      hi hn (noReset_of_pins (n := j + 1) hnr rfl) rfl (.inl fun w' => by simpa using hh w') (by simp at hl ⊢; omega)
    refine ⟨j + (k + 1), fun hpm => ?_, fun h => by simp at h, ?_⟩
    · rw [h3 (ready_of_prompt hpm).1, k1 (prompt_of_pins (n := j + 1) hpm rfl)]; simp
    · simp only [takeWord, samplePins, List.tail_drop] at hs
      rw [run_add h1, run_succ hs, k3]
      simp [Nat.add_comm, Nat.add_left_comm]

/-- The block with a whole request taken and latched, `n` steps on. -/
def takenRequest (s : State) (hdr : Word) (ps rest : List Word) (n : Nat) : State :=
  latchRequest hdr ps { s with env := { s.env with reqIn := rest, pins := s.env.pins.drop n } }

/-- A request that is offered is taken word by word; the step that takes its last word decides it. `k` steps come before
that one: one for each earlier word and those in which the host presents none. -/
theorem request_taken {hdr : Word} {ps rest : List Word} (ho : Offered s (hdr :: ps) rest)
    (hl : ps.length = payloadWords hdr) :
    ∃ k v, (Prompt s → k = ps.length) ∧ (ps = [] → hostPresents s = true → k = 0) ∧ runFor k s = .next v ∧
      v = { s with
        collected := (hdr :: ps).take ps.length
        env := { s.env with reqIn := (hdr :: ps).drop ps.length ++ rest, pins := s.env.pins.drop k } } ∧
      hostPresents v = true ∧ step v = decideRequest (takenRequest s hdr ps rest (k + 1)) := by
  have hc := ho.idle.noWord
  obtain ⟨j, j1, j2, h⟩ := run_collect ((hdr :: ps).take ps.length) s ((hdr :: ps).drop ps.length ++ rest) hdr ho.idle.idle
    ho.idle.noRsp ho.noReset (by rw [← List.append_assoc, List.take_append_drop]; exact ho.port)
    (by
      rw [hc]
      cases ps with
      | nil => right; rfl
      | cons => left; intro w; rfl)
    (by simp [hc, hl])
  rw [hc, List.nil_append] at h
  obtain ⟨m, m1, m2, m3⟩ := run_to_word (s := { s with
    collected := (hdr :: ps).take ps.length
    env := { s.env with reqIn := (hdr :: ps).drop ps.length ++ rest, pins := s.env.pins.drop j } }) ho.idle.idle ho.idle.noRsp
    (noReset_of_pins ho.noReset rfl)
  simp only [List.drop_drop] at m1 m2
  refine ⟨j + m, _, fun hp => ?_, ?_, (run_add h).trans m1, rfl, m2, ?_⟩
  · rw [j1 hp, m3 (ready_of_prompt (prompt_of_pins hp rfl)).1]; simp
  · rintro rfl hp
    obtain rfl : j = 0 := j2 rfl
    exact (congrArg _ (m3 hp)).trans rfl
  obtain ⟨w, hw⟩ : ∃ w, (hdr :: ps).drop ps.length = [w] := List.length_eq_one_iff.mp (by simp)
  have hap : (hdr :: ps).take ps.length ++ [w] = hdr :: ps := by rw [← hw, List.take_append_drop]
  have hhd : ((hdr :: ps).take ps.length).headD w = hdr := by
    cases ps with
    | nil => simpa using hw.symm
    | cons => rfl
  refine (step_last (s := { s with
    collected := (hdr :: ps).take ps.length
    env := { s.env with reqIn := (hdr :: ps).drop ps.length ++ rest, pins := s.env.pins.drop (j + m) } })
    (resetAsserted_of_noReset (noReset_of_pins ho.noReset rfl)) ho.idle.idle ho.idle.noRsp m2 (w := w) (rest := rest)
    (by simp [hw]) hap hhd hl).trans ?_
  simp [takenRequest, latchRequest, emit, takeWord, samplePins, List.tail_drop]

/-- Deciding a latched request is `exec` of the instruction its words decode to. -/
theorem decideRequest_taken {hdr : Word} {ps rest : List Word} {n : Nat} {i : Instr} (hl : ps.length = payloadWords hdr)
    (hd : decodeWords (hdr :: ps) = .ok i) :
    decideRequest (takenRequest s hdr ps rest n) = exec i (takenRequest s hdr ps rest n) := by
  have h : decode (takenRequest s hdr ps rest n).reqWord (takenRequest s hdr ps rest n).payload.toList = .ok i :=
    (decode_latchRequest hl).trans hd
  unfold decideRequest
  rw [h]

end Sys2Proof.Machine
end

