-- ==== Sys2Proof/Tests/Slice0.lean ====
section
/-! SUPPORT. Tests with expected results from spec/95_test_vectors.md (named beside each) and the spec's encodings, and for
every obligation with hypotheses a witness: concrete states and operands that meet them, at the ends of their ranges. -/

namespace Sys2Proof.Tests

open Sys2Proof.Machine Sys2Proof.Safety

/-! ## Small states -/

/-- Initialised for 4 rows of 20 columns and idle; the host offers `ws`, the transport will answer `as`. -/
def ready (ws : List Word) (as : List Answer) : State :=
  { State.reset with
    cfgRows := 4, cfgCols := 20, initDone := true, env := { reqIn := ws, answers := as, pins := [] } }

/-- After reset, not initialised; the host offers `ws`, the transport will answer `as`. -/
def fresh (ws : List Word) (as : List Answer) : State :=
  { State.reset with env := { reqIn := ws, answers := as, pins := [] } }

/-- Running step `k` of `prog` for the request `w`; the transport will answer `as`. -/
def running (w : Word) (prog : List MicroOp) (k : Nat) (as : List Answer) : State :=
  { ready [] as with seqState := .busy, reqWord := w, seqProg := prog, seqStep := k, trace := [.req w] }

/-- In the fault state after an illegal request. -/
def stopped : State := { fresh [0x11000000] [] with fault := true, faultCause := 0x01, seqState := .faulted }

/-- Holding the OK response of a `WAIT 0`, with `pins` to come. -/
def holding (pins : List Pins) : State :=
  { running 0x04000000 [] 0 [] with
    rsp := some { status := 0x00, terr := none }
    env := { reqIn := [0x11000000], answers := [], pins := pins } }

/-- `n` answers `Ok`. -/
def oks (n : Nat) : List Answer := List.replicate n .ok

/-- One input low at a step: `rst_n`, `req_valid`, `rsp_ready`, `bw_ready`, `br_valid`. -/
def low : Pins := { Pins.allHigh with rstN := false }
def notPresenting : Pins := { Pins.allHigh with reqValid := false }
def notReady : Pins := { Pins.allHigh with rspReady := false }
def notTaking : Pins := { Pins.allHigh with bwReady := false }
def notAnswering : Pins := { Pins.allHigh with brValid := false }

/-- `s` with the pin levels `ps` to come. -/
def withPins (ps : List Pins) (s : State) : State := { s with env := { s.env with pins := ps } }

/-- The micro-sequence a request loads. -/
def loaded (i : Instr) (s : State) : Option (List MicroOp) :=
  match exec i s with
  | .next u => if u.seqState = .busy then some u.seqProg else none
  | _ => none

/-- What a request emits at acceptance: its fault, or the response of a failed check. -/
def emitted (i : Instr) (s : State) : Option (List Event) :=
  match exec i s with
  | .next u => some u.trace
  | _ => none

def blOff : State := { ready [] [] with bl := false }

/-! ## Well-formedness -/

/-- R53: 256 characters are too many, 255 are not. -/
theorem test_wstr_256_ill_formed : (Instr.wstr 1 1 (List.replicate 256 0x41)).wellFormed = false := by decide +kernel
theorem test_wstr_255_well_formed : (Instr.wstr 1 1 (List.replicate 255 0x41)).wellFormed = true := by decide +kernel

/-! ## Decoding: words from 2.1 of the vectors, and one word of each other row -/

theorem test_decode_engine :
    decodeWords [0x01000003] = .ok (.cmd8 0x03) ∧ decodeWords [0x010000F3] = .ok (.cmd8 0xF3) ∧
    decodeWords [0x020000A5] = .ok (.cmd4 0xA5) ∧ decodeWords [0x0300005A] = .ok (.data4 0x5A) ∧
    decodeWords [0x04000064] = .ok (.wait 100) ∧ decodeWords [0x0400FFFF] = .ok (.wait 65535) ∧
    decodeWords [0x04000100] = .ok (.wait 256) ∧ decodeWords [0x05000080] = .ok (.setbl 0x80) := by decide

theorem test_decode_display :
    decodeWords [0x10000414] = .ok (.init 4 20) ∧ decodeWords [0x11000000] = .ok .clear ∧
    decodeWords [0x12000000] = .ok .home ∧ decodeWords [0x1300032C] = .ok (.setcur 3 44) ∧
    decodeWords [0x14410201] = .ok (.wchar 0x41 2 1) ∧ decodeWords [0x16010001] = .ok (.setmode 1 0 1) := by decide

/-- V-DEC-7. -/
theorem test_decode_hello : decodeWords [0x150C0105, 0x48656C6C, 0x6F20576F, 0x726C6421] =
    .ok (.wstr 1 5 [0x48, 0x65, 0x6C, 0x6C, 0x6F, 0x20, 0x57, 0x6F, 0x72, 0x6C, 0x64, 0x21]) := by decide

/-- V-DEC-8 with two paddings, V-DEC-9. -/
theorem test_decode_padding :
    decodeWords [0x15070113, 0x746F6F6C, 0x6F6E6700] = .ok (.wstr 1 19 [0x74, 0x6F, 0x6F, 0x6C, 0x6F, 0x6E, 0x67]) ∧
    decodeWords [0x15070113, 0x746F6F6C, 0x6F6E67FF] = .ok (.wstr 1 19 [0x74, 0x6F, 0x6F, 0x6C, 0x6F, 0x6E, 0x67]) ∧
    decodeWords [0x15000101] = .ok (.wstr 1 1 []) := by decide

/-- V-DEC-11 and V-DEC-12: each opcode outside R50's map that stands beside one inside it. -/
theorem test_decode_illegal_op :
    ([0x00000000, 0x06000000, 0x0F000000, 0x17000000, 0xFF000000] : List Word).map (fun w => decodeWords [w]) =
      List.replicate 5 (.error .illegalOp) := by decide

/-- V-DEC-13 to V-DEC-15, and a nonzero `0` field of each other format. -/
theorem test_decode_reserved :
    ([0x01010003, 0x01000103, 0x02010000, 0x03000100, 0x04010064] : List Word).map (fun w => decodeWords [w]) =
      List.replicate 5 (.error .reservedNonzero) ∧
    ([0x05010000, 0x10010101, 0x11000001, 0x11000100, 0x12010000, 0x13010000] : List Word).map
      (fun w => decodeWords [w]) = List.replicate 6 (.error .reservedNonzero) := by decide

/-- The table's numbering: bit 0 is the least significant bit of the first word. -/
theorem test_tableWord :
    decodeTableWord 32 0x14410201 = some (.wchar 0x41 2 1) ∧ decodeTableWord 32 0x15020105 = some (.wstr 1 5 [0, 0]) ∧
    decodeTableWord 64 0x4869000015020105 = some (.wstr 1 5 [0x48, 0x69]) ∧ decodeTableWord 32 0x17000000 = none := by
  decide +kernel

/-! ## Assembly: lines of the programs P1, P2 and P5, with their words -/

theorem test_assemble :
    (assemble "INIT" [.number 4, .number 20]).map encode = .ok [0x10000414] ∧
    (assemble "WSTR" [.number 1, .number 5, .text [0x48, 0x69]]).map encode = .ok [0x15020105, 0x48690000] ∧
    (assemble "SETMODE" [.number 1, .number 0, .number 1]).map encode = .ok [0x16010001] ∧
    (assemble "WCHAR" [.char 0x41, .number 3, .number 1]).map encode = .ok [0x14410301] ∧
    (assemble "WAIT" [.number 100]).map encode = .ok [0x04000064] ∧
    assemble "CMD8" [.number 256] = .error .outOfRange ∧ assemble "NOP" [] = .error .noSuchForm := by decide

theorem test_numbers :
    parseNumber ['2', '5', '5'] = some 255 ∧ parseNumber ['0', 'x', 'F', '3'] = some 0xF3 ∧ parseNumber ['0'] = some 0 ∧
    parseNumber ['0', 'x'] = none ∧ parseNumber ['1', 'F'] = none := by decide

/-! ## The micro-sequence of each request (2.2 and 2.3 of the vectors) -/

/-- V-ENG-2, V-ENG-4. -/
theorem test_cmd8 : loaded (.cmd8 0xF3) (ready [] []) = some (writes [0x3C, 0x38]) := by decide
theorem test_cmd8_dark : loaded (.cmd8 0x03) blOff = some (writes [0x34, 0x30]) := by decide

/-- V-ENG-5, V-ENG-7. -/
theorem test_cmd4 : loaded (.cmd4 0x28) (ready [] []) = some (writes [0x2C, 0x28, 0x8C, 0x88]) := by decide
theorem test_cmd4_dark : loaded (.cmd4 0x28) blOff = some (writes [0x24, 0x20, 0x84, 0x80]) := by decide

/-- V-ENG-9, V-ENG-11. -/
theorem test_data4 : loaded (.data4 0xFF) (ready [] []) = some (writes [0xFD, 0xF9, 0xFD, 0xF9]) := by decide
theorem test_data4_dark : loaded (.data4 0x41) blOff = some (writes [0x45, 0x41, 0x15, 0x11]) := by decide

/-- V-ENG-16, V-ENG-17. -/
theorem test_wait : loaded (.wait 100) (ready [] []) = some [.delay 100] := by decide
theorem test_wait_zero : loaded (.wait 0) (ready [] []) = some [] := by decide

/-- V-ENG-12, V-ENG-14. -/
theorem test_setbl_off : loaded (.setbl 0) (ready [] []) = some (writes [0x00]) := by decide
theorem test_setbl_on : loaded (.setbl 0x80) blOff = some (writes [0x08]) := by decide

/-- V-INIT-2, V-INIT-3. -/
theorem test_init : loaded (.init 1 20) (fresh [] []) = some
    ([.delay 100] ++ writes [0x3C, 0x38] ++ [.delay 100] ++ writes [0x3C, 0x38] ++ [.delay 100] ++ writes [0x3C, 0x38]
      ++ [.delay 100] ++ writes [0x2C, 0x28] ++ [.delay 100] ++ writes [0x2C, 0x28, 0x8C, 0x88, 0x0C, 0x08, 0x8C, 0x88]
      ++ writes [0x0C, 0x08, 0x6C, 0x68, 0x0C, 0x08, 0x1C, 0x18] ++ [.delay 100] ++ writes [0x0C, 0x08, 0xCC, 0xC8]) := by
  decide
theorem test_init_badConfig :
    emitted (.init 5 20) (fresh [] []) = some [.flt 0x03] ∧ emitted (.init 0 20) (fresh [] []) = some [.flt 0x03] ∧
    emitted (.init 2 0) (fresh [] []) = some [.flt 0x03] := by decide

/-- V-CLR-1. -/
theorem test_clear : loaded .clear (ready [] []) = some (writes [0x0C, 0x08, 0x1C, 0x18] ++ [.delay 100]) := by decide

/-- V-HOME-1. -/
theorem test_home : loaded .home (ready [] []) = some (writes [0x0C, 0x08, 0x2C, 0x28] ++ [.delay 50]) := by decide

/-- V-CUR-2 and V-CUR-4 to V-CUR-8. -/
theorem test_setcur :
    loaded (.setcur 1 0) (fresh [] []) = some (writes [0xCC, 0xC8, 0x0C, 0x08]) ∧
    loaded (.setcur 3 0) (fresh [] []) = some (writes [0xDC, 0xD8, 0x4C, 0x48]) ∧
    loaded (.setcur 3 19) (fresh [] []) = some (writes [0xEC, 0xE8, 0x7C, 0x78]) ∧
    loaded (.setcur 0 20) (fresh [] []) = some (writes [0x9C, 0x98, 0x4C, 0x48]) ∧
    loaded (.setcur 3 44) (fresh [] []) = some (writes [0x8C, 0x88, 0x0C, 0x08]) ∧
    loaded (.setcur 3 255) (fresh [] []) = some (writes [0xDC, 0xD8, 0x3C, 0x38]) := by decide

/-- V-CUR-9. -/
theorem test_setcur_out_of_table : emitted (.setcur 4 0) (ready [] []) = some [.flt 0x04] := by decide

/-- V-MODE-2 to V-MODE-5, V-MODE-7. -/
theorem test_setmode :
    loaded (.setmode 1 1 1) (ready [] []) = some (writes [0x0C, 0x08, 0xFC, 0xF8]) ∧
    loaded (.setmode 1 0 1) (ready [] []) = some (writes [0x0C, 0x08, 0xEC, 0xE8]) ∧
    loaded (.setmode 0 1 0) (ready [] []) = some (writes [0x0C, 0x08, 0x9C, 0x98]) ∧
    loaded (.setmode 0 0 1) (ready [] []) = some (writes [0x0C, 0x08, 0xAC, 0xA8]) ∧
    loaded (.setmode 0x80 0 0) (ready [] []) = some (writes [0x0C, 0x08, 0xCC, 0xC8]) := by decide

/-- V-WCH-1, V-WCH-2. -/
theorem test_wchar :
    loaded (.wchar 0x41 2 1) (ready [] []) = some (writes [0xCC, 0xC8, 0x0C, 0x08, 0x4D, 0x49, 0x1D, 0x19]) ∧
    loaded (.wchar 0x41 4 20) (ready [] []) = some (writes [0xEC, 0xE8, 0x7C, 0x78, 0x4D, 0x49, 0x1D, 0x19]) := by decide

/-- V-WCH-3 to V-WCH-9. -/
theorem test_wchar_checks :
    emitted (.wchar 0x41 0 1) (ready [] []) = some [.rsp ⟨0x01, none⟩] ∧
    emitted (.wchar 0x41 5 1) (ready [] []) = some [.rsp ⟨0x02, none⟩] ∧
    emitted (.wchar 0x41 1 0) (ready [] []) = some [.rsp ⟨0x03, none⟩] ∧
    emitted (.wchar 0x41 1 21) (ready [] []) = some [.rsp ⟨0x04, none⟩] ∧
    emitted (.wchar 0x41 0 0) (ready [] []) = some [.rsp ⟨0x01, none⟩] ∧
    emitted (.wchar 0x41 5 21) (ready [] []) = some [.rsp ⟨0x02, none⟩] ∧
    emitted (.wchar 0x41 1 1) (fresh [] []) = some [.flt 0x02] := by decide

/-- V-WSTR-3 (with "toolong"), V-WSTR-4, V-WSTR-5. -/
theorem test_wstr :
    loaded (.wstr 1 19 [0x74, 0x6F, 0x6F, 0x6C, 0x6F, 0x6E, 0x67]) (ready [] []) =
      some (writes [0x9C, 0x98, 0x2C, 0x28, 0x7D, 0x79, 0x4D, 0x49, 0x6D, 0x69, 0xFD, 0xF9]) ∧
    loaded (.wstr 4 20 []) (ready [] []) = some (writes [0xEC, 0xE8, 0x7C, 0x78]) ∧
    loaded (.wstr 3 1 [0x48, 0x69]) (ready [] []) =
      some (writes [0x9C, 0x98, 0x4C, 0x48, 0x4D, 0x49, 0x8D, 0x89, 0x6D, 0x69, 0x9D, 0x99]) := by decide

/-- V-WSTR-7 (its check), V-WSTR-8. -/
theorem test_wstr_checks :
    emitted (.wstr 0 1 [0x78]) (ready [] []) = some [.rsp ⟨0x01, none⟩] ∧
    emitted (.wstr 1 1 [0x48, 0x69]) (fresh [] []) = some [.flt 0x02] := by decide

/-! ## One step -/

/-- A field of the next state. -/
def after {α : Type} (f : State → α) (s : State) : Option α :=
  match step s with
  | .next u => some (f u)
  | _ => none

/-- A request placed from the opcode table's number is run by the very next step, after reset too. -/
theorem test_withFetchWord :
    after State.cfgRows (State.reset.withFetchWord 32 0x10000414) = some 4 ∧
    after State.trace (State.reset.withFetchWord 32 0x10000414) = some [.req 0x10000414] ∧
    after State.trace (State.reset.withFetchWord 32 0x17000000) = some [.req 0x17000000, .flt 0x01] := by decide

/-- V-WSTR-8: a WSTR with its payload taken faults before INIT. -/
theorem test_withFetchWord_wstr :
    after State.trace (State.reset.withFetchWord 64 0x4869000015020101) = some [.req 0x15020101, .flt 0x02] := by decide

/-- The first word of a WSTR is taken with no event. -/
theorem test_collect :
    after (fun u => (u.trace, u.collected, u.env.reqIn)) (ready [0x15020105, 0x48690000] []) =
      some ([], [0x15020105], [0x48690000]) := by decide

/-- V-TE-2: the last write's error is the response's. -/
theorem test_write_err :
    after (fun u => (u.status, u.terrLast, u.seqStep, u.trace))
        (running 0x02000001 (writes [0x0C, 0x08, 0x1C, 0x18]) 3 [.err 7 false]) =
      some (0x05, 7, 4, [.req 0x02000001, .tx 0x27 0x18, .ans (.err 7 false)]) ∧
    after State.rsp { running 0x02000001 (writes [0x0C, 0x08, 0x1C, 0x18]) 4 [] with status := 0x05, terrLast := 7 } =
      some (some { status := 0x05, terr := some 7 }) := by decide

/-- V-TE-5, V-TE-6: INIT completes whatever the status. -/
theorem test_init_completes :
    after State.initDone { running 0x10000210 [] 0 [] with initDone := false, status := 0x05 } = some true ∧
    after State.initDone { running 0x11000000 [] 0 [] with initDone := false } = some false := by decide

/-- R30, R101: a write that the transport does not take yet, one that it takes and does not answer yet, and one that it
answers after that; a word that the host does not present yet. -/
theorem test_handshakes_wait :
    after (fun u => (u.seqStep, u.bwOut, u.trace)) (withPins [notTaking] (running 0x05000000 (writes [0x00]) 0 [.ok])) =
      some (0, false, [.req 0x05000000]) ∧
    after (fun u => (u.seqStep, u.bwOut, u.trace, u.env.answers))
        (withPins [notAnswering] (running 0x05000000 (writes [0x00]) 0 [.ok])) =
      some (0, true, [.req 0x05000000, .tx 0x27 0x00], [.ok]) ∧
    after (fun u => (u.seqStep, u.bwOut, u.trace))
        (withPins [notTaking] { running 0x05000000 (writes [0x00]) 0 [.ok] with bwOut := true }) =
      some (1, false, [.req 0x05000000, .ans .ok]) ∧
    after (fun u => (u.seqState, u.env.reqIn)) (withPins [notPresenting] (ready [0x11000000] [])) =
      some (.idle, [0x11000000]) := by decide

/-- R94, R101: a reset while a write waits for its answer drops the write with no event; the answer to come is for
another. -/
theorem test_reset_while_out :
    after (fun u => (u.seqState, u.bwOut, u.trace, u.env.answers))
        (withPins [low] { running 0x05000000 (writes [0x00]) 0 [.ok] with bwOut := true }) =
      some (.idle, false, [.req 0x05000000], [.ok]) := by decide

/-- The outputs while a write is presented and after it is taken, and in IDLE. -/
theorem test_outputs :
    busRequest (running 0x05000000 (writes [0x00]) 0 []) = some (0x27, 0x00) ∧
    busRequest { running 0x05000000 (writes [0x00]) 0 [] with bwOut := true } = none ∧
    busyOut (running 0x05000000 [] 0 []) = true ∧ reqReady (ready [] []) = true ∧ rspValid (holding []) = true ∧
    faultOut stopped = (true, 0x01) := by decide

/-- V-RST-1, V-RST-2, V-RST-3. -/
theorem test_reset :
    after (fun u => (u.seqState, u.initDone, u.bl, u.trace))
        { running 0x11000000 [.delay 100] 0 [] with delayCnt := 50, env := ⟨[], [], [low]⟩ } =
      some (.idle, false, true, [.req 0x11000000]) ∧
    after (fun u => (u.seqState, u.fault, u.faultCause, reqReady u)) { stopped with env := ⟨[], [], [low]⟩ } =
      some (.idle, false, 0x00, true) ∧
    after (fun u => (u.ghost.expander, u.ghost.inPhase))
        { running 0x02000028 (writes [0x2C, 0x28]) 1 [] with
          ghost := ⟨some 0x2C, .fourBit, true, true, false⟩, env := ⟨[], [], [low]⟩ } =
      some (some 0x2C, false) := by decide

/-- In 4-bit mode and in phase, `mid` inside a transfer. -/
def tuned (mid : Bool) (s : State) : State := { s with ghost := ⟨some 0x18, .fourBit, true, mid, false⟩ }

/-- R29, R99: a transfer is inside from its first write to the one before its last; CLEAR's four writes, CMD8's two, SETBL's
one. -/
theorem test_mid :
    [0, 1, 2, 3].map (fun k => after (fun u => u.ghost.mid)
        (running 0x11000000 (writes [0x0C, 0x08, 0x1C, 0x18] ++ [.delay 100]) k [.ok])) =
      [some true, some true, some true, some false] ∧
    [0, 1].map (fun k => after (fun u => u.ghost.mid) (running 0x01000003 (writes [0x3C, 0x38]) k [.ok])) =
      [some true, some false] ∧
    after (fun u => u.ghost.mid) (running 0x05000000 (writes [0x00]) 0 [.ok]) = some false := by decide

/-- R29, R94: a reset in CLEAR's delay cuts no transfer, and SETBL's write after it keeps the mode; one in a transfer does. -/
theorem test_reset_phase :
    after (fun u => (u.ghost.ctrlMode, u.ghost.inPhase))
        (withPins [low] { tuned false (running 0x11000000 [.delay 100] 0 []) with delayCnt := 50 }) =
      some (.fourBit, true) ∧
    after (fun u => (u.ghost.ctrlMode, u.ghost.inPhase)) (tuned false (running 0x05000000 (writes [0x00]) 0 [.ok])) =
      some (.fourBit, true) ∧
    after (fun u => (u.ghost.ctrlMode, u.ghost.inPhase))
        (withPins [low] (tuned true (running 0x02000028 (writes [0x2C, 0x28, 0x8C, 0x88]) 2 []))) =
      some (.fourBit, false) := by decide

/-! ## Witnesses: the states above meet the hypotheses -/

theorem params_wf : defaultParams.Wf :=
  ⟨by decide, by decide, by decide, by decide, by decide, by decide, by decide⟩

theorem noReset_nil {s : State} (h : s.env.pins = []) : NoReset s := fun p hp => by rw [h] at hp; cases hp

theorem prompt_nil {s : State} (h : s.env.pins = []) : Prompt s := fun p hp => by rw [h] at hp; cases hp

theorem offered_ready (ws : List Word) (as : List Answer) : Offered (ready ws as) ws [] :=
  ⟨⟨rfl, rfl, rfl, rfl, rfl, rfl⟩, noReset_nil rfl, by simp [ready]⟩

theorem offered_fresh (ws : List Word) (as : List Answer) : Offered (fresh ws as) ws [] :=
  ⟨⟨rfl, rfl, rfl, rfl, rfl, rfl⟩, noReset_nil rfl, by simp [fresh]⟩

/-- The micro-sequences of the states below: a CMD8's two bytes around a delay. -/
def prog3 : List MicroOp := writes [0x3C, 0x38] ++ [.delay 2]

theorem four_by_twenty : 1 ≤ (4 : Byte).toNat ∧ (4 : Byte).toNat ≤ 4 ∧ 1 ≤ (20 : Byte).toNat := by decide

/-- The invariant of `ready`, and of it while it runs `prog3`. -/
theorem inv_ready (ws : List Word) (n : Nat) : BlockInv (ready ws (oks n)) where
  params := params_wf
  faulted := ⟨fun h => (by cases h), fun h => (by cases h)⟩
  cause := rfl
  status := .head _
  config := fun _ => four_by_twenty
  stepRange := Nat.le_refl 0
  progLength := Nat.le_of_ble_eq_true rfl
  framed := .inl rfl
  lines := fun _ h => by cases h
  delays := fun _ h => by cases h
  delay := fun h => absurd rfl h
  delayFits := Nat.two_pow_pos _
  write := fun h => by cases h
  held := fun _ h => by cases h
  terr := Nat.two_pow_pos _
  answers := fun e l h => by simp [ready, oks, List.mem_replicate] at h
  collected := fun h => absurd rfl h

theorem inv_running (k n : Nat) (h : k ≤ 3) : BlockInv (running 0x01000003 prog3 k (oks n)) where
  params := params_wf
  faulted := ⟨fun h => (by cases h), fun h => (by cases h)⟩
  cause := rfl
  status := .head _
  config := fun _ => four_by_twenty
  stepRange := h
  progLength := Nat.le_of_ble_eq_true rfl
  framed := .inl (show paired defaultParams prog3 = true by decide)
  lines := fun b h => by
    simp only [running, prog3, writes, List.map_cons, List.map_nil, List.cons_append, List.nil_append, List.mem_cons,
      List.not_mem_nil, MicroOp.write.injEq, reduceCtorEq, or_false] at h
    show b &&& defaultParams.blBit = defaultParams.blBit ∧ b &&& defaultParams.rwBit = 0
    rcases h with rfl | rfl <;> decide
  delays := fun ms h => by
    simp only [running, prog3, writes, List.map_cons, List.map_nil, List.cons_append, List.nil_append, List.mem_cons,
      List.not_mem_nil, MicroOp.delay.injEq, reduceCtorEq, false_or, or_false] at h
    subst h; decide
  delay := fun h => absurd rfl h
  delayFits := Nat.two_pow_pos _
  write := fun h => by cases h
  held := fun _ h => by cases h
  terr := Nat.two_pow_pos _
  answers := fun e l h => by simp [running, ready, oks, List.mem_replicate] at h
  collected := fun h => absurd rfl h

/-- ... and inside its delay, one tick before the end. -/
theorem inv_delaying : BlockInv { running 0x01000003 prog3 2 [] with delayCnt := 1 } :=
  { inv_running 2 0 (by decide) with
    delay := fun _ => ⟨rfl, 2, rfl, by decide⟩
    delayFits := by decide }

theorem follows_running : TraceFollows (running 0x01000003 prog3 0 []) := fun _ => ⟨[], [], rfl, rfl⟩

theorem witness_DecodeInvertsEncode :
    (Instr.wstr 255 255 (List.replicate 255 0xFF)).wellFormed = true ∧ (Instr.wstr 0 0 []).wellFormed = true ∧
    (Instr.wait 0xFFFF).wellFormed = true := by decide +kernel

theorem witness_DecodedRequestsKeepEveryBit :
    decodeWords [0x15020105, 0x48690000] = .ok (.wstr 1 5 [0x48, 0x69]) ∧ decodeWords [0x010000FF] = .ok (.cmd8 0xFF) := by
  decide

theorem witness_AssemblyLinesGiveTheirRequests :
    (Instr.wstr 255 255 (List.replicate 255 0xFF)).wellFormed = true ∧ 255 < (List.replicate 256 (0xFF : Byte)).length := by
  decide +kernel

theorem witness_IllegalRequestsFault :
    ([] : List Word).length = payloadWords 0x15000101 ∧ (List.replicate 64 (0 : Word)).length = payloadWords 0x15FF0101 ∧
    LegalHeader 0x0400FFFF ∧ Offered (ready [0x17000000] []) [0x17000000] [] ∧ ¬ LegalHeader 0x17000000 ∧
    ¬ LegalHeader 0x04010000 :=
  ⟨by decide, by decide, by unfold LegalHeader; decide, offered_ready _ _, by unfold LegalHeader; decide,
    by unfold LegalHeader; decide⟩

theorem witness_WstrPayloadIsTakenWholeAndUnpacked :
    Offered (ready [0x15050101, 0x48656C6C, 0x6F000000] []) [0x15050101, 0x48656C6C, 0x6F000000] [] ∧
    Offered (ready [0x15000101] []) [0x15000101] [] ∧ opOf 0x15050101 = 0x15 ∧ opOf 0x15000101 = 0x15 ∧
    Prompt (ready [0x15050101, 0x48656C6C, 0x6F000000] []) ∧
    ([0x48656C6C, 0x6F000000] : List Word).length = payloadWords 0x15050101 ∧
    ([0x48656C6C, 0x6FFFFFFF] : List Word).length = payloadWords 0x15050101 ∧
    ([] : List Word).length = payloadWords 0x15000101 ∧
    ∀ i, i < (aOf 0x15050101).toNat →
      charAt [0x48656C6C, 0x6F000000] i = charAt [0x48656C6C, 0x6FFFFFFF] i :=
  ⟨offered_ready _ _, offered_ready _ _, by decide, by decide, prompt_nil rfl, by decide, by decide, by decide, by decide⟩

theorem witness_StepRunsTheDecodedRequest :
    resetAsserted { ready [0x48690000] [] with collected := [0x15020105] } = false ∧
    ({ ready [0x48690000] [] with collected := [0x15020105] } : State).seqState = .idle ∧
    ({ ready [0x48690000] [] with collected := [0x15020105] } : State).rsp = none ∧
    hostPresents { ready [0x48690000] [] with collected := [0x15020105] } = true ∧
    decodeWords (({ ready [0x48690000] [] with collected := [0x15020105] } : State).collected ++ [0x48690000]) =
      .ok (.wstr 1 5 [0x48, 0x69]) := by decide

theorem witness_ResetEdgeTakesTheResetValues :
    resetAsserted { running 0x01000003 prog3 1 [] with env := ⟨[], [], [low]⟩ } = true := by decide

theorem witness_ResetEdgeKeepsTheEnvironment :
    ({ running 0x01000003 prog3 1 [] with env := ⟨[], [], [low]⟩ } : State).env.pins = [low] ∧ low.rstN = false := by
  decide

theorem witness_InvariantsHoldAtReset : defaultParams.Wf := params_wf

/-- For every statement over `BlockInv s` and a step of `s`: the step of a bus write, of a delay, and of an acceptance. -/
theorem witness_EveryStepKeepsTheInvariant :
    (BlockInv (running 0x01000003 prog3 0 (oks 1)) ∧ ∃ u, step (running 0x01000003 prog3 0 (oks 1)) = .next u) ∧
    (BlockInv { running 0x01000003 prog3 2 [] with delayCnt := 1 } ∧
      ∃ u, step { running 0x01000003 prog3 2 [] with delayCnt := 1 } = .next u) ∧
    (BlockInv (ready [0x11000000] (oks 0)) ∧ ∃ u, step (ready [0x11000000] (oks 0)) = .next u) :=
  ⟨⟨inv_running 0 1 (by decide), ⟨_, step_write (b := 0x3C) rfl rfl rfl rfl⟩⟩,
    ⟨inv_delaying, ⟨_, step_delay (ms := 2) rfl rfl rfl rfl⟩⟩, ⟨inv_ready _ 0, ⟨_, rfl⟩⟩⟩

theorem witness_EveryStepAnswersNext : BlockInv (running 0x01000003 prog3 3 (oks 0)) := inv_running 3 0 (by decide)

theorem witness_EveryStepKeepsTheTraceInProgramOrder :
    BlockInv (running 0x01000003 prog3 0 (oks 0)) ∧ TraceFollows (running 0x01000003 prog3 0 (oks 0)) ∧
    ∃ u, step (running 0x01000003 prog3 0 (oks 0)) = .next u :=
  ⟨inv_running 0 0 (by decide), follows_running, ⟨_, step_write (b := 0x3C) rfl rfl rfl rfl⟩⟩

/-- A write, a response, a fault and a delay all come from such steps. -/
theorem witness_EveryEventIsLegal :
    (BlockInv (running 0x01000003 prog3 0 (oks 0)) ∧
      after State.trace (running 0x01000003 prog3 0 (oks 0)) = some [.req 0x01000003, .tx 0x27 0x3C]) ∧
    (BlockInv (running 0x01000003 prog3 2 (oks 0)) ∧
      after State.trace (running 0x01000003 prog3 2 (oks 0)) = some [.req 0x01000003, .dly 2]) ∧
    (BlockInv (running 0x01000003 prog3 3 (oks 0)) ∧
      after State.trace (running 0x01000003 prog3 3 (oks 0)) = some [.req 0x01000003, .rsp ⟨0x00, none⟩]) ∧
    (BlockInv (ready [0x17000000] (oks 0)) ∧
      after State.trace (ready [0x17000000] (oks 0)) = some [.req 0x17000000, .flt 0x01]) :=
  ⟨⟨inv_running 0 0 (by decide), by decide⟩, ⟨inv_running 2 0 (by decide), by decide⟩,
    ⟨inv_running 3 0 (by decide), by decide⟩, ⟨inv_ready _ 0, by decide⟩⟩

theorem witness_EveryBusWriteAddressesDevAddr :
    ∃ u, step (running 0x01000003 prog3 0 (oks 0)) = .next u ∧ u.trace = [.req 0x01000003] ++ [.tx 0x27 0x3C] :=
  ⟨_, step_write (b := 0x3C) rfl rfl rfl rfl, rfl⟩

/-- A reset, the acceptance of a SETBL, and a step that is neither. -/
theorem witness_OnlySetblAndResetWriteTheBacklight :
    (BlockInv { ready [] (oks 0) with env := ⟨[], [], [low]⟩ } ∧
      resetAsserted { ready [] (oks 0) with env := ⟨[], [], [low]⟩ } = true ∧
      ∃ u, step { ready [] (oks 0) with env := ⟨[], [], [low]⟩ } = .next u) ∧
    (BlockInv (ready [0x05000000] (oks 0)) ∧ resetAsserted (ready [0x05000000] (oks 0)) = false ∧
      (ready [0x05000000] (oks 0)).seqState = .idle ∧
      after (fun u => (u.seqState, opOf u.reqWord)) (ready [0x05000000] (oks 0)) = some (.busy, 0x05)) ∧
    (BlockInv (running 0x01000003 prog3 0 (oks 1)) ∧ resetAsserted (running 0x01000003 prog3 0 (oks 1)) = false ∧
      ¬ (running 0x01000003 prog3 0 (oks 1)).seqState = .idle ∧
      ∃ u, step (running 0x01000003 prog3 0 (oks 1)) = .next u) :=
  ⟨⟨{ inv_ready [] 0 with answers := fun _ _ h => by cases h }, by decide, ⟨_, step_reset rfl⟩⟩,
    ⟨inv_ready _ 0, by decide, by decide, by decide⟩,
    ⟨inv_running 0 1 (by decide), by decide, by decide, ⟨_, step_write (b := 0x3C) rfl rfl rfl rfl⟩⟩⟩

theorem witness_OnlyResetClearsInitDone :
    (∃ u, step { running 0x10000414 [] 0 [] with initDone := false } = .next u) ∧
    ∃ u, step { ready [] [] with env := ⟨[], [], [low]⟩ } = .next u :=
  ⟨⟨_, step_complete rfl rfl rfl rfl⟩, ⟨_, step_reset rfl⟩⟩

theorem witness_FaultsAreStickyAndWithoutEffect :
    (BlockInv (ready [0x17000000] (oks 0)) ∧ (ready [0x17000000] (oks 0)).fault = false ∧
      after State.fault (ready [0x17000000] (oks 0)) = some true) ∧
    (stopped.seqState = .faulted ∧ NoReset stopped) ∧
    ({ stopped with env := ⟨[], [], [low]⟩ } : State).seqState = .faulted ∧
    resetAsserted { stopped with env := ⟨[], [], [low]⟩ } = true :=
  ⟨⟨inv_ready _ 0, rfl, by decide⟩, ⟨rfl, noReset_nil rfl⟩, rfl, rfl⟩

theorem witness_SeqStepAdvancesByOne :
    (BlockInv (running 0x01000003 prog3 0 (oks 1)) ∧ after State.seqStep (running 0x01000003 prog3 0 (oks 1)) = some 1) ∧
    (BlockInv (running 0x01000003 prog3 0 (oks 0)) ∧ after State.seqStep (running 0x01000003 prog3 0 (oks 0)) = some 0) ∧
    (BlockInv (ready [0x11000000] (oks 0)) ∧
      after (fun u => (u.seqState, u.seqStep)) (ready [0x11000000] (oks 0)) = some (.busy, 0)) ∧
    (BlockInv (ready [0x17000000] (oks 0)) ∧
      after (fun u => (u.seqState, u.seqStep)) (ready [0x17000000] (oks 0)) = some (.faulted, 0)) :=
  ⟨⟨inv_running 0 1 (by decide), by decide⟩, ⟨inv_running 0 0 (by decide), by decide⟩, ⟨inv_ready _ 0, by decide⟩,
    ⟨inv_ready _ 0, by decide⟩⟩

/-- BUSY, FAULTED, holding a response, and IDLE with no word presented. -/
theorem witness_NoRequestIsTakenWhileNotReady :
    (reqReady (running 0x01000003 prog3 0 []) = false ∧ resetAsserted (running 0x01000003 prog3 0 []) = false ∧
      ∃ u, step (running 0x01000003 prog3 0 []) = .next u) ∧
    (reqReady stopped = false ∧ resetAsserted stopped = false ∧ ∃ u, step stopped = .next u) ∧
    (reqReady (holding [notReady]) = false ∧ resetAsserted (holding [notReady]) = false ∧
      ∃ u, step (holding [notReady]) = .next u) ∧
    (hostPresents (withPins [notPresenting] (ready [0x11000000] [])) = false ∧
      resetAsserted (withPins [notPresenting] (ready [0x11000000] [])) = false ∧
      ∃ u, step (withPins [notPresenting] (ready [0x11000000] [])) = .next u) :=
  ⟨⟨rfl, rfl, ⟨_, step_write (b := 0x3C) rfl rfl rfl rfl⟩⟩, ⟨rfl, rfl, ⟨_, step_faulted rfl rfl⟩⟩,
    ⟨rfl, rfl, ⟨_, step_held rfl (by decide) rfl⟩⟩, ⟨rfl, rfl, ⟨_, step_noWord rfl rfl rfl (.inl rfl)⟩⟩⟩

theorem witness_ResponseIsHeldUntilTaken :
    (holding [notReady, notReady]).rsp = some ⟨0x00, none⟩ ∧ (holding [notReady, notReady]).seqState ≠ .faulted ∧
    2 ≤ (holding [notReady, notReady]).env.pins.length ∧
    (∀ p ∈ (holding [notReady, notReady]).env.pins.take 2, p.rstN = true ∧ p.rspReady = false) ∧
    ((holding [notReady, notReady]).env.pins.drop 2).head? = none ∧
    ((holding [Pins.allHigh]).env.pins.drop 0).head? = some Pins.allHigh ∧
    Pins.allHigh.rstN = true ∧ Pins.allHigh.rspReady = true := by decide

/-- Each answer, no answer yet for want of one and for want of `br_valid`, and a write not taken. -/
theorem witness_BusWriteRecordsItsAnswer :
    resetAsserted (running 0x01000003 prog3 0 [.ok]) = false ∧ (running 0x01000003 prog3 0 [.ok]).seqState = .busy ∧
    (running 0x01000003 prog3 0 [.ok]).rsp = none ∧ prog3[0]? = some (.write 0x3C) ∧
    (running 0x01000003 prog3 0 [.ok]).env.answers = .ok :: [] ∧
    (running 0x01000003 prog3 0 [.err 255 true]).env.answers = .err 255 true :: [] ∧
    ({ running 0x01000003 prog3 0 [] with bwOut := true } : State).env.answers = [] ∧
    (pinsNow (running 0x01000003 prog3 0 [.ok])).bwReady = true ∧
    (pinsNow (running 0x01000003 prog3 0 [.ok])).brValid = true ∧
    (pinsNow (withPins [notAnswering] (running 0x01000003 prog3 0 [.ok]))).bwReady = true ∧
    (pinsNow (withPins [notAnswering] (running 0x01000003 prog3 0 [.ok]))).brValid = false ∧
    (withPins [notTaking] (running 0x01000003 prog3 0 [.ok])).bwOut = false ∧
    (pinsNow (withPins [notTaking] (running 0x01000003 prog3 0 [.ok]))).bwReady = false := by decide

/-- A wait of one step for `bw_ready` and of two for `br_valid`, and one of none. -/
theorem witness_BusWriteWaitsForTheTransport :
    ∀ pins ∈ ([[notTaking, notAnswering, notAnswering], [notAnswering]] : List (List Pins)),
    (withPins pins (running 0x01000003 prog3 0 [.err 7 false])).seqState = .busy ∧
    (withPins pins (running 0x01000003 prog3 0 [.err 7 false])).rsp = none ∧
    (withPins pins (running 0x01000003 prog3 0 [.err 7 false])).bwOut = false ∧
    (withPins pins (running 0x01000003 prog3 0 [.err 7 false])).seqProg[0]? = some (.write 0x3C) ∧
    (withPins pins (running 0x01000003 prog3 0 [.err 7 false])).env.answers = .err 7 false :: [] ∧
    ∃ n ∈ [0, 1], ∃ m ∈ [0, 1],
      (withPins pins (running 0x01000003 prog3 0 [.err 7 false])).env.pins =
        List.replicate n { Pins.allHigh with rstN := true, bwReady := false } ++
          { Pins.allHigh with rstN := true, bwReady := true, brValid := false } ::
            List.replicate m { Pins.allHigh with rstN := true, brValid := false } := by decide

/-- A write that landed, one that did not, one with no answer, and one not answered yet. -/
theorem witness_ExpanderLatchesWhatItReceives :
    after (fun u => u.ghost.expander) (running 0x01000003 prog3 0 [.ok]) = some (some 0x3C) ∧
    after (fun u => u.ghost.expander) (running 0x01000003 prog3 0 [.err 1 false]) = some none ∧
    after (fun u => u.ghost.expander) (running 0x01000003 prog3 0 []) = some none ∧
    after (fun u => u.ghost.expander) (withPins [notAnswering] (running 0x01000003 prog3 0 [.ok])) = some none ∧
    (pinsNow (running 0x01000003 prog3 0 [.ok])).bwReady = true ∧
    (pinsNow (running 0x01000003 prog3 0 [.ok])).brValid = true ∧
    (running 0x01000003 prog3 0 [.ok]).seqProg[0]? = some (.write 0x3C) := by decide

/-- ... with a transport that takes it at once, and with one that takes it at the second step. -/
theorem witness_UnansweredWriteHangsTheBlock :
    NoReset (withPins [notTaking, Pins.allHigh] (running 0x01000003 prog3 0 [])) ∧
    (∃ p ∈ (withPins [notTaking, Pins.allHigh] (running 0x01000003 prog3 0 [])).env.pins.take 2, p.bwReady = true) ∧
    (running 0x01000003 prog3 0 []).env.pins.length < 1 ∧
    (running 0x01000003 prog3 0 []).seqState = .busy ∧ (running 0x01000003 prog3 0 []).rsp = none ∧
    (running 0x01000003 prog3 0 []).bwOut = false ∧ NoReset (running 0x01000003 prog3 0 []) ∧
    (running 0x01000003 prog3 0 []).seqProg[0]? = some (.write 0x3C) ∧ (running 0x01000003 prog3 0 []).env.answers = [] :=
  ⟨by unfold NoReset; decide, by decide, by decide, rfl, rfl, rfl, noReset_nil rfl, rfl, rfl⟩

/-- `D(2)` with `CLK_PER_MS` = 1: the counter's last nonzero value is reached for j = 1. -/
theorem witness_DelayCounterCountsTheDelay :
    ((running 0x01000003 prog3 2 []).seqState = .busy ∧ (running 0x01000003 prog3 2 []).rsp = none ∧
      (running 0x01000003 prog3 2 []).delayCnt = 0 ∧ NoReset (running 0x01000003 prog3 2 []) ∧
      (running 0x01000003 prog3 2 []).seqProg[2]? = some (.delay 2) ∧
      1 < 2 * (running 0x01000003 prog3 2 []).params.clkPerMs) ∧
    (BlockInv { running 0x01000003 prog3 2 [] with delayCnt := 1 } ∧
      ({ running 0x01000003 prog3 2 [] with delayCnt := 1 } : State).delayCnt ≠ 0) :=
  ⟨⟨rfl, rfl, rfl, noReset_nil rfl, rfl, by decide⟩, inv_delaying, by decide⟩

theorem witness_MicroSequenceRunsToItsResponse :
    (running 0x01000003 prog3 0 [.err 255 false, .ok]).seqState = .busy ∧
    (running 0x01000003 prog3 0 [.err 255 false, .ok]).seqStep = 0 ∧
    (running 0x01000003 prog3 0 [.err 255 false, .ok]).status = 0x00 ∧
    (running 0x01000003 prog3 0 [.err 255 false, .ok]).rsp = none ∧
    (running 0x01000003 prog3 0 [.err 255 false, .ok]).bwOut = false ∧
    (running 0x01000003 prog3 0 [.err 255 false, .ok]).delayCnt = 0 ∧
    NoReset (running 0x01000003 prog3 0 [.err 255 false, .ok]) ∧
    Prompt (running 0x01000003 prog3 0 [.err 255 false, .ok]) ∧
    (running 0x01000003 prog3 0 [.err 255 false, .ok]).env.answers = [.err 255 false, .ok] ++ [] ∧
    ([.err 255 false, .ok] : List Answer).length = writeCount (running 0x01000003 prog3 0 [.err 255 false, .ok]).seqProg :=
  ⟨rfl, rfl, rfl, rfl, rfl, rfl, noReset_nil rfl, prompt_nil rfl, rfl, rfl⟩

theorem witness_AnsweredRequestsFinish :
    (BlockInv (running 0x01000003 prog3 0 (oks 2)) ∧ (running 0x01000003 prog3 0 (oks 2)).seqState = .busy ∧
      NoReset (running 0x01000003 prog3 0 (oks 2)) ∧
      writeCount ((running 0x01000003 prog3 0 (oks 2)).seqProg.drop 0) ≤ (running 0x01000003 prog3 0 (oks 2)).env.answers.length) ∧
    (BlockInv { running 0x01000003 prog3 2 [] with delayCnt := 1 } ∧
      writeCount (({ running 0x01000003 prog3 2 [] with delayCnt := 1 } : State).seqProg.drop 2) ≤ 0) :=
  ⟨⟨inv_running 0 2 (by decide), rfl, noReset_nil rfl, by decide⟩, inv_delaying, by decide⟩

/-- A next state, and the one fault: BUSY past the end of the micro-sequence. -/
theorem witness_GhostStateIsNeverRead :
    (∃ u, step (running 0x01000003 prog3 0 (oks 1)) = .next u) ∧
    step (running 0x01000003 prog3 4 []) = .fault .seqStepPastEnd :=
  ⟨⟨_, step_write (b := 0x3C) rfl rfl rfl rfl⟩, rfl⟩

theorem witness_InitLeavesFourBitMode :
    (Offered (fresh [header (.init 4 1)] (oks 28)) [header (.init 4 1)] [] ∧ 1 ≤ (4 : Byte).toNat ∧ (4 : Byte).toNat ≤ 4 ∧
      1 ≤ (1 : Byte).toNat ∧ (fresh [header (.init 4 1)] (oks 28)).env.answers = oks 28 ++ [] ∧ (oks 28).length = 28) ∧
    (∀ a ∈ oks 28, a.landed = true) ∧ (Answer.err 1 true).landed = true :=
  ⟨⟨offered_fresh _ _, by decide, by decide, by decide, by decide, by decide⟩, by decide, rfl⟩

/-- Inside a transfer, and outside one; a step of each. -/
theorem witness_TransfersAreCutOnlyBetweenTheirWrites :
    (MidOk (tuned true (running 0x02000028 (writes [0x2C, 0x28, 0x8C, 0x88]) 3 [.ok])) ∧
      ∃ u, step (tuned true (running 0x02000028 (writes [0x2C, 0x28, 0x8C, 0x88]) 3 [.ok])) = .next u) ∧
    MidOk (tuned false (running 0x02000028 (writes [0x2C, 0x28, 0x8C, 0x88]) 0 [.ok])) ∧
    ∃ u, step (tuned false (running 0x02000028 (writes [0x2C, 0x28, 0x8C, 0x88]) 0 [.ok])) = .next u :=
  ⟨⟨fun _ => by decide, ⟨_, step_write (b := 0x88) rfl rfl rfl rfl⟩⟩, (fun h => by cases h),
    ⟨_, step_write (b := 0x2C) rfl rfl rfl rfl⟩⟩

/-- Each clause: a reset in IDLE, with a response held, at step 0, at the end, in a delay and at INIT's first write; a reset that cuts a transfer; the
answers to a CMD4's last write, to INIT's ninth, and to a SETBL that did not land; a step that answers no write. -/
theorem witness_FourBitModeIsKeptOutsideCutTransfers :
    (∀ s ∈ [ready [] [], holding [], running 0x02000028 (writes [0x2C, 0x28, 0x8C, 0x88]) 0 [],
        running 0x02000028 (writes [0x2C, 0x28, 0x8C, 0x88]) 4 [], running 0x11000000 [.delay 100] 0 [],
        running 0x10000414 (initProgram defaultParams true) 1 []],
      MidOk (withPins [low] (tuned false s)) ∧ FourBitInPhase (withPins [low] (tuned false s)) ∧
        resetAsserted (withPins [low] (tuned false s)) = true ∧
        ∃ u, step (withPins [low] (tuned false s)) = .next u) ∧
    ((ready [] []).seqState ≠ .busy ∧ (holding []).rsp ≠ none ∧
      (running 0x02000028 (writes [0x2C, 0x28, 0x8C, 0x88]) 0 []).seqStep = 0 ∧
      (running 0x02000028 (writes [0x2C, 0x28, 0x8C, 0x88]) 4 []).seqProg.length ≤ 4 ∧
      (running 0x11000000 [.delay 100] 0 []).seqProg[0]? = some (.delay 100) ∧
      (running 0x10000414 (initProgram defaultParams true) 1 []).seqProg[1 - 1]? = some (.delay 100)) ∧
    (MidOk (withPins [low] (tuned true (running 0x02000028 (writes [0x2C, 0x28, 0x8C, 0x88]) 1 []))) ∧
      resetAsserted (withPins [low] (tuned true (running 0x02000028 (writes [0x2C, 0x28, 0x8C, 0x88]) 1 []))) = true) ∧
    (MidOk (tuned true (running 0x02000028 (writes [0x2C, 0x28, 0x8C, 0x88]) 3 [.ok])) ∧
      Answers (tuned true (running 0x02000028 (writes [0x2C, 0x28, 0x8C, 0x88]) 3 [.ok])) 0x88 .ok ∧
      Answer.ok.landed = true ∧ opOf 0x02000028 ≠ 0x01 ∧ opOf 0x02000028 ≠ 0x10) ∧
    (Answers (tuned false (running 0x10000414 (initProgram defaultParams true) 13 [.ok])) 0x2C .ok ∧
      opOf 0x10000414 = 0x10 ∧ opOf 0x10000414 ≠ 0x01 ∧ 11 < 13) ∧
    (Answers (tuned false (running 0x05000000 (writes [0x00]) 0 [.err 1 false])) 0x00 (.err 1 false) ∧
      opOf 0x05000000 = 0x05) ∧
    (∀ b a, ¬ Answers (tuned false (running 0x11000000 [.delay 100] 0 [])) b a) :=
  ⟨fun s hs => by
      refine ⟨fun h => (by cases h), ⟨rfl, rfl⟩, rfl, ⟨_, step_reset rfl⟩⟩,
    by decide, ⟨fun _ => by decide, rfl⟩,
    ⟨fun _ => by decide, ⟨rfl, rfl, rfl, rfl, .inr rfl, rfl, rfl⟩, by decide, by decide, by decide⟩,
    ⟨⟨rfl, rfl, rfl, by decide, .inr rfl, rfl, rfl⟩, by decide, by decide, by decide⟩,
    ⟨⟨rfl, rfl, rfl, rfl, .inr rfl, rfl, rfl⟩, by decide⟩, fun b a h => by cases h.2.2.2.1⟩

theorem witness_EngineLaws :
    (ready [] []).params.Wf ∧ BlockInv (ready [] (oks 0)) ∧ (∃ u, exec (.setbl 0) (ready [] (oks 0)) = .next u) ∧
    ∃ u, exec (.init 4 20) (ready [] (oks 0)) = .next u :=
  ⟨params_wf, inv_ready _ 0, ⟨_, rfl⟩, ⟨_, rfl⟩⟩

/-- The last row and the greatest sum below 0x80; the first sum at 0x80 falls under the first clause only. -/
theorem witness_CursorCommandIsTheDdramAddress :
    3 ≤ 3 ∧ (rowBase (BitVec.ofNat 2 3)).toNat + 43 < 0x80 ∧ ¬ (rowBase (BitVec.ofNat 2 3)).toNat + 44 < 0x80 ∧
    (rowBase (BitVec.ofNat 2 0)).toNat + 127 < 0x80 := by decide

/-- The ends of INIT's ranges: 1 and 4 rows, 1 column; 0 and 5 rows, 0 columns. -/
theorem witness_InitIsAcceptedInRangeAndFaultsOutside :
    (1 ≤ (1 : Byte).toNat ∧ (1 : Byte).toNat ≤ 4 ∧ (4 : Byte).toNat ≤ 4 ∧ 1 ≤ (255 : Byte).toNat) ∧
    (0 : Byte).toNat < 1 ∧ 4 < (5 : Byte).toNat := by decide

theorem witness_SetcurIsAcceptedInTableAndFaultsOutside : (3 : Byte).toNat ≤ 3 ∧ 3 < (4 : Byte).toNat := by decide

/-- The first and the last position of a 4 × 20 display. -/
theorem witness_WcharIsAcceptedAtAValidPosition :
    BlockInv (ready [] (oks 0)) ∧ (ready [] (oks 0)).initDone = true ∧
    (1 ≤ (1 : Byte).toNat ∧ (1 : Byte).toNat ≤ (ready [] (oks 0)).cfgRows.toNat ∧
      (1 : Byte).toNat ≤ (ready [] (oks 0)).cfgCols.toNat) ∧
    (1 ≤ (4 : Byte).toNat ∧ (4 : Byte).toNat ≤ (ready [] (oks 0)).cfgRows.toNat ∧
      1 ≤ (20 : Byte).toNat ∧ (20 : Byte).toNat ≤ (ready [] (oks 0)).cfgCols.toNat) :=
  ⟨inv_ready _ 0, rfl, by decide, by decide⟩

theorem witness_WstrIsAcceptedAtAValidPosition :
    BlockInv (ready [] (oks 0)) ∧ (ready [] (oks 0)).initDone = true ∧
    1 ≤ (4 : Byte).toNat ∧ (4 : Byte).toNat ≤ (ready [] (oks 0)).cfgRows.toNat ∧
    1 ≤ (20 : Byte).toNat ∧ (20 : Byte).toNat ≤ (ready [] (oks 0)).cfgCols.toNat :=
  ⟨inv_ready _ 0, rfl, by decide⟩

/-- Each check at its boundary: rows 0, 5 and 4, columns 0, 21 and 20. -/
theorem witness_ValidationReportsTheFirstFailingCheck :
    (ready [] []).initDone = true ∧ ((∃ ch, Instr.wchar 0x41 0 1 = .wchar ch 0 1) ∨ ∃ t, Instr.wchar 0x41 0 1 = .wstr 0 1 t) ∧
    (0 : Byte).toNat < 1 ∧
    (¬ (5 : Byte).toNat < 1 ∧ 1 + (ready [] []).cfgRows.toNat - 1 < (5 : Byte).toNat) ∧
    (¬ (4 : Byte).toNat < 1 ∧ ¬ 1 + (ready [] []).cfgRows.toNat - 1 < (4 : Byte).toNat) ∧
    (¬ (21 : Byte).toNat < 1 ∧ 1 + (ready [] []).cfgCols.toNat - 1 < (21 : Byte).toNat) ∧
    (¬ (20 : Byte).toNat < 1 ∧ ¬ 1 + (ready [] []).cfgCols.toNat - 1 < (20 : Byte).toNat) :=
  ⟨rfl, .inl ⟨_, rfl⟩, by decide⟩

theorem witness_WritingBeforeInitFaults :
    (fresh [] []).initDone = false ∧
    ((∃ ch, Instr.wstr 0 0 [] = .wchar ch 0 0) ∨ ∃ t, Instr.wstr 0 0 [] = .wstr 0 0 t) := ⟨rfl, .inr ⟨_, rfl⟩⟩

/-- An accepted request and a rejected one. -/
theorem witness_RequestsCostWhatTheTableSays :
    (∃ u, exec (.init 4 20) (fresh [] []) = .next u ∧ (fresh [] []).seqState = .idle ∧ u.seqState = .busy) ∧
    ∃ u, exec (.wchar 0x41 1 21) (ready [] []) = .next u ∧ (ready [] []).seqState = .idle ∧ u.seqState = .idle :=
  ⟨⟨_, rfl, rfl, rfl⟩, ⟨_, rfl, rfl, rfl⟩⟩

/-! ### The requests from the port to the response -/

theorem witness_Cmd8RunsToItsResponse :
    (Offered (ready [0x010000F3] (oks 2)) [0x010000F3] [] ∧ opOf 0x010000F3 = 0x01 ∧ aOf 0x010000F3 = 0 ∧
      bOf 0x010000F3 = 0 ∧ (ready [0x010000F3] (oks 2)).env.answers = oks 2 ++ [] ∧ (oks 2).length = 2) ∧
    (Offered (ready [0x01000100] []) [0x01000100] [] ∧ opOf 0x01000100 = 0x01 ∧ bOf 0x01000100 ≠ 0) :=
  ⟨⟨offered_ready _ _, by decide, by decide, by decide, by decide, by decide⟩, offered_ready _ _, by decide, by decide⟩

theorem witness_Cmd4RunsToItsResponse :
    (Offered (ready [0x02000028] (oks 4)) [0x02000028] [] ∧ opOf 0x02000028 = 0x02 ∧ aOf 0x02000028 = 0 ∧
      bOf 0x02000028 = 0 ∧ (ready [0x02000028] (oks 4)).env.answers = oks 4 ++ [] ∧ (oks 4).length = 4) ∧
    (Offered (ready [0x02010000] []) [0x02010000] [] ∧ opOf 0x02010000 = 0x02 ∧ aOf 0x02010000 ≠ 0) :=
  ⟨⟨offered_ready _ _, by decide, by decide, by decide, by decide, by decide⟩, offered_ready _ _, by decide, by decide⟩

theorem witness_Data4RunsToItsResponse :
    (Offered (ready [0x030000FF] (oks 4)) [0x030000FF] [] ∧ opOf 0x030000FF = 0x03 ∧ aOf 0x030000FF = 0 ∧
      bOf 0x030000FF = 0 ∧ (ready [0x030000FF] (oks 4)).env.answers = oks 4 ++ [] ∧ (oks 4).length = 4) ∧
    (Offered (ready [0x03000100] []) [0x03000100] [] ∧ opOf 0x03000100 = 0x03 ∧ bOf 0x03000100 ≠ 0) :=
  ⟨⟨offered_ready _ _, by decide, by decide, by decide, by decide, by decide⟩, offered_ready _ _, by decide, by decide⟩

theorem witness_WaitRunsToItsResponse :
    (Offered (ready [0x04000000] []) [0x04000000] [] ∧ opOf 0x04000000 = 0x04 ∧ aOf 0x04000000 = 0) ∧
    (Offered (ready [0x0400FFFF] []) [0x0400FFFF] [] ∧ opOf 0x0400FFFF = 0x04 ∧ aOf 0x0400FFFF = 0) ∧
    (Offered (ready [0x04010000] []) [0x04010000] [] ∧ opOf 0x04010000 = 0x04 ∧ aOf 0x04010000 ≠ 0) :=
  ⟨⟨offered_ready _ _, by decide, by decide⟩, ⟨offered_ready _ _, by decide, by decide⟩, offered_ready _ _, by decide,
    by decide⟩

theorem witness_SetblRunsToItsResponse :
    (Offered (ready [0x05000000] [.err 1 false]) [0x05000000] [] ∧ opOf 0x05000000 = 0x05 ∧ aOf 0x05000000 = 0 ∧
      bOf 0x05000000 = 0 ∧ (ready [0x05000000] [.err 1 false]).env.answers = .err 1 false :: []) ∧
    (Offered (ready [0x05010000] []) [0x05010000] [] ∧ opOf 0x05010000 = 0x05 ∧ aOf 0x05010000 ≠ 0) :=
  ⟨⟨offered_ready _ _, by decide, by decide, by decide, by decide⟩, offered_ready _ _, by decide, by decide⟩

theorem witness_InitRunsToItsResponse :
    (Offered (fresh [0x10000401] (oks 28)) [0x10000401] [] ∧ opOf 0x10000401 = 0x10 ∧ aOf 0x10000401 = 0 ∧
      1 ≤ (bOf 0x10000401).toNat ∧ (bOf 0x10000401).toNat ≤ 4 ∧ 1 ≤ (cOf 0x10000401).toNat ∧
      (fresh [0x10000401] (oks 28)).env.answers = oks 28 ++ [] ∧ (oks 28).length = 28) ∧
    (Offered (fresh [0x10000014] []) [0x10000014] [] ∧ opOf 0x10000014 = 0x10 ∧ aOf 0x10000014 = 0 ∧
      (bOf 0x10000014).toNat < 1) ∧
    (Offered (fresh [0x10000514] []) [0x10000514] [] ∧ opOf 0x10000514 = 0x10 ∧ aOf 0x10000514 = 0 ∧
      4 < (bOf 0x10000514).toNat) ∧
    (Offered (fresh [0x10000400] []) [0x10000400] [] ∧ opOf 0x10000400 = 0x10 ∧ aOf 0x10000400 = 0 ∧
      (cOf 0x10000400).toNat < 1) ∧
    (Offered (fresh [0x10010400] []) [0x10010400] [] ∧ opOf 0x10010400 = 0x10 ∧ aOf 0x10010400 ≠ 0) :=
  ⟨⟨offered_fresh _ _, by decide, by decide, by decide, by decide, by decide, by decide, by decide⟩,
    ⟨offered_fresh _ _, by decide, by decide, by decide⟩, ⟨offered_fresh _ _, by decide, by decide, by decide⟩,
    ⟨offered_fresh _ _, by decide, by decide, by decide⟩,
    offered_fresh _ _, by decide, by decide⟩

theorem witness_ClearRunsToItsResponse :
    (Offered (ready [0x11000000] (oks 4)) [0x11000000] [] ∧ opOf 0x11000000 = 0x11 ∧ aOf 0x11000000 = 0 ∧
      bOf 0x11000000 = 0 ∧ cOf 0x11000000 = 0 ∧ (ready [0x11000000] (oks 4)).env.answers = oks 4 ++ [] ∧
      (oks 4).length = 4) ∧
    (Offered (ready [0x11000001] []) [0x11000001] [] ∧ opOf 0x11000001 = 0x11 ∧ cOf 0x11000001 ≠ 0) :=
  ⟨⟨offered_ready _ _, by decide, by decide, by decide, by decide, by decide, by decide⟩, offered_ready _ _, by decide,
    by decide⟩

theorem witness_HomeRunsToItsResponse :
    (Offered (ready [0x12000000] (oks 4)) [0x12000000] [] ∧ opOf 0x12000000 = 0x12 ∧ aOf 0x12000000 = 0 ∧
      bOf 0x12000000 = 0 ∧ cOf 0x12000000 = 0 ∧ (ready [0x12000000] (oks 4)).env.answers = oks 4 ++ [] ∧
      (oks 4).length = 4) ∧
    (Offered (ready [0x12000100] []) [0x12000100] [] ∧ opOf 0x12000100 = 0x12 ∧ bOf 0x12000100 ≠ 0) :=
  ⟨⟨offered_ready _ _, by decide, by decide, by decide, by decide, by decide, by decide⟩, offered_ready _ _, by decide,
    by decide⟩

theorem witness_SetcurRunsToItsResponse :
    (Offered (ready [0x130003FF] (oks 4)) [0x130003FF] [] ∧ opOf 0x130003FF = 0x13 ∧ aOf 0x130003FF = 0 ∧
      (bOf 0x130003FF).toNat ≤ 3 ∧ (ready [0x130003FF] (oks 4)).env.answers = oks 4 ++ [] ∧ (oks 4).length = 4) ∧
    (Offered (ready [0x13000400] []) [0x13000400] [] ∧ opOf 0x13000400 = 0x13 ∧ aOf 0x13000400 = 0 ∧
      3 < (bOf 0x13000400).toNat) ∧
    (Offered (ready [0x13010400] []) [0x13010400] [] ∧ opOf 0x13010400 = 0x13 ∧ aOf 0x13010400 ≠ 0) :=
  ⟨⟨offered_ready _ _, by decide, by decide, by decide, by decide, by decide⟩,
    ⟨offered_ready _ _, by decide, by decide, by decide⟩, offered_ready _ _, by decide, by decide⟩

/-- The last position of a 4 × 20 display, each failing check at its boundary, and no INIT. -/
theorem witness_WcharRunsToItsResponse :
    (BlockInv (ready [0x14410414] (oks 8)) ∧ Offered (ready [0x14410414] (oks 8)) [0x14410414] [] ∧
      opOf 0x14410414 = 0x14 ∧ (ready [0x14410414] (oks 8)).initDone = true ∧ 1 ≤ (bOf 0x14410414).toNat ∧
      (bOf 0x14410414).toNat ≤ (ready [0x14410414] (oks 8)).cfgRows.toNat ∧ 1 ≤ (cOf 0x14410414).toNat ∧
      (cOf 0x14410414).toNat ≤ (ready [0x14410414] (oks 8)).cfgCols.toNat ∧
      (ready [0x14410414] (oks 8)).env.answers = oks 8 ++ [] ∧ (oks 8).length = 8) ∧
    (∀ w ∈ ([0x14410001, 0x14410501, 0x14410100, 0x14410115] : List Word),
      BlockInv (ready [w] (oks 0)) ∧ Offered (ready [w] (oks 0)) [w] [] ∧ opOf w = 0x14 ∧
        (ready [w] (oks 0)).initDone = true ∧ (ready [w] (oks 0)).cfgRows.toNat = 4 ∧
        (ready [w] (oks 0)).cfgCols.toNat = 20) ∧
    ((bOf 0x14410001).toNat < 1 ∧ 4 < (bOf 0x14410501).toNat ∧
      (1 ≤ (bOf 0x14410100).toNat ∧ (bOf 0x14410100).toNat ≤ 4 ∧ (cOf 0x14410100).toNat < 1) ∧
      1 ≤ (bOf 0x14410115).toNat ∧ (bOf 0x14410115).toNat ≤ 4 ∧ 20 < (cOf 0x14410115).toNat) ∧
    (BlockInv { ready [0x14410101] (oks 0) with initDone := false } ∧
      Offered { ready [0x14410101] (oks 0) with initDone := false } [0x14410101] []) :=
  ⟨⟨inv_ready _ 8, offered_ready _ _, by decide, rfl, by decide, by decide, by decide, by decide, by decide, by decide⟩,
    fun w hw => by
      have ho : opOf w = 0x14 := by
        simp only [List.mem_cons, List.not_mem_nil, or_false] at hw
        rcases hw with rfl | rfl | rfl | rfl <;> decide
      exact ⟨inv_ready _ 0, offered_ready _ _, ho, rfl, rfl, rfl⟩,
    by decide,
    { inv_ready [0x14410101] 0 with config := fun _ => four_by_twenty },
    ⟨rfl, rfl, rfl, rfl, rfl, rfl⟩, noReset_nil rfl, rfl⟩

theorem witness_WstrRunsToItsResponse :
    (BlockInv (ready [0x15020414, 0x48690000] (oks 8)) ∧
      Offered (ready [0x15020414, 0x48690000] (oks 8)) [0x15020414, 0x48690000] [] ∧ opOf 0x15020414 = 0x15 ∧
      ([0x48690000] : List Word).length = ((aOf 0x15020414).toNat + 3) / 4 ∧ 1 ≤ (bOf 0x15020414).toNat ∧
      (bOf 0x15020414).toNat ≤ (ready [0x15020414, 0x48690000] (oks 8)).cfgRows.toNat ∧ 1 ≤ (cOf 0x15020414).toNat ∧
      (cOf 0x15020414).toNat ≤ (ready [0x15020414, 0x48690000] (oks 8)).cfgCols.toNat ∧
      1 = min (aOf 0x15020414).toNat ((ready [] []).cfgCols.toNat - (cOf 0x15020414).toNat + 1) ∧
      (ready [0x15020414, 0x48690000] (oks 8)).env.answers = oks 8 ++ [] ∧ (oks 8).length = 4 + 4 * 1) ∧
    (∀ w ∈ ([0x15000001, 0x15000501, 0x15000100, 0x15000115] : List Word),
      BlockInv (ready [w] (oks 0)) ∧ Offered (ready [w] (oks 0)) [w] [] ∧ opOf w = 0x15 ∧
        (ready [w] (oks 0)).initDone = true ∧ (ready [w] (oks 0)).cfgRows.toNat = 4 ∧
        (ready [w] (oks 0)).cfgCols.toNat = 20 ∧ ([] : List Word).length = ((aOf w).toNat + 3) / 4) ∧
    ((bOf 0x15000001).toNat < 1 ∧ 4 < (bOf 0x15000501).toNat ∧
      (1 ≤ (bOf 0x15000100).toNat ∧ (bOf 0x15000100).toNat ≤ 4 ∧ (cOf 0x15000100).toNat < 1) ∧
      1 ≤ (bOf 0x15000115).toNat ∧ (bOf 0x15000115).toNat ≤ 4 ∧ 20 < (cOf 0x15000115).toNat ∧
      ([] : List Word).length = ((aOf 0x15000101).toNat + 3) / 4) ∧
    (BlockInv { ready [0x15000101] (oks 0) with initDone := false } ∧
      Offered { ready [0x15000101] (oks 0) with initDone := false } [0x15000101] []) :=
  ⟨⟨inv_ready _ 8, offered_ready _ _, by decide, by decide, by decide, by decide, by decide, by decide, by decide,
      by decide, by decide⟩,
    fun w hw => by
      have ho : opOf w = 0x15 ∧ ([] : List Word).length = ((aOf w).toNat + 3) / 4 := by
        simp only [List.mem_cons, List.not_mem_nil, or_false] at hw
        rcases hw with rfl | rfl | rfl | rfl <;> decide
      exact ⟨inv_ready _ 0, offered_ready _ _, ho.1, rfl, rfl, rfl, ho.2⟩,
    by decide, { inv_ready [0x15000101] 0 with config := fun _ => four_by_twenty },
    ⟨rfl, rfl, rfl, rfl, rfl, rfl⟩, noReset_nil rfl, rfl⟩

theorem witness_SetmodeRunsToItsResponse :
    Offered (ready [0x16FF00FF] (oks 4)) [0x16FF00FF] [] ∧ opOf 0x16FF00FF = 0x16 ∧
    (ready [0x16FF00FF] (oks 4)).env.answers = oks 4 ++ [] ∧ (oks 4).length = 4 :=
  ⟨offered_ready _ _, by decide, by decide, by decide⟩

end Sys2Proof.Tests
end

section
/-! # Micro-sequences a request loads

What `exec` loads into `SEQ_PROG` is framed, carries the backlight line, is short enough, and waits for 1 to 65535 ms. -/

namespace Sys2Proof.Machine

open Sys2Proof.Safety

/-- Nibble transfers and delays, as the invariant asks of a micro-sequence (R18, R42, R64, R89). -/
structure Transfers (p : Params) (bl : Bool) (prog : List MicroOp) : Prop where
  paired : paired p prog = true
  lines : LinesOk p bl prog
  delays : ∀ ms, MicroOp.delay ms ∈ prog → 1 ≤ ms ∧ ms ≤ 65535

/-- What `BlockInv` asks of `SEQ_PROG`. -/
structure Loadable (p : Params) (bl : Bool) (prog : List MicroOp) : Prop where
  framed : Framed p bl prog
  lines : LinesOk p bl prog
  delays : ∀ ms, MicroOp.delay ms ∈ prog → 1 ≤ ms ∧ ms ≤ 65535
  length : prog.length ≤ 1024

section Transfers

variable {p : Params} {bl : Bool}

theorem transfers_nil : Transfers p bl [] :=
  ⟨rfl, by simp [LinesOk], by simp⟩

theorem transfers_append {a b : List MicroOp} (ha : Transfers p bl a) (hb : Transfers p bl b) :
    Transfers p bl (a ++ b) :=
  ⟨paired_append ha.paired hb.paired, linesOk_append ha.lines hb.lines,
    fun ms h => (List.mem_append.mp h).elim (ha.delays ms) (hb.delays ms)⟩

theorem transfers_delay {ms : Nat} (h1 : 1 ≤ ms) (h2 : ms ≤ 65535) : Transfers p bl [.delay ms] :=
  ⟨paired_delay ms, linesOk_delay bl ms, fun n h => by
    obtain rfl : n = ms := by simpa using h
    exact ⟨h1, h2⟩⟩

/-- Bus writes alone wait for nothing. -/
theorem delay_not_mem_writes {ms : Nat} {bs : List Byte} : MicroOp.delay ms ∉ writes bs := by simp [writes]

theorem transfers_writes {bs : List Byte} (hp : paired p (writes bs) = true) (hl : LinesOk p bl (writes bs)) :
    Transfers p bl (writes bs) :=
  ⟨hp, hl, fun _ h => absurd h delay_not_mem_writes⟩

variable (h : p.Wf)
include h

theorem transfers_nibbleXfer (n : Nibble) (rs : Bool) : Transfers p bl (nibbleXfer p bl n rs) :=
  transfers_writes (paired_nibblePair h bl n rs) (linesOk_nibblePair h bl n rs)

theorem transfers_xfer8 (v : Byte) (rs : Bool) : Transfers p bl (xfer8 p bl v rs) :=
  transfers_append (transfers_nibbleXfer h _ rs) (transfers_nibbleXfer h _ rs)

theorem transfers_dataProgram (text : List Byte) : Transfers p bl (dataProgram p bl text) := by
  rw [dataProgram_eq]
  exact transfers_writes (paired_flatMap h bl text) (linesOk_flatMap h bl text)

theorem transfers_clearProgram : Transfers p bl (clearProgram p bl) :=
  transfers_append (transfers_xfer8 h _ _) (transfers_delay (by decide) (by decide))

theorem transfers_homeProgram : Transfers p bl (homeProgram p bl) :=
  transfers_append (transfers_xfer8 h _ _) (transfers_delay (by decide) (by decide))

theorem transfers_fsetStep (n : Nibble) : Transfers p bl (fsetStep p bl n) :=
  transfers_append (transfers_nibbleXfer h _ _) (transfers_delay (by decide) (by decide))

/-- INIT's eight steps (R70), one after the other. -/
theorem transfers_initProgram : Transfers p bl (initProgram p bl) := by
  have powerup : Transfers p bl [.delay tPowerupMs] := transfers_delay (by decide) (by decide)
  have fset8 := transfers_fsetStep (bl := bl) h p.fset8Nibble
  have fset4 := transfers_fsetStep (bl := bl) h p.fset4Nibble
  have cmd (v : Byte) : Transfers p bl (cmdXfer p bl v) := transfers_xfer8 h v false
  exact transfers_append (transfers_append (transfers_append (transfers_append (transfers_append
    (transfers_append (transfers_append (transfers_append (transfers_append powerup fset8) fset8) fset8) fset4)
    (cmd _)) (cmd _)) (cmd _)) (transfers_clearProgram h)) (cmd _)

end Transfers

theorem transfers_waitProgram {p : Params} {bl : Bool} (ms : BitVec 16) : Transfers p bl (waitProgram ms) := by
  unfold waitProgram
  split
  · exact transfers_nil
  next hz =>
    have h0 : ms.toNat ≠ 0 := fun h => hz (BitVec.eq_of_toNat_eq h)
    exact transfers_delay (by omega) (by have := ms.isLt; omega)

theorem Transfers.loadable {p : Params} {bl : Bool} {prog : List MicroOp} (h : Transfers p bl prog)
    (hl : prog.length ≤ 1024) : Loadable p bl prog :=
  ⟨.inl h.paired, h.lines, h.delays, hl⟩

theorem waitProgram_length (ms : BitVec 16) : (waitProgram ms).length ≤ 1 := by
  unfold waitProgram; split <;> simp

theorem dataProgram_length (p : Params) (bl : Bool) (text : List Byte) :
    (dataProgram p bl text).length = 4 * text.length := by
  rw [dataProgram_eq, writes_length, List.length_flatMap]
  simp [Nat.mul_comm]

/-- WSTR's characters end at the right edge of a display of at most 255 columns, so its micro-sequence has at most
`4 + 4 × 255` steps (R25). -/
theorem writeProgram_length {p : Params} {bl : Bool} {cols row col : Byte} {text : List Byte} (h : 1 ≤ col.toNat) :
    (writeProgram p bl cols row col text).length ≤ 1024 := by
  have hcols := cols.isLt
  have hleft : (text.take (columnsLeft cols col)).length ≤ 255 := by
    rw [List.length_take, columnsLeft, origin]; omega
  have hcur (r c : Nat) : (setCurBody p bl r c).length = 4 := rfl
  rw [writeProgram, List.length_append, dataProgram_length, hcur]
  omega

/-- SETBL's micro-sequence, the one that is no nibble transfer (R62). -/
theorem loadable_setbl {p : Params} (h : p.Wf) (bl : Bool) : Loadable p bl [.write (blbits p bl)] where
  framed := .inr rfl
  lines b hb := by
    obtain rfl : b = blbits p bl := by simpa using hb
    have hrw : p.blBit &&& p.rwBit = 0 := mask_and_mask h.bl h.rw (Params.Wf.ne h).2.2.2.2.2.symm
    cases bl with
    | false => simp [blbits]
    | true => simp [blbits, hrw]
  delays _ h := by simp at h
  length := by simp

/-! ## What `exec` does, with what it loads -/

/-- `BL` after acceptance: SETBL writes it, no other request does (R18). -/
def blAfter (i : Instr) (old : Bool) : Bool :=
  match i with
  | .setbl on => nz on
  | _ => old

/-- `CFG_ROWS` and `CFG_COLS` after acceptance: INIT stores them, no other request does (R70). -/
def configAfter (i : Instr) (old : Byte × Byte) : Byte × Byte :=
  match i with
  | .init rows cols => (rows, cols)
  | _ => old

/-- The register writes a request makes at acceptance. -/
def configured (i : Instr) (s : State) : State :=
  { s with
    bl := blAfter i s.bl
    cfgRows := (configAfter i (s.cfgRows, s.cfgCols)).1
    cfgCols := (configAfter i (s.cfgRows, s.cfgCols)).2 }

/-- What accepting a request leads to. -/
inductive Accepted (i : Instr) (s : State) : State → Prop
  | fault (c : FaultCause) : Accepted i s (raiseFault c s)
  | reject (row col : Byte) (hv : validate s.cfgRows s.cfgCols row col ≠ .ok) :
      Accepted i s (rejectRequest (validate s.cfgRows s.cfgCols row col) s)
  | start (prog : List MicroOp) (hl : s.params.Wf → Loadable s.params (blAfter i s.bl) prog)
      (hc : ∀ rows cols, i = .init rows cols → badConfig rows cols = false) :
      Accepted i s (startRequest prog (configured i s))

section Accept

variable {i : Instr} {s u : State}

/-- A request that writes no register at acceptance and fails no check. -/
theorem Accepted.of_transfers {prog : List MicroOp} (hi : configured i s = s) (hn : ∀ rows cols, i ≠ .init rows cols)
    (ht : s.params.Wf → Transfers s.params s.bl prog) (hl : prog.length ≤ 1024) :
    Accepted i s (startRequest prog s) := by
  have := Accepted.start (i := i) (s := s) prog (fun hw => by
      rw [show blAfter i s.bl = s.bl from congrArg State.bl hi]; exact (ht hw).loadable hl)
    (fun rows cols h => absurd h (hn rows cols))
  rwa [hi] at this

/-- The front of WCHAR and WSTR, with a micro-sequence that is short enough at a valid position. -/
theorem Accepted.of_position {row col : Byte} {prog : List MicroOp} (hi : configured i s = s)
    (hn : ∀ rows cols, i ≠ .init rows cols) (ht : s.params.Wf → Transfers s.params s.bl prog)
    (hl : 1 ≤ col.toNat → prog.length ≤ 1024) : Accepted i s (atPosition row col prog s) := by
  by_cases hd : s.initDone = true
  · by_cases hv : validate s.cfgRows s.cfgCols row col = .ok
    · rw [atPosition_valid hd hv]
      exact .of_transfers hi hn ht (hl (validate_eq_ok.mp hv).2.2.1)
    · rw [atPosition_invalid hd hv]
      exact .reject row col hv
  · rw [atPosition_uninitialized (by simpa using hd)]
    exact .fault _

/-- `exec`, request by request. -/
theorem exec_accepted (h : exec i s = .next u) : Accepted i s u := by
  cases i with
  | cmd8 v => cases h; exact .of_transfers rfl (by simp) (fun hw => transfers_nibbleXfer hw _ _) (by simp [nibblePair])
  | cmd4 v => cases h; exact .of_transfers rfl (by simp) (fun hw => transfers_xfer8 hw _ _) (by simp)
  | data4 v => cases h; exact .of_transfers rfl (by simp) (fun hw => transfers_xfer8 hw _ _) (by simp)
  | wait ms =>
    cases h
    exact .of_transfers rfl (by simp) (fun _ => transfers_waitProgram ms) (by have := waitProgram_length ms; omega)
  | setbl on => cases h; exact .start _ (fun hw => loadable_setbl hw _) (by simp)
  | init rows cols =>
    rw [exec, execInit] at h
    split at h
    · cases h; exact .fault _
    next hb =>
      cases h
      exact .start _ (fun hw => (transfers_initProgram hw).loadable (by simp [initProgram, fsetStep, clearProgram, nibblePair]))
        (by rintro _ _ ⟨⟩; simpa using hb)
  | clear => cases h; exact .of_transfers rfl (by simp) transfers_clearProgram (by simp [clearProgram])
  | home => cases h; exact .of_transfers rfl (by simp) transfers_homeProgram (by simp [homeProgram])
  | setcur row0 col0 =>
    rw [exec, execSetcur] at h
    split at h
    · cases h; exact .fault _
    · cases h; exact .of_transfers rfl (by simp) (fun hw => transfers_xfer8 hw _ _) (by simp [setCurBody])
  | wchar ch row col =>
    cases h
    exact .of_position rfl (by simp) (fun hw => transfers_append (transfers_xfer8 hw _ _) (transfers_xfer8 hw _ _))
      (by simp [setCurBody])
  | wstr row col text =>
    cases h
    exact .of_position rfl (by simp)
      (fun hw => transfers_append (transfers_xfer8 hw _ _) (transfers_dataProgram hw _)) writeProgram_length
  | setmode a b c => cases h; exact .of_transfers rfl (by simp) (fun hw => transfers_xfer8 hw _ _) (by simp)

/-- The opcode of a decoded header is the instruction's (R50). -/
theorem opOf_of_decode {hdr : Word} {bytes : List Byte} (h : decode hdr bytes = .ok i) :
    opOf hdr = Laws.OpcodeField.opcode i := by
  rcases decode_ok_cases h with ⟨ho, _, _, rfl⟩ | ⟨ho, _, _, rfl⟩ | ⟨ho, _, _, rfl⟩ | ⟨ho, _, rfl⟩ | ⟨ho, _, _, rfl⟩ |
    ⟨ho, _, rfl⟩ | ⟨ho, _, _, _, rfl⟩ | ⟨ho, _, _, _, rfl⟩ | ⟨ho, _, rfl⟩ | ⟨ho, rfl⟩ | ⟨ho, _, rfl⟩ | ⟨ho, rfl⟩ <;>
    exact ho

/-- INIT's opcode is INIT's alone. -/
theorem opcode_eq_opInit (h : Laws.OpcodeField.opcode i = opInit) : ∃ rows cols, i = .init rows cols := by
  cases i with
  | init rows cols => exact ⟨rows, cols, rfl⟩
  | _ => simp [Laws.OpcodeField.opcode, opInit] at h

/-- SETBL's opcode is SETBL's alone. -/
theorem opcode_eq_opSetbl (h : Laws.OpcodeField.opcode i = opSetbl) : ∃ on, i = .setbl on := by
  cases i with
  | setbl on => exact ⟨on, rfl⟩
  | _ => simp [Laws.OpcodeField.opcode, opSetbl] at h

end Accept

end Sys2Proof.Machine
end

section
/-! # The block's invariant, arm by arm

One lemma per arm of `StepTo`: what the arm leaves keeps `BlockInv`. -/

namespace Sys2Proof.Safety

open Sys2Proof.Machine

variable {s : State}

/-! ## What the invariant says of each state of the sequencer -/

/-- `FAULT` is 0 outside FAULTED. -/
theorem BlockInv.notFaulted (h : BlockInv s) (hs : s.seqState ≠ .faulted) : s.fault = false :=
  Bool.eq_false_iff.mpr fun hf => hs (h.faulted.mp hf)

/-- No delay runs outside BUSY. -/
theorem BlockInv.noDelay (h : BlockInv s) (hs : s.seqState ≠ .busy) : s.delayCnt = 0 :=
  by_contra fun hd => hs (h.delay hd).1

/-- No write is out outside BUSY. -/
theorem BlockInv.noWrite (h : BlockInv s) (hs : s.seqState ≠ .busy) : s.bwOut = false := by
  cases ho : s.bwOut with
  | false => rfl
  | true => exact absurd (h.write ho).1 hs

/-- A held response stands at no micro-operation of a running request. -/
theorem BlockInv.held_no_op (h : BlockInv s) {r : Response} (hr : s.rsp = some r) (hb : s.seqState = .busy) :
    s.seqProg[s.seqStep]? = none := by
  rcases (h.held r hr).2 with hi | ⟨_, hl⟩
  · rw [hi] at hb; cases hb
  · simp [hl]

/-- No delay runs while a response is held. -/
theorem BlockInv.held_noDelay (h : BlockInv s) {r : Response} (hr : s.rsp = some r) : s.delayCnt = 0 := by
  by_contra hd
  obtain ⟨hb, ms, ho, _⟩ := h.delay hd
  rw [h.held_no_op hr hb] at ho; cases ho

/-- No write is out while a response is held. -/
theorem BlockInv.held_noWrite (h : BlockInv s) {r : Response} (hr : s.rsp = some r) : s.bwOut = false := by
  cases hw : s.bwOut with
  | false => rfl
  | true =>
    obtain ⟨hb, b, ho⟩ := h.write hw
    rw [h.held_no_op hr hb] at ho; cases ho

/-- Words are collected in IDLE with no response held, and nowhere else. -/
theorem BlockInv.nothingCollected (h : BlockInv s) (hs : s.seqState ≠ .idle ∨ s.rsp ≠ none) : s.collected = [] := by
  by_contra hc
  obtain ⟨hi, hn, _⟩ := h.collected hc
  exact hs.elim (fun h => h hi) (fun h => h hn)

/-- No delay runs at a `W` step. -/
theorem BlockInv.noDelay_of_write (h : BlockInv s) {b : Byte} (ho : s.seqProg[s.seqStep]? = some (.write b)) :
    s.delayCnt = 0 := by
  by_contra hd
  obtain ⟨_, ms, hm, _⟩ := h.delay hd
  rw [ho] at hm; cases hm

/-- No write is out at a `D` step. -/
theorem BlockInv.noWrite_of_delay (h : BlockInv s) {ms : Nat} (ho : s.seqProg[s.seqStep]? = some (.delay ms)) :
    s.bwOut = false := by
  cases hw : s.bwOut with
  | false => rfl
  | true =>
    obtain ⟨_, b, hb⟩ := h.write hw
    rw [ho] at hb; cases hb

/-- The counter of a delay of `SEQ_PROG` fits (R7). -/
theorem BlockInv.delay_fits (h : BlockInv s) {ms : Nat} (ho : s.seqProg[s.seqStep]? = some (.delay ms)) :
    ms * s.params.clkPerMs < 2 ^ s.params.dlyW :=
  Nat.lt_of_le_of_lt (Nat.mul_le_mul_right _ (h.delays ms (List.mem_of_getElem? ho)).2) h.params.dlyWide

end Sys2Proof.Safety

namespace Sys2Proof.Machine

open Sys2Proof.Safety

variable {s : State}

/-- A running micro-operation is inside `SEQ_PROG`. -/
theorem seqStep_lt {o : MicroOp} (ho : s.seqProg[s.seqStep]? = some o) : s.seqStep < s.seqProg.length :=
  (List.getElem?_eq_some_iff.mp ho).1

/-! ## Reset -/

/-- Whatever the block was doing, reset leaves the invariant, if the parameters and the transport keep their part. -/
theorem blockInv_resetBlock (hp : s.params.Wf)
    (ha : ∀ e l, Answer.err e l ∈ s.env.answers → e < 2 ^ s.params.terrW) : BlockInv (resetBlock s) where
  params := hp
  faulted := by simp
  cause := rfl
  status := by simp
  config h := by simp at h
  stepRange := Nat.le_refl _
  progLength := by simp
  framed := .inl rfl
  lines := by simp [LinesOk]
  delays := by simp
  delay h := absurd rfl h
  delayFits := Nat.two_pow_pos _
  write h := by simp at h
  held r h := by simp at h
  terr := hp.terrFits
  answers := ha
  collected h := absurd rfl h

/-- The state after reset is one that a reset edge leaves as it is. -/
theorem resetBlock_resetOf (p : Params) : resetBlock (State.resetOf p) = State.resetOf p := rfl

theorem blockInv_resetOf {p : Params} (hp : p.Wf) : BlockInv (State.resetOf p) := by
  rw [← resetBlock_resetOf]
  exact blockInv_resetBlock hp (fun e l h => by simp [State.resetOf] at h)

/-! ## IDLE, FAULTED and a held response -/

theorem blockInv_samplePins (h : BlockInv s) : BlockInv (samplePins s) := { h with }

theorem blockInv_releaseResponse (h : BlockInv s) (hf : s.seqState ≠ .faulted) {r : Response} (hr : s.rsp = some r) :
    BlockInv (releaseResponse s) :=
  { h with
    faulted := by simp [h.notFaulted hf]
    config := fun hc => h.config (hc.imp_right fun hb => by simp at hb)
    delay := fun hd => absurd (h.held_noDelay hr) hd
    write := fun ho => by cases (h.held_noWrite hr).symm.trans ho
    held := fun r hn => by simp at hn
    collected := fun hc => absurd (h.nothingCollected (.inr (by simp [hr]))) hc }

/-- A word of a request whose last word is still to come. -/
theorem blockInv_collect (h : BlockInv s) (hi : s.seqState = .idle) (hr : s.rsp = none) {w : Word} {rest : List Word}
    (hl : (s.collected ++ [w]).tail.length < payloadWords (s.collected.headD w)) :
    BlockInv { takeWord rest s with collected := s.collected ++ [w] } :=
  { h with
    collected := fun _ => ⟨hi, hr, by
      have hd : (s.collected ++ [w]).headD 0 = s.collected.headD w := by cases s.collected <;> rfl
      have hn : (s.collected ++ [w]).length = (s.collected ++ [w]).tail.length + 1 := by simp
      rw [hd, hn]; exact hl⟩ }

/-- The last word of a request. -/
theorem blockInv_latchRequest (h : BlockInv s) (hi : s.seqState = .idle) (hdr : Word) (ps rest : List Word) :
    BlockInv (latchRequest hdr ps (takeWord rest s)) :=
  { h with
    config := fun hc => h.config (hc.imp_right fun hb => by simp [hi] at hb)
    collected := fun hc => absurd rfl hc }

/-- A fault is raised in IDLE, at the last word of a request (R81). -/
theorem blockInv_raiseFault (h : BlockInv s) (hi : s.seqState = .idle) (hr : s.rsp = none) (hc : s.collected = [])
    (c : FaultCause) : BlockInv (raiseFault c s) :=
  { h with
    faulted := by simp
    cause := by
      rw [raiseFault_fault, if_pos rfl, raiseFault_faultCause, if_neg (by simp [h.notFaulted (by simp [hi])])]
      cases c <;> decide
    config := fun hx => h.config (hx.imp_right fun hb => by simp at hb)
    delay := fun hd => absurd (h.noDelay (by simp [hi])) hd
    write := fun ho => by cases (h.noWrite (by simp [hi])).symm.trans ho
    held := fun r hn => by simp [hr] at hn
    collected := fun hn => absurd hc hn }

/-- Every status has one of R77's codes. -/
theorem status_code_mem (st : Status) : st.code ∈ ([0x00, 0x01, 0x02, 0x03, 0x04, 0x05] : List Byte) := by
  cases st <;> decide

theorem blockInv_rejectRequest (h : BlockInv s) (hi : s.seqState = .idle) (hc : s.collected = []) (st : Status) :
    BlockInv (rejectRequest st s) :=
  { h with
    status := status_code_mem st
    held := fun r hr => ⟨by simpa using hr.symm, .inl hi⟩
    collected := fun hn => absurd hc hn }

/-- INIT's operands pass its check exactly when they are in range (R70). -/
theorem badConfig_eq_false {rows cols : Byte} :
    badConfig rows cols = false ↔ 1 ≤ rows.toNat ∧ rows.toNat ≤ 4 ∧ 1 ≤ cols.toNat := by
  simp only [badConfig, Bool.or_eq_false_iff, decide_eq_false_iff_not]
  omega

/-- After an INIT that is accepted, and after every other request once INIT has ended, the configuration is in range. -/
theorem configAfter_inRange (h : BlockInv s) {i : Instr} (hop : opOf s.reqWord = Laws.OpcodeField.opcode i)
    (hb : ∀ rows cols, i = .init rows cols → badConfig rows cols = false)
    (hd : s.initDone = true ∨ opOf s.reqWord = opInit) :
    1 ≤ (configured i s).cfgRows.toNat ∧ (configured i s).cfgRows.toNat ≤ 4 ∧ 1 ≤ (configured i s).cfgCols.toNat := by
  cases i with
  | init rows cols => exact badConfig_eq_false.mp (hb rows cols rfl)
  | _ =>
    refine h.config (.inl (hd.resolve_right fun ho => ?_))
    obtain ⟨_, _, hx⟩ := opcode_eq_opInit (hop.symm.trans ho)
    cases hx

/-- A request that starts: its register writes and its micro-sequence. -/
theorem blockInv_startRequest (h : BlockInv s) (hi : s.seqState = .idle) (hr : s.rsp = none) (hc : s.collected = [])
    {i : Instr} (hop : opOf s.reqWord = Laws.OpcodeField.opcode i) {prog : List MicroOp}
    (hl : Loadable s.params (blAfter i s.bl) prog)
    (hb : ∀ rows cols, i = .init rows cols → badConfig rows cols = false) :
    BlockInv (startRequest prog (configured i s)) :=
  { h with
    faulted := by simp [configured, h.notFaulted (by simp [hi])]
    status := by simp
    config := fun hd => configAfter_inRange h hop hb (hd.imp_right And.right)
    stepRange := Nat.zero_le _
    progLength := hl.length
    framed := hl.framed
    lines := hl.lines
    delays := hl.delays
    delay := fun hd => absurd (h.noDelay (by simp [hi])) hd
    write := fun ho => by cases (h.noWrite (by simp [hi])).symm.trans ho
    held := fun r hn => by cases hr.symm.trans hn
    collected := fun hn => absurd hc hn }

/-- Accepting a request, whatever it leads to. -/
theorem blockInv_exec (h : BlockInv s) (hi : s.seqState = .idle) (hr : s.rsp = none) (hc : s.collected = [])
    {i : Instr} (hop : opOf s.reqWord = Laws.OpcodeField.opcode i) {u : State} (hu : exec i s = .next u) : BlockInv u := by
  cases exec_accepted hu with
  | fault c => exact blockInv_raiseFault h hi hr hc c
  | reject row col => exact blockInv_rejectRequest h hi hc _
  | start prog hl hb => exact blockInv_startRequest h hi hr hc hop (hl h.params) hb

/-! ## BUSY -/

/-- The transport takes the write, if it has not taken it already. -/
def taken (b : Byte) (s : State) : State :=
  { s with bwOut := true, trace := s.trace ++ if s.bwOut then [] else [.tx s.params.devAddr b] }

/-- `taken` is the first half of a `W` step. -/
theorem ite_issueWrite_eq_taken (b : Byte) (s : State) : (if s.bwOut then s else issueWrite b s) = taken b s := by
  cases s with
  | mk => split <;> simp_all [taken, issueWrite, emit]

theorem blockInv_taken (h : BlockInv s) (hb : s.seqState = .busy) {b : Byte}
    (ho : s.seqProg[s.seqStep]? = some (.write b)) : BlockInv (taken b s) :=
  { h with write := fun _ => ⟨hb, b, ho⟩ }

theorem answer_terr_lt {a : Answer} {old bound : TErr} (ho : old < bound) (ha : ∀ e l, a = .err e l → e < bound) :
    a.terr old < bound := by
  cases a with
  | ok => exact ho
  | err e l => exact ha e l rfl

theorem blockInv_answerWrite (h : BlockInv s) (hr : s.rsp = none) {b : Byte}
    (ho : s.seqProg[s.seqStep]? = some (.write b)) {a : Answer} {rest : List Answer}
    (ha : s.env.answers = a :: rest) : BlockInv (advance (answerWrite b a rest s)) :=
  { h with
    status := status_code_mem a.status
    stepRange := seqStep_lt ho
    delay := fun hd => absurd (h.noDelay_of_write ho) hd
    write := fun hw => by simp at hw
    held := fun r hn => by simp [hr] at hn
    terr := answer_terr_lt h.terr fun e l he => h.answers e l (by simp [ha, he])
    answers := fun e l hm => h.answers e l (by rw [ha]; exact .tail _ hm) }

/-- A delay ends: the counter is 0 and the next step begins. -/
theorem blockInv_delay_done (h : BlockInv s) (hr : s.rsp = none) {ms : Nat}
    (ho : s.seqProg[s.seqStep]? = some (.delay ms)) : BlockInv (advance { s with delayCnt := 0 }) :=
  { h with
    stepRange := seqStep_lt ho
    delay := fun hd => absurd rfl hd
    delayFits := Nat.two_pow_pos _
    write := fun hw => by cases (h.noWrite_of_delay ho).symm.trans hw
    held := fun r hn => by simp [hr] at hn }

/-- A delay runs: the counter is within its load. -/
theorem blockInv_delay_running (h : BlockInv s) (hb : s.seqState = .busy) {ms : Nat}
    (ho : s.seqProg[s.seqStep]? = some (.delay ms)) {c : Nat} (hc : c ≤ ms * s.params.clkPerMs) :
    BlockInv { s with delayCnt := c } :=
  { h with
    delay := fun _ => ⟨hb, ms, ho, hc⟩
    delayFits := Nat.lt_of_le_of_lt hc (h.delay_fits ho) }

/-- Nothing the invariant speaks of is in the trace. -/
theorem blockInv_emit (h : BlockInv s) (e : Event) : BlockInv (emit e s) := { h with }

/-- A `D` step: the counter is loaded, runs, or ends. -/
theorem blockInv_delayStep (h : BlockInv s) (hb : s.seqState = .busy) (hr : s.rsp = none) {ms : Nat}
    (ho : s.seqProg[s.seqStep]? = some (.delay ms)) : BlockInv (delayStep ms s) := by
  rcases hc : s.delayCnt with _ | _ | n
  · by_cases hz : ms * s.params.clkPerMs = 0
    · rw [delayStep_zero hc hz]
      exact blockInv_emit (blockInv_delay_done h hr ho) _
    · rw [delayStep_start hc hz]
      exact blockInv_emit (blockInv_delay_running h hb ho (Nat.le_refl _)) _
  · rw [delayStep_last hc]
    exact blockInv_delay_done h hr ho
  · rw [delayStep_tick hc]
    obtain ⟨_, ms', ho', hle⟩ := h.delay (by omega)
    obtain rfl : ms' = ms := by simpa using ho'.symm.trans ho
    exact blockInv_delay_running h hb ho (by omega)

/-- A `W` step: not taken, taken, or answered. -/
theorem blockInv_busWriteStep (h : BlockInv s) (hb : s.seqState = .busy) (hr : s.rsp = none) {b : Byte}
    (ho : s.seqProg[s.seqStep]? = some (.write b)) (p : Pins) : BlockInv (busWriteStep p b s) := by
  have ht := blockInv_taken h hb ho
  rcases busWriteStep_cases p b s with ⟨_, _, he⟩ | ⟨_, _, he⟩ | ⟨a, rest, _, _, ha, he⟩ <;>
    simp only [he, ite_issueWrite_eq_taken]
  · exact h
  · exact ht
  · exact blockInv_answerWrite ht hr ho ha

/-- The completion: an INIT that ends has left its operands, in range, in `CFG_ROWS` and `CFG_COLS`. -/
theorem blockInv_completeRequest (h : BlockInv s) (hb : s.seqState = .busy) (hl : s.seqStep = s.seqProg.length) :
    BlockInv (completeRequest s) :=
  { h with
    config := fun hc => h.config (by
      rcases hc with hc | hc
      · simp only [completeRequest_initDone, Bool.or_eq_true, beq_iff_eq] at hc
        exact hc.imp_right fun ho => ⟨hb, ho⟩
      · exact .inr hc)
    held := fun r hr => ⟨by simpa using hr.symm, .inr ⟨hb, hl⟩⟩
    collected := fun hc => absurd (h.nothingCollected (.inl (by simp [hb]))) hc }

/-! ## The step -/

theorem blockInv_latched (h : BlockInv s) (hi : s.seqState = .idle) (w : Word) (rest : List Word) :
    BlockInv (latched s w rest) :=
  blockInv_latchRequest (blockInv_samplePins h) hi _ _ _

/-- Every step keeps the invariant, whichever arm it takes. -/
theorem step_keeps_blockInv {s' : State} (h : BlockInv s) (hs : step s = .next s') : BlockInv s' := by
  have hp := blockInv_samplePins h
  cases step_next_cases hs with
  | reset => exact blockInv_resetBlock h.params h.answers
  | faulted | held | noWord => exact hp
  | released _ hf r hr => exact blockInv_releaseResponse hp hf hr
  | collect _ hi hr _ w rest _ hl => exact blockInv_collect hp hi hr hl
  | illegal _ hi hr _ w rest => exact blockInv_raiseFault (blockInv_latched h hi w rest) hi hr rfl _
  | accept _ hi hr _ w rest _ _ i hd _ hu =>
    exact blockInv_exec (blockInv_latched h hi w rest) hi hr rfl (opOf_of_decode hd) hu
  | write _ hb hr b ho => exact blockInv_busWriteStep hp hb hr ho _
  | delay _ hb hr ms ho => exact blockInv_delayStep hp hb hr ho
  | complete _ hb _ hl => exact blockInv_completeRequest hp hb hl

/-- Settles O13: one lemma per arm of R26 and R94. -/
theorem everyStepKeepsTheInvariant : Obligations.EveryStepKeepsTheInvariant :=
  fun _ _ h hs => step_keeps_blockInv h hs

/-! ## Reset and progress -/

theorem defaultParams_wf : defaultParams.Wf where
  en := by decide
  rs := by decide
  rw := by decide
  bl := by decide
  distinct := by decide
  dlyWide := by decide
  terrFits := by decide

/-- Settles O12: in IDLE the trace is free, and the rest is `blockInv_resetOf`. -/
theorem invariantsHoldAtReset : Obligations.InvariantsHoldAtReset :=
  ⟨fun _ hp => ⟨blockInv_resetOf hp, fun hb => by cases hb⟩, blockInv_resetOf defaultParams_wf⟩

/-- A step answers a next state, or stops in BUSY past the end of the micro-sequence (log entry 16). -/
theorem step_next_or_pastEnd (s : State) :
    (∃ s', step s = .next s') ∨
    (resetAsserted s = false ∧ s.seqState = .busy ∧ s.rsp = none ∧ s.seqProg.length < s.seqStep ∧
      step s = .fault .seqStepPastEnd) := by
  cases hr : resetAsserted s with
  | true => exact .inl ⟨_, step_reset hr⟩
  | false =>
  by_cases hf : s.seqState = .faulted
  · exact .inl ⟨_, step_faulted hr hf⟩
  cases hp : s.rsp with
  | some r => exact .inl ⟨_, step_held hr hf hp⟩
  | none =>
  cases hq : s.seqState with
  | faulted => exact absurd hq hf
  | idle =>
    left
    by_cases hw : hostPresents s = false ∨ s.env.reqIn = []
    · exact ⟨_, step_noWord hr hq hp hw⟩
    obtain ⟨hpr, hne⟩ := not_or.mp hw
    obtain ⟨w, rest, hin⟩ := List.exists_cons_of_ne_nil hne
    rw [step_word hr hq hp (by simpa using hpr) hin, decideRequest]
    split
    · exact ⟨_, rfl⟩
    · split
      · exact exec_next _ _
      · exact ⟨_, rfl⟩
  | busy =>
    cases ho : s.seqProg[s.seqStep]? with
    | some o =>
      cases o with
      | write b => exact .inl ⟨_, step_write hr hq hp ho⟩
      | delay ms => exact .inl ⟨_, step_delay hr hq hp ho⟩
    | none =>
      by_cases hl : s.seqStep = s.seqProg.length
      · exact .inl ⟨_, step_complete hr hq hp hl⟩
      · have hle := List.getElem?_eq_none_iff.mp ho
        exact .inr ⟨rfl, rfl, rfl, by omega, by simp [step, sequencerStep, hr, hq, hp, busyStep, ho, hl]⟩

/-- Settles O14: the invariant keeps `SEQ_STEP` within the micro-sequence. -/
theorem everyStepAnswersNext : Obligations.EveryStepAnswersNext := by
  intro s h
  rcases step_next_or_pastEnd s with hn | ⟨_, _, _, hl, _⟩
  · exact hn
  · exact absurd h.stepRange (by omega)

end Sys2Proof.Machine
end

section
/-! # Registers over a step

What each shared operation leaves alone, then R18's, R19's and R25's registers over one step. -/

namespace Sys2Proof.Machine

open Sys2Proof.Safety

variable {s s' : State}

/-! ## Frames -/

section Frames

variable (p : Pins) (b : Byte) (ms : Nat) (s : State)

@[simp] theorem busWriteStep_bl : (busWriteStep p b s).bl = s.bl := by
  obtain ⟨_, _, _, _, _, _, _, _, h⟩ := busWriteStep_writes p b s; rw [h]
@[simp] theorem busWriteStep_initDone : (busWriteStep p b s).initDone = s.initDone := by
  obtain ⟨_, _, _, _, _, _, _, _, h⟩ := busWriteStep_writes p b s; rw [h]
@[simp] theorem busWriteStep_seqState : (busWriteStep p b s).seqState = s.seqState := by
  obtain ⟨_, _, _, _, _, _, _, _, h⟩ := busWriteStep_writes p b s; rw [h]
@[simp] theorem busWriteStep_seqProg : (busWriteStep p b s).seqProg = s.seqProg := by
  obtain ⟨_, _, _, _, _, _, _, _, h⟩ := busWriteStep_writes p b s; rw [h]

theorem busWriteStep_seqStep :
    (busWriteStep p b s).seqStep = s.seqStep ∨ (busWriteStep p b s).seqStep = s.seqStep + 1 := by
  obtain ⟨_, _, _, _, _, _, _, hn, h⟩ := busWriteStep_writes p b s; rw [h]; exact hn

@[simp] theorem delayStep_bl : (delayStep ms s).bl = s.bl := by
  obtain ⟨_, _, _, _, _, h⟩ := delayStep_writes ms s; rw [h]
@[simp] theorem delayStep_initDone : (delayStep ms s).initDone = s.initDone := by
  obtain ⟨_, _, _, _, _, h⟩ := delayStep_writes ms s; rw [h]
@[simp] theorem delayStep_seqState : (delayStep ms s).seqState = s.seqState := by
  obtain ⟨_, _, _, _, _, h⟩ := delayStep_writes ms s; rw [h]
@[simp] theorem delayStep_seqProg : (delayStep ms s).seqProg = s.seqProg := by
  obtain ⟨_, _, _, _, _, h⟩ := delayStep_writes ms s; rw [h]
@[simp] theorem delayStep_ghost : (delayStep ms s).ghost = s.ghost := by
  obtain ⟨_, _, _, _, _, h⟩ := delayStep_writes ms s; rw [h]

theorem delayStep_seqStep : (delayStep ms s).seqStep = s.seqStep ∨ (delayStep ms s).seqStep = s.seqStep + 1 := by
  obtain ⟨_, _, _, hn, _, h⟩ := delayStep_writes ms s; rw [h]; exact hn

end Frames

section AcceptedFrames

variable {i : Instr} {u : State} (h : Accepted i s u)
include h

theorem Accepted.reqWord : u.reqWord = s.reqWord := by cases h <;> rfl
theorem Accepted.initDone : u.initDone = s.initDone := by cases h <;> rfl
theorem Accepted.ghost : u.ghost = s.ghost := by cases h <;> rfl

/-- Only a request that starts leaves IDLE for BUSY. -/
theorem Accepted.busy (hi : s.seqState = .idle) (hb : u.seqState = .busy) :
    u.seqStep = 0 ∧ u.bl = blAfter i s.bl := by
  cases h with
  | fault c => cases hb
  | reject => cases hi.symm.trans hb
  | start => exact ⟨rfl, rfl⟩

/-- A request that does not start moves neither `SEQ_STEP` nor `BL`. -/
theorem Accepted.notBusy (hb : u.seqState ≠ .busy) : u.seqStep = s.seqStep ∧ u.bl = s.bl := by
  cases h with
  | fault | reject => exact ⟨rfl, rfl⟩
  | start => exact absurd rfl hb

/-- Acceptance writes nothing to the bus. -/
theorem Accepted.no_tx : ∃ evs, u.trace = s.trace ++ evs ∧ ∀ a b, Event.tx a b ∉ evs := by
  cases h with
  | fault c => exact ⟨[.flt c.code], rfl, by simp⟩
  | reject => exact ⟨[.rsp _], rfl, by simp⟩
  | start => exact ⟨[], by simp [configured], by simp⟩

end AcceptedFrames

/-! ## The trace of bus writes -/

/-- A `W` step emits `Tx` of its own byte to `DEV_ADDR` at most. -/
theorem busWriteStep_tx (p : Pins) (b : Byte) (s : State) :
    ∃ evs, (busWriteStep p b s).trace = s.trace ++ evs ∧
      ∀ a b', Event.tx a b' ∈ evs → a = s.params.devAddr ∧ b' = b := by
  rcases busWriteStep_cases p b s with ⟨_, _, h⟩ | ⟨_, _, h⟩ | ⟨a, rest, _, _, _, h⟩ <;>
    simp only [h, ite_issueWrite_eq_taken]
  · exact ⟨[], by simp, by simp⟩
  · exact ⟨_, rfl, fun a b' hm => by split at hm <;> simp_all⟩
  · exact ⟨(if s.bwOut then [] else [.tx s.params.devAddr b]) ++ [.ans a], by simp [taken],
      fun a b' hm => by split at hm <;> simp_all⟩

theorem latched_trace (w : Word) (rest : List Word) :
    (latched s w rest).trace = s.trace ++ [.req (s.collected.headD w)] := rfl

/-- A step emits `Tx` only for a byte of `SEQ_PROG`. -/
theorem step_tx (h : step s = .next s') :
    ∃ evs, s'.trace = s.trace ++ evs ∧
      ∀ a b, Event.tx a b ∈ evs → a = s.params.devAddr ∧ MicroOp.write b ∈ s.seqProg := by
  cases step_next_cases h with
  | reset | faulted | held | noWord | released | collect => exact ⟨[], by simp, by simp⟩
  | illegal _ _ _ _ w rest =>
    exact ⟨[.req _, .flt _], by simp only [raiseFault_trace, latched_trace, List.append_assoc]; rfl, by simp⟩
  | accept _ _ _ _ w rest _ _ i _ u hu =>
    obtain ⟨evs, ht, hn⟩ := (exec_accepted hu).no_tx
    exact ⟨.req _ :: evs, by simp only [ht, latched_trace, List.append_assoc]; rfl, by simp [hn]⟩
  | write _ _ _ b ho =>
    obtain ⟨evs, ht, hx⟩ := busWriteStep_tx (pinsNow s) b (samplePins s)
    refine ⟨evs, ht, fun a b' hm => ?_⟩
    obtain ⟨ha, rfl⟩ := hx a b' hm
    exact ⟨ha, List.mem_of_getElem? ho⟩
  | delay _ _ _ ms =>
    obtain ⟨_, _, evs, _, hev, ht⟩ := delayStep_writes ms (samplePins s)
    exact ⟨evs, by rw [ht]; rfl, by rcases hev with rfl | rfl <;> simp⟩
  | complete => exact ⟨[.rsp _], rfl, by simp⟩

/-! ## `BL` (R18) -/

/-- SETBL's operand is field C (R48). -/
theorem decode_setbl {hdr : Word} {bytes : List Byte} {on : Byte} (h : decode hdr bytes = .ok (.setbl on)) :
    on = cOf hdr := by
  have hc := decode_ok_cases h
  simp only [reduceCtorEq, and_false, false_or, or_false, Instr.setbl.injEq] at hc
  exact hc.2.2.2

theorem blAfter_of_ne {i : Instr} (h : Laws.OpcodeField.opcode i ≠ opSetbl) (old : Bool) : blAfter i old = old := by
  cases i with
  | setbl on => exact absurd rfl h
  | _ => rfl

/-- The step that takes a request is the one that goes from IDLE to BUSY. -/
theorem step_starts (h : step s = .next s') (hi : s.seqState = .idle)
    (hb : s'.seqState = .busy) :
    s'.seqStep = 0 ∧ ∃ i bytes, decode s'.reqWord bytes = .ok i ∧ s'.bl = blAfter i s.bl := by
  cases step_next_cases h with
  | reset | illegal | released => cases hb
  | faulted | held | noWord | collect => cases hi.symm.trans hb
  | accept _ _ _ _ w rest _ _ i hd _ hu =>
    have ha := exec_accepted hu
    obtain ⟨h0, hbl⟩ := ha.busy hi hb
    exact ⟨h0, i, _, ha.reqWord ▸ hd, hbl⟩
  | write _ hb' | delay _ hb' | complete _ hb' => cases hi.symm.trans hb'

/-- No other step without a reset writes `BL`. -/
theorem step_bl (h : step s = .next s') (hr : resetAsserted s = false)
    (hn : ¬ (s.seqState = .idle ∧ s'.seqState = .busy)) : s'.bl = s.bl := by
  cases step_next_cases h with
  | reset hr' => cases hr.symm.trans hr'
  | faulted | held | noWord | released | collect | illegal | complete => rfl
  | accept _ hi _ _ w rest _ _ i hd _ hu => exact ((exec_accepted hu).notBusy fun hb => hn ⟨hi, hb⟩).2
  | write => exact busWriteStep_bl _ _ _
  | delay => exact delayStep_bl _ _

/-- Settles O18: a `Tx` is a byte of `SEQ_PROG`, which carries `BL`; `BL` changes with a request that starts, and SETBL's
alone. -/
theorem onlySetblAndResetWriteTheBacklight : Obligations.OnlySetblAndResetWriteTheBacklight := by
  intro s s' hinv hs
  refine ⟨fun evs he a b hm => ?_, fun hr => ?_, fun hr hi hb hop => ?_, fun hr hn => ?_⟩
  · obtain ⟨evs', he', hx⟩ := step_tx hs
    obtain rfl : evs = evs' := List.append_cancel_left (he.symm.trans he')
    exact (hinv.lines b (hx a b hm).2).1
  · rw [step_reset hr] at hs; cases hs; rfl
  · obtain ⟨_, i, bytes, hd, hbl⟩ := step_starts hs hi hb
    obtain ⟨on, rfl⟩ := opcode_eq_opSetbl ((opOf_of_decode hd).symm.trans hop)
    rw [hbl, ← decode_setbl hd]
    simp [blAfter, nz, bne, beq_eq_decide]
  · by_cases hib : s.seqState = .idle ∧ s'.seqState = .busy
    · obtain ⟨_, i, bytes, hd, hbl⟩ := step_starts hs hib.1 hib.2
      rw [hbl]
      exact blAfter_of_ne (fun ho => hn ⟨hib.1, hib.2, (opOf_of_decode hd).trans ho⟩) _
    · exact step_bl hs hr hib

/-! ## `INIT_DONE` (R19) -/

/-- At this step the block completes a request. -/
def Completes (s : State) : Prop := s.seqState = .busy ∧ s.rsp = none ∧ s.seqStep = s.seqProg.length

/-- No other step without a reset writes `INIT_DONE`. -/
theorem step_initDone (h : step s = .next s') (hr : resetAsserted s = false) (hn : ¬ Completes s) :
    s'.initDone = s.initDone := by
  cases step_next_cases h with
  | reset hr' => cases hr.symm.trans hr'
  | faulted | held | noWord | released | collect | illegal => rfl
  | accept _ _ _ _ _ _ _ _ _ _ _ hu => exact (exec_accepted hu).initDone
  | write => exact busWriteStep_initDone _ _ _
  | delay => exact delayStep_initDone _ _
  | complete _ hb hn' hl => exact absurd ⟨hb, hn', hl⟩ hn

/-- Settles O19: reset clears `INIT_DONE`, the completion of an INIT sets it, and no other step writes it. -/
theorem onlyResetClearsInitDone : Obligations.OnlyResetClearsInitDone := by
  refine ⟨fun _ => rfl, fun s s' hs => ?_⟩
  cases hr : resetAsserted s with
  | true => rw [step_reset hr] at hs; cases hs; rfl
  | false =>
    rw [if_neg (by simp)]
    by_cases hc : Completes s
    · obtain ⟨hb, hn, hl⟩ := hc
      rw [step_complete hr hb hn hl] at hs; cases hs
      simp [hb, hn, hl, opInit, beq_eq_decide]
    · rw [step_initDone hs hr hc, decide_eq_false fun h => hc ⟨h.1, h.2.1, h.2.2.1⟩, Bool.or_false]

/-! ## `SEQ_STEP` (R15, R25) -/

/-- In BUSY a step leaves `SEQ_STEP`, or adds 1 to it inside the micro-sequence. -/
theorem step_seqStep_busy (h : step s = .next s') (hr : resetAsserted s = false) (hb : s.seqState = .busy) :
    s'.seqStep = s.seqStep ∨ (s'.seqStep = s.seqStep + 1 ∧ s.seqStep < s.seqProg.length ∧ s'.seqProg = s.seqProg) := by
  cases step_next_cases h with
  | reset hr' => cases hr.symm.trans hr'
  | faulted | held | noWord | released | complete => exact .inl rfl
  | collect _ hi | illegal _ hi | accept _ hi => cases hi.symm.trans hb
  | write _ _ _ b ho =>
    exact (busWriteStep_seqStep _ b (samplePins s)).imp_right fun hn => ⟨hn, seqStep_lt ho, busWriteStep_seqProg _ _ _⟩
  | delay _ _ _ ms ho =>
    exact (delayStep_seqStep ms (samplePins s)).imp_right fun hn => ⟨hn, seqStep_lt ho, delayStep_seqProg _ _⟩

/-- A step that does not end in BUSY leaves `SEQ_STEP`. -/
theorem step_seqStep_of_not_busy (h : step s = .next s') (hr : resetAsserted s = false) (hb : s'.seqState ≠ .busy) :
    s'.seqStep = s.seqStep := by
  cases step_next_cases h with
  | reset hr' => cases hr.symm.trans hr'
  | faulted | held | noWord | released | collect | illegal | complete => rfl
  | accept _ _ _ _ w rest _ _ _ _ _ hu => exact ((exec_accepted hu).notBusy hb).1
  | write _ hb' => exact absurd ((busWriteStep_seqState _ _ (samplePins s)).trans hb') hb
  | delay _ hb' => exact absurd ((delayStep_seqState _ (samplePins s)).trans hb') hb

/-- Settles O21: a `W` or `D` step adds at most 1, a request that starts begins at 0, and the invariant bounds it. -/
theorem seqStepAdvancesByOne : Obligations.SeqStepAdvancesByOne := by
  intro s s' hinv hs
  have hle := hinv.stepRange
  have hlen := hinv.progLength
  refine ⟨by omega, fun hr => ⟨step_seqStep_busy hs hr, fun hi hb => (step_starts hs hi hb).1, fun hb => ?_⟩⟩
  exact step_seqStep_of_not_busy hs hr (by rcases hb with hb | hb <;> simp [hb])

/-! ## The step that decides a request, and the constants -/

/-- Settles O7: the words collected and the last one are the request's words, so the step is `step_last`. -/
theorem stepRunsTheDecodedRequest : Obligations.StepRunsTheDecodedRequest := by
  intro s w rest i hr hi hn hp hw hd
  obtain ⟨hdr, ps, hws, hhd⟩ : ∃ hdr ps, s.collected ++ [w] = hdr :: ps ∧ s.collected.headD w = hdr := by
    cases s.collected with
    | nil => exact ⟨w, [], rfl, rfl⟩
    | cons hdr ps => exact ⟨hdr, ps ++ [w], rfl, rfl⟩
  rw [hws] at hd
  have hl : ps.length = payloadWords hdr := by
    by_contra hne
    rw [decodeWords, if_neg hne] at hd
    cases hd
  rw [step_last hr hi hn hp hw hws hhd hl, hhd, hws, decideRequest, latchRequest_reqWord, decode_latchRequest hl, hd]
  rfl

/-- Settles O10. -/
theorem resetStateHasTheResetValues : Obligations.ResetStateHasTheResetValues :=
  fun _ => ⟨rfl, rfl, rfl, rfl, rfl, rfl, rfl, rfl, rfl, ⟨rfl, rfl, rfl, rfl, rfl, rfl⟩, rfl, rfl, rfl⟩

/-- Settles O11. -/
theorem rowBaseTableIsConstant : Obligations.RowBaseTableIsConstant := ⟨rfl, rfl, rfl, rfl⟩

end Sys2Proof.Machine
end

section
/-! # The state outside the block

The block never reads the ghost state, and changes it at a reset and at the answer to a write only (R29, log entries 12
and 21). -/

namespace Sys2Proof.Machine

open Sys2Proof.Safety

variable {s s' : State}

/-! ## The block never reads it -/

/-- Each arm of `StepTo` is what `step` does under the arm's conditions. -/
theorem StepTo.step_eq (h : StepTo s s') : step s = .next s' := by
  cases h with
  | reset hr => exact step_reset hr
  | faulted hr hf => exact step_faulted hr hf
  | held hr hf r hp hn => rw [step_held hr hf hp, if_neg (by simp [hn])]
  | released hr hf r hp hn => rw [step_held hr hf hp, if_pos hn]
  | noWord hr hi hp hw => exact step_noWord hr hi hp hw
  | collect hr hi hp hpr w rest hw hl => rw [step_word hr hi hp hpr hw, if_pos hl]
  | illegal hr hi hp hpr w rest hw hl e hd => rw [step_word hr hi hp hpr hw, if_neg hl, decideRequest, hd]
  | accept hr hi hp hpr w rest hw hl i hd _ hu => rw [step_word hr hi hp hpr hw, if_neg hl, decideRequest, hd, ← hu]
  | write hr hb hp b ho => exact step_write hr hb hp ho
  | delay hr hb hp ms ho => exact step_delay hr hb hp ho
  | complete hr hb hp hl => exact step_complete hr hb hp hl

/-- `s` with another state outside the block. -/
def withGhost (g : Ghost) (s : State) : State := { s with ghost := g }

/-- WCHAR's and WSTR's checks do not read the ghost state. -/
theorem atPosition_withGhost (g : Ghost) (row col : Byte) (prog : List MicroOp) (s : State) :
    atPosition row col prog (withGhost g s) = withGhost g (atPosition row col prog s) := by
  by_cases hd : s.initDone = true
  · by_cases hv : validate s.cfgRows s.cfgCols row col = .ok
    · rw [atPosition_valid hd hv]; exact atPosition_valid hd hv
    · rw [atPosition_invalid hd hv]; exact atPosition_invalid hd hv
  · have hd : s.initDone = false := by simpa using hd
    rw [atPosition_uninitialized hd]; exact atPosition_uninitialized hd

theorem exec_withGhost (g : Ghost) {i : Instr} {u : State} (h : exec i s = .next u) :
    exec i (withGhost g s) = .next (withGhost g u) := by
  cases i with
  | init rows cols =>
    rw [exec, execInit] at h ⊢
    split at h <;> cases h
    next hb => exact if_pos hb
    next hb => exact if_neg hb
  | setcur row0 col0 =>
    rw [exec, execSetcur] at h ⊢
    split at h <;> cases h
    next hb => exact if_pos hb
    next hb => exact if_neg hb
  | wchar | wstr => cases h; exact congrArg _ (atPosition_withGhost g _ _ _ s)
  | _ => cases h; rfl

theorem busWriteStep_withGhost (g : Ghost) (p : Pins) (b : Byte) (s : State) :
    ∃ g', busWriteStep p b (withGhost g s) = withGhost g' (busWriteStep p b s) := by
  rcases busWriteStep_cases p b s with ⟨ho, hp, h⟩ | ⟨ht, hv, h⟩ | ⟨a, rest, ht, hv, ha, h⟩ <;> rw [h]
  · exact ⟨g, busWriteStep_untaken (s := withGhost g s) ho hp⟩
  · refine ⟨g, (busWriteStep_unanswered (s := withGhost g s) ht hv).trans ?_⟩
    rw [ite_issueWrite_eq_taken, ite_issueWrite_eq_taken]; rfl
  · refine ⟨g.write (opOf s.reqWord) s.seqStep (s.seqProg.drop (s.seqStep + 1)) b a.landed,
      (busWriteStep_answered (s := withGhost g s) ht hv ha).trans ?_⟩
    rw [ite_issueWrite_eq_taken, ite_issueWrite_eq_taken]; rfl

theorem delayStep_withGhost (g : Ghost) (ms : Nat) (s : State) :
    delayStep ms (withGhost g s) = withGhost g (delayStep ms s) := by
  rcases hc : s.delayCnt with _ | _ | n
  · by_cases hz : ms * s.params.clkPerMs = 0
    · rw [delayStep_zero hc hz]; exact delayStep_zero hc hz
    · rw [delayStep_start hc hz]; exact delayStep_start hc hz
  · rw [delayStep_last hc]; exact delayStep_last hc
  · rw [delayStep_tick hc]; exact delayStep_tick hc

/-- With any other ghost state a step takes the same arm. -/
theorem step_withGhost (g : Ghost) (h : step s = .next s') : ∃ g', step (withGhost g s) = .next (withGhost g' s') := by
  suffices ∃ g', StepTo (withGhost g s) (withGhost g' s') from this.imp fun _ => StepTo.step_eq
  cases step_next_cases h with
  | reset hr => exact ⟨g.reset, .reset (s := withGhost g s) hr⟩
  | faulted hr hf => exact ⟨g, .faulted (s := withGhost g s) hr hf⟩
  | held hr hf r hp hn => exact ⟨g, .held (s := withGhost g s) hr hf r hp hn⟩
  | released hr hf r hp hn => exact ⟨g, .released (s := withGhost g s) hr hf r hp hn⟩
  | noWord hr hi hp hw => exact ⟨g, .noWord (s := withGhost g s) hr hi hp hw⟩
  | collect hr hi hp hpr w rest hw hl => exact ⟨g, .collect (s := withGhost g s) hr hi hp hpr w rest hw hl⟩
  | illegal hr hi hp hpr w rest hw hl e hd => exact ⟨g, .illegal (s := withGhost g s) hr hi hp hpr w rest hw hl e hd⟩
  | accept hr hi hp hpr w rest hw hl i hd _ hu =>
    exact ⟨g, .accept (s := withGhost g s) hr hi hp hpr w rest hw hl i hd _ (exec_withGhost g hu)⟩
  | write hr hb hp b ho =>
    obtain ⟨g', hg⟩ := busWriteStep_withGhost g (pinsNow s) b (samplePins s)
    exact ⟨g', hg ▸ .write (s := withGhost g s) hr hb hp b ho⟩
  | delay hr hb hp ms ho =>
    exact ⟨g, delayStep_withGhost g ms (samplePins s) ▸ .delay (s := withGhost g s) hr hb hp ms ho⟩
  | complete hr hb hp hl => exact ⟨g, .complete (s := withGhost g s) hr hb hp hl⟩

/-- Settles O30: a step takes the same arm, or stops past the end of the micro-sequence as before. -/
theorem ghostStateIsNeverRead : Obligations.GhostStateIsNeverRead := by
  refine fun s g => ⟨fun u h => step_withGhost g h, fun f h => ?_, fun r h => ?_⟩
  · rcases step_next_or_pastEnd (withGhost g s) with ⟨_, hn⟩ | ⟨_, _, _, _, hf⟩
    · obtain ⟨_, hn⟩ := step_withGhost s.ghost hn
      cases h.symm.trans hn
    · cases f
      exact hf
  · rcases step_next_or_pastEnd s with ⟨_, hn⟩ | ⟨_, _, _, _, hf⟩
    · cases h.symm.trans hn
    · cases h.symm.trans hf

/-! ## What changes it -/

section Write

variable {b : Byte} (hr : resetAsserted s = false) (hb : s.seqState = .busy) (hn : s.rsp = none)
  (ho : s.seqProg[s.seqStep]? = some (.write b))
include hr hb hn ho

/-- The step of a write that the transport does not take yet. -/
theorem step_write_untaken (hout : s.bwOut = false) (hrdy : (pinsNow s).bwReady = false) :
    step s = .next (samplePins s) :=
  (step_write hr hb hn ho).trans (congrArg _ (busWriteStep_untaken (s := samplePins s) hout hrdy))

/-- The step of a write that is taken and not answered. -/
theorem step_write_unanswered (ht : WriteTaken s) (hv : (pinsNow s).brValid = false ∨ s.env.answers = []) :
    step s = .next (taken b (samplePins s)) := by
  rw [step_write hr hb hn ho, busWriteStep_unanswered (s := samplePins s) ht hv, ite_issueWrite_eq_taken]

/-- The step in which a write is answered. -/
theorem step_write_answered (ht : WriteTaken s) (hv : (pinsNow s).brValid = true) {a : Answer} {more : List Answer}
    (ha : s.env.answers = a :: more) : step s = .next (advance (answerWrite b a more (taken b (samplePins s)))) := by
  rw [step_write hr hb hn ho, busWriteStep_answered (s := samplePins s) ht hv ha, ite_issueWrite_eq_taken]

end Write

/-- `step_write_answered`, from `Answers`. -/
theorem step_answers {b : Byte} {a : Answer} (h : Answers s b a) :
    ∃ rest, step s = .next (advance (answerWrite b a rest (taken b (samplePins s)))) := by
  obtain ⟨hr, hb, hn, ho, ht, hv, ha⟩ := h
  obtain ⟨rest, ha⟩ := List.head?_eq_some_iff.mp ha
  exact ⟨rest, step_write_answered hr hb hn ho ht hv ha⟩

/-- What an answered write leaves outside the block. -/
def answeredGhost (s : State) (b : Byte) (a : Answer) : Ghost :=
  s.ghost.write (opOf s.reqWord) s.seqStep (s.seqProg.drop (s.seqStep + 1)) b a.landed

/-- A `W` step with no answer leaves the block as it was, or with the write taken. -/
theorem step_write_of_no_answer (hr : resetAsserted s = false) (hb : s.seqState = .busy) (hn : s.rsp = none) {b : Byte}
    (ho : s.seqProg[s.seqStep]? = some (.write b)) (hno : ∀ b a, ¬ Answers s b a) :
    step s = .next (samplePins s) ∨ step s = .next (taken b (samplePins s)) := by
  by_cases ht : WriteTaken s
  · by_cases hv : (pinsNow s).brValid = false ∨ s.env.answers = []
    · exact .inr (step_write_unanswered hr hb hn ho ht hv)
    · obtain ⟨hv, hne⟩ := not_or.mp hv
      obtain ⟨a, more, ha⟩ := List.exists_cons_of_ne_nil hne
      exact absurd ⟨hr, hb, hn, ho, ht, by simpa using hv, by rw [ha]; rfl⟩ (hno b a)
  · obtain ⟨hout, hrdy⟩ := not_or.mp ht
    exact .inl (step_write_untaken hr hb hn ho (by simpa using hout) (by simpa using hrdy))

/-- Acceptance, delays, completion and every wait leave the state outside as it is. -/
theorem step_ghost_of_no_answer (h : step s = .next s') (hr : resetAsserted s = false) (hn : ∀ b a, ¬ Answers s b a) :
    s'.ghost = s.ghost := by
  cases step_next_cases h with
  | reset hr' => cases hr.symm.trans hr'
  | faulted | held | noWord | released | collect | illegal | complete => rfl
  | accept _ _ _ _ _ _ _ _ _ _ _ hu => exact (exec_accepted hu).ghost
  | write _ hb hp b ho => rcases step_write_of_no_answer hr hb hp ho hn with hs | hs <;>
    rw [Host.Outcome.next.inj (h.symm.trans hs)] <;> rfl
  | delay => exact delayStep_ghost _ _

/-- The three things a step can do to the state outside. -/
theorem step_ghost_cases (h : step s = .next s') :
    (resetAsserted s = true ∧ s'.ghost = s.ghost.reset) ∨
    (∃ b a, Answers s b a ∧ s'.ghost = answeredGhost s b a) ∨
    (resetAsserted s = false ∧ (∀ b a, ¬ Answers s b a) ∧ s'.ghost = s.ghost) := by
  cases hr : resetAsserted s with
  | true => rw [step_reset hr] at h; cases h; exact .inl ⟨rfl, rfl⟩
  | false =>
    by_cases ha : ∃ b a, Answers s b a
    · obtain ⟨b, a, ha⟩ := ha
      obtain ⟨rest, hs⟩ := step_answers ha
      rw [hs] at h; cases h
      exact .inr (.inl ⟨b, a, ha, rfl⟩)
    · have ha : ∀ b a, ¬ Answers s b a := fun b a hx => ha ⟨b, a, hx⟩
      exact .inr (.inr ⟨rfl, ha, step_ghost_of_no_answer h hr ha⟩)

/-- Settles O26: the latch changes with an answered write alone. -/
theorem expanderLatchesWhatItReceives : Obligations.ExpanderLatchesWhatItReceives := by
  intro s s' hs
  refine ⟨fun b a more hr hb hn ho ht hv ha => ?_, fun hno => ?_⟩
  · obtain ⟨_, hstep⟩ := step_answers (s := s) (b := b) (a := a) ⟨hr, hb, hn, ho, ht, hv, by rw [ha]; rfl⟩
    rw [hs] at hstep; cases hstep; rfl
  · rcases step_ghost_cases hs with ⟨_, hg⟩ | ⟨b, a, ⟨hr, hb, hn, ho, ht, hv, ha⟩, _⟩ | ⟨_, _, hg⟩
    · rw [hg]; rfl
    · exact absurd ⟨hr, hb, hn, ht, hv, fun h0 => (by rw [h0] at ha; cases ha), b, ho⟩ hno
    · rw [hg]

/-! ## Cut transfers (R57, R58, R99) -/

/-- Before the rest of a transfer the next micro-operation is a bus write. -/
theorem write_of_inside {prog : List MicroOp} {n : Nat}
    (h : ((prog.drop n).takeWhile MicroOp.isWrite).length % 4 ≠ 0) : ∃ b, prog[n]? = some (.write b) := by
  rw [← List.head?_drop]
  cases hd : prog.drop n with
  | nil => simp [hd] at h
  | cons o rest =>
    cases o with
    | write b => exact ⟨b, rfl⟩
    | delay ms => simp [hd, MicroOp.isWrite] at h

/-- A step keeps `MidOk`: an answered write puts a transfer in its middle only between two writes, and until the next
answer the block stays there. -/
theorem step_keeps_midOk (h : MidOk s) (hs : step s = .next s') : MidOk s' := by
  intro hm
  rcases step_ghost_cases hs with ⟨_, hg⟩ | ⟨b, a, ha, _⟩ | ⟨hr, hn, hg⟩
  · rw [hg] at hm; cases hm
  · have ⟨_, hb, hnr, ho, _⟩ := ha
    obtain ⟨rest, hstep⟩ := step_answers ha
    rw [hs] at hstep; cases hstep
    exact ⟨hb, hnr, Nat.succ_pos _, ⟨b, ho⟩, by simpa [insideTransfer] using hm⟩
  · obtain ⟨hb, hnr, hlt, hprev, hin⟩ := h (hg ▸ hm)
    obtain ⟨b, ho⟩ := write_of_inside hin
    rcases step_write_of_no_answer hr hb hnr ho hn with hstep | hstep <;>
      · rw [hs] at hstep; cases hstep
        exact ⟨hb, hnr, hlt, hprev, hin⟩

/-- Settles O59: after reset no transfer is in its middle, and `step_keeps_midOk`. -/
theorem transfersAreCutOnlyBetweenTheirWrites : Obligations.TransfersAreCutOnlyBetweenTheirWrites :=
  ⟨fun _ hm => (by cases hm), fun _ _ h hs => step_keeps_midOk h hs⟩

/-- Where no transfer is in its middle: outside a running request, at its first step, beside a delay and at its end. -/
theorem not_mid (h : MidOk s)
    (hc : s.seqState ≠ .busy ∨ s.rsp ≠ none ∨ s.seqStep = 0 ∨ s.seqProg.length ≤ s.seqStep ∨
      (∃ ms, s.seqProg[s.seqStep]? = some (.delay ms)) ∨ ∃ ms, s.seqProg[s.seqStep - 1]? = some (.delay ms)) :
    s.ghost.mid = false := by
  cases hm : s.ghost.mid with
  | false => rfl
  | true =>
    obtain ⟨hb, hn, hlt, ⟨b', hprev⟩, hin⟩ := h hm
    obtain ⟨b, ho⟩ := write_of_inside hin
    rcases hc with hc | hc | hc | hc | ⟨ms, hc⟩ | ⟨ms, hc⟩
    · exact absurd hb hc
    · exact absurd hn hc
    · omega
    · exact absurd (seqStep_lt ho) (by omega)
    · cases ho.symm.trans hc
    · cases hprev.symm.trans hc

/-! ## The interface mode (R29) -/

/-- Reset keeps a controller in 4-bit mode and in phase, unless it cuts a transfer. -/
theorem fourBit_reset {g : Ghost} (h : g.ctrlMode = .fourBit ∧ g.inPhase = true) (hm : g.mid = false) :
    g.reset.ctrlMode = .fourBit ∧ g.reset.inPhase = true := by
  simp [h, hm]

/-- A write keeps it when it is SETBL's, or lands and belongs to neither a CMD8 nor INIT's first eight. -/
theorem fourBit_write {g : Ghost} (h : g.ctrlMode = .fourBit ∧ g.inPhase = true) {op b : Byte} {idx : Nat}
    {rest : List MicroOp} {landed : Bool}
    (hk : op = opSetbl ∨ (landed = true ∧ op ≠ opCmd8 ∧ (op = opInit → initFset4Write < idx))) :
    (g.write op idx rest b landed).ctrlMode = .fourBit ∧ (g.write op idx rest b landed).inPhase = true := by
  obtain ⟨hm, hp⟩ := h
  have hph : g.phaseAfter op idx landed = true := by
    unfold Ghost.phaseAfter
    by_cases ho : op = opSetbl
    · rw [if_pos ho, hp]
    · obtain ⟨hl, h8, hi⟩ := hk.resolve_left ho
      rw [if_neg ho, if_neg fun h => absurd (hi h.1) (Nat.not_lt.mpr h.2)]
      simp [hp, hl, h8]
  refine ⟨?_, hph⟩
  simp [Ghost.write, hp, hph, hm]

/-- Settles O60: reset and an answered write are the only steps that touch the controller. -/
theorem fourBitModeIsKeptOutsideCutTransfers : Obligations.FourBitModeIsKeptOutsideCutTransfers := by
  intro s s' hmid h4 hs
  have hreset (hr : resetAsserted s = true) : s'.ghost = s.ghost.reset := by
    rw [step_reset hr] at hs; cases hs; rfl
  have hkept (hr : resetAsserted s = true) (hm : s.ghost.mid = false) : FourBitInPhase s' := by
    rw [FourBitInPhase, hreset hr]; exact fourBit_reset h4 hm
  refine ⟨hkept, fun hr hc => hkept hr (not_mid hmid hc), fun hr hm => ?_, fun hr hk => ?_, fun b a ha => ?_⟩
  · rw [hreset hr]; exact ⟨h4.1, by simp [hm]⟩
  · rcases step_ghost_cases hs with ⟨hr', _⟩ | ⟨b, a, ha, hg⟩ | ⟨_, _, hg⟩
    · cases hr.symm.trans hr'
    · rw [FourBitInPhase, hg]; exact fourBit_write h4 (hk b a ha)
    · rw [FourBitInPhase, hg]; exact h4
  · obtain ⟨_, hstep⟩ := step_answers ha
    rw [hs] at hstep; cases hstep; rfl

end Sys2Proof.Machine
end

section
/-! # Runs of micro-operations

A delay counts down, a bus write waits until it is answered, and a micro-sequence whose writes are all answered runs to its
response. -/

namespace Sys2Proof.Machine

open Sys2Proof.Safety

variable {s : State}

/-- `s`, `k` steps of waiting later. -/
def afterPins (k : Nat) (s : State) : State := { s with env := { s.env with pins := s.env.pins.drop k } }

/-! ## A delay (R27, R89) -/

/-- The counter goes down by 1 a clock, and nothing else happens. -/
theorem run_ticks (hb : s.seqState = .busy) (hn : s.rsp = none) (hnr : NoReset s) {ms : Nat}
    (ho : s.seqProg[s.seqStep]? = some (.delay ms)) {j : Nat} (hj : j < s.delayCnt) :
    runFor j s = .next (afterPins j { s with delayCnt := s.delayCnt - j }) := by
  induction j with
  | zero => rfl
  | succ j ih =>
    have hnr' : NoReset (afterPins j { s with delayCnt := s.delayCnt - j }) := noReset_of_pins (n := j) hnr rfl
    obtain ⟨n, hc⟩ : ∃ n, s.delayCnt - j = n + 2 := ⟨s.delayCnt - j - 2, by omega⟩
    rw [run_then_step (ih (by omega)) (step_delay (resetAsserted_of_noReset hnr') hb hn ho), delayStep_tick (n := n) hc]
    simp [afterPins, samplePins, List.tail_drop, show s.delayCnt - (j + 1) = n + 1 by omega]

/-- The rest of a running delay. -/
theorem run_delay_rest (hb : s.seqState = .busy) (hn : s.rsp = none) (hnr : NoReset s) {ms : Nat}
    (ho : s.seqProg[s.seqStep]? = some (.delay ms)) (hc : s.delayCnt ≠ 0) :
    runFor s.delayCnt s = .next (afterPins s.delayCnt (advance { s with delayCnt := 0 })) := by
  obtain ⟨n, hlast⟩ : ∃ n, s.delayCnt = n + 1 := Nat.exists_eq_succ_of_ne_zero hc
  have hnr' : NoReset (afterPins n { s with delayCnt := s.delayCnt - n }) := noReset_of_pins (n := n) hnr rfl
  have hrun := run_then_step (run_ticks hb hn hnr ho (j := n) (by omega))
    (step_delay (resetAsserted_of_noReset hnr') hb hn ho)
  rw [delayStep_last (by simp [afterPins, hlast])] at hrun
  rw [hlast, hrun]
  simp [afterPins, samplePins, advance, List.tail_drop]

/-- The step that loads the counter. -/
theorem step_delay_start (hb : s.seqState = .busy) (hn : s.rsp = none) (hnr : NoReset s) (hc : s.delayCnt = 0) {ms : Nat}
    (ho : s.seqProg[s.seqStep]? = some (.delay ms)) (hz : ms * s.params.clkPerMs ≠ 0) :
    step s = .next (emit (.dly ms) { samplePins s with delayCnt := ms * s.params.clkPerMs }) :=
  (step_delay (resetAsserted_of_noReset hnr) hb hn ho).trans (congrArg _ (delayStep_start (s := samplePins s) hc hz))

/-- A whole delay: one step to load the counter, and one for each of its decrements. -/
theorem run_delay (hb : s.seqState = .busy) (hn : s.rsp = none) (hnr : NoReset s) (hc : s.delayCnt = 0) {ms : Nat}
    (ho : s.seqProg[s.seqStep]? = some (.delay ms)) :
    runFor (ms * s.params.clkPerMs + 1) s =
      .next (afterPins (ms * s.params.clkPerMs + 1) (advance (emit (.dly ms) { s with delayCnt := 0 }))) := by
  by_cases hz : ms * s.params.clkPerMs = 0
  · rw [hz, Nat.zero_add, run_succ (step_delay (resetAsserted_of_noReset hnr) hb hn ho), run_zero,
      delayStep_zero (s := samplePins s) hc hz]
    simp [afterPins, samplePins, advance, emit]
  · rw [run_succ (step_delay_start hb hn hnr hc ho hz)]
    refine (run_delay_rest (s := emit (.dly ms) { samplePins s with delayCnt := ms * s.params.clkPerMs }) hb hn
      (noReset_of_pins (n := 1) hnr (by simp)) ho hz).trans ?_
    simp [afterPins, samplePins, advance, emit]

/-- Settles O27: `run_ticks` after the load, `run_delay`, and the invariant. -/
theorem delayCounterCountsTheDelay : Obligations.DelayCounterCountsTheDelay := by
  refine ⟨fun s ms j hb hn hc hnr ho hj => ?_, fun s ms hb hn hc hnr ho => ?_, fun s h hd => ?_⟩
  · rw [run_succ (step_delay_start hb hn hnr hc ho (by omega))]
    refine (run_ticks (s := emit (.dly ms) { samplePins s with delayCnt := ms * s.params.clkPerMs }) hb hn
      (noReset_of_pins (n := 1) hnr (by simp)) ho hj).trans ?_
    simp [afterPins, samplePins, emit]
  · rw [run_delay hb hn hnr hc ho]
    simp [afterPins, advance, emit, hc]
  · obtain ⟨hb, ms, ho, _⟩ := h.delay hd
    exact ⟨hb, ms, ho⟩

/-! ## A bus write (R30, R31) -/

/-- `run_until`, for a level that the list of levels to come decides. -/
theorem run_wait (f : Pins → Bool) (hf : f Pins.allHigh = true)
    (hw : ∀ k, f (pinsNow (afterPins k s)) = false → step (afterPins k s) = .next (samplePins (afterPins k s))) :
    ∃ k, runFor k s = .next (afterPins k s) ∧ f (pinsNow (afterPins k s)) = true := by
  obtain ⟨k, hk, hv, _⟩ := run_until f hf s.env.pins s rfl fun u hu hsu hlow => by
    obtain ⟨k, rfl⟩ : ∃ k, u = afterPins k s :=
      ⟨s.env.pins.length - u.env.pins.length, by rw [afterPins, ← List.suffix_iff_eq_drop.mp hsu]; exact hu⟩
    exact hw k hlow
  exact ⟨k, hk, hv⟩

theorem noReset_afterPins (hnr : NoReset s) (k : Nat) : NoReset (afterPins k s) := noReset_of_pins (n := k) hnr rfl

/-- A write that is out stays as it is. -/
theorem taken_of_out (b : Byte) (h : s.bwOut = true) : taken b s = s := by
  rw [← ite_issueWrite_eq_taken, if_pos h]

section Write

variable (hb : s.seqState = .busy) (hn : s.rsp = none) (hnr : NoReset s) {b : Byte}
  (ho : s.seqProg[s.seqStep]? = some (.write b)) {a : Answer} {more : List Answer} (ha : s.env.answers = a :: more)
include hb hn hnr ho ha

/-- The step that answers a write, after `k` steps of waiting. -/
theorem step_answered_afterPins {k : Nat} (ht : WriteTaken (afterPins k s)) (hv : (pinsNow (afterPins k s)).brValid = true) :
    step (afterPins k s) = .next (afterPins (k + 1) (advance (answerWrite b a more (taken b s)))) := by
  rw [step_write_answered (s := afterPins k s) (resetAsserted_of_noReset (noReset_afterPins hnr k)) hb hn ho ht hv ha]
  simp [afterPins, samplePins, advance, answerWrite, emit, taken, List.tail_drop]

/-- A write that the transport has taken waits until it is answered. -/
theorem run_write_out (hout : s.bwOut = true) :
    ∃ k, runFor k s = .next (afterPins k (advance (answerWrite b a more (taken b s)))) := by
  obtain ⟨k, hk, hv⟩ := run_wait (s := s) Pins.brValid rfl fun k hlow => by
    have hstep := step_write_unanswered (s := afterPins k s) (resetAsserted_of_noReset (noReset_afterPins hnr k)) hb hn ho
      (.inl hout) (.inl hlow)
    rwa [taken_of_out (s := samplePins (afterPins k s)) b hout] at hstep
  exact ⟨k + 1, run_then_step hk (step_answered_afterPins hb hn hnr ho ha (.inl hout) hv)⟩

/-- A bus write waits until the transport takes it and until it is answered; then `STATUS`, `TERR_LAST` and the state
outside are as the answer says and the next step begins. -/
theorem run_write : ∃ k, runFor k s = .next (afterPins k (advance (answerWrite b a more (taken b s)))) := by
  cases hout : s.bwOut with
  | true => exact run_write_out hb hn hnr ho ha hout
  | false =>
    obtain ⟨j, hj, hrdy⟩ := run_wait (s := s) Pins.bwReady rfl fun k hlow =>
      step_write_untaken (s := afterPins k s) (resetAsserted_of_noReset (noReset_afterPins hnr k)) hb hn ho hout hlow
    cases hv : (pinsNow (afterPins j s)).brValid with
    | true => exact ⟨j + 1, run_then_step hj (step_answered_afterPins hb hn hnr ho ha (.inr hrdy) hv)⟩
    | false =>
      have hstep := step_write_unanswered (s := afterPins j s) (resetAsserted_of_noReset (noReset_afterPins hnr j)) hb hn ho
        (.inr hrdy) (.inl hv)
      obtain ⟨k, hk⟩ := run_write_out (s := taken b (samplePins (afterPins j s))) hb hn
        (noReset_of_pins (n := j + 1) hnr (by simp [taken, afterPins, List.tail_drop])) ho ha rfl
      refine ⟨j + 1 + k, (run_add (run_then_step hj hstep)).trans (hk.trans ?_)⟩
      simp [afterPins, samplePins, advance, answerWrite, emit, taken, hout, List.tail_drop, Nat.add_comm]

end Write

/-! ## A micro-sequence -/

theorem runs_trans {t u : State} (h : Runs s t) (h' : Runs t u) : Runs s u := by
  obtain ⟨j, hj⟩ := h
  obtain ⟨k, hk⟩ := h'
  exact ⟨j + k, (run_add hj).trans hk⟩

/-- A request runs, with no reset to come and a delay running at a `D` step only. -/
structure Running (s : State) : Prop where
  busy : s.seqState = .busy
  noRsp : s.rsp = none
  noReset : NoReset s
  range : s.seqStep ≤ s.seqProg.length
  delay : s.delayCnt ≠ 0 → ∃ ms, s.seqProg[s.seqStep]? = some (.delay ms)

/-- `P`, a property of `SEQ_STEP` and the state outside, is kept by each micro-operation of `prog` in a request with opcode
`op`, whichever of `as` answers it. -/
structure KeptBy (P : Nat → Ghost → Prop) (op : Byte) (prog : List MicroOp) (as : List Answer) : Prop where
  write : ∀ n b a g, prog[n]? = some (.write b) → a ∈ as → P n g → P (n + 1) (g.write op n (prog.drop (n + 1)) b a.landed)
  delay : ∀ n ms g, prog[n]? = some (.delay ms) → P n g → P (n + 1) g

/-- What one micro-operation of a running request leads to. -/
structure OpDone (s u : State) : Prop where
  runs : Runs s u
  running : Running u
  prog : u.seqProg = s.seqProg
  op : u.reqWord = s.reqWord
  step : u.seqStep = s.seqStep + 1

/-- A `D` step ends, whether its counter runs already or not. -/
theorem Running.delay_done (h : Running s) {ms : Nat} (ho : s.seqProg[s.seqStep]? = some (.delay ms)) :
    ∃ u, OpDone s u ∧ u.env.answers = s.env.answers ∧ u.ghost = s.ghost := by
  have hlt := seqStep_lt ho
  by_cases hc : s.delayCnt = 0
  · exact ⟨_, ⟨⟨_, run_delay h.busy h.noRsp h.noReset hc ho⟩,
      ⟨h.busy, h.noRsp, noReset_of_pins h.noReset rfl, hlt, fun hd => absurd rfl hd⟩, rfl, rfl, rfl⟩, rfl, rfl⟩
  · exact ⟨_, ⟨⟨_, run_delay_rest h.busy h.noRsp h.noReset ho hc⟩,
      ⟨h.busy, h.noRsp, noReset_of_pins h.noReset rfl, hlt, fun hd => absurd rfl hd⟩, rfl, rfl, rfl⟩, rfl, rfl⟩

/-- A `W` step ends when its answer comes. -/
theorem Running.write_done (h : Running s) {b : Byte} (ho : s.seqProg[s.seqStep]? = some (.write b)) {a : Answer}
    {more : List Answer} (ha : s.env.answers = a :: more) :
    ∃ u, OpDone s u ∧ u.env.answers = more ∧ u.ghost = answeredGhost s b a := by
  have hlt := seqStep_lt ho
  have hd : s.delayCnt = 0 := by
    by_contra hd
    obtain ⟨ms, hm⟩ := h.delay hd
    cases ho.symm.trans hm
  obtain ⟨k, hk⟩ := run_write h.busy h.noRsp h.noReset ho ha
  exact ⟨_, ⟨⟨k, hk⟩, ⟨h.busy, h.noRsp, noReset_of_pins (n := k) h.noReset rfl, hlt, fun hc => absurd hd hc⟩,
    rfl, rfl, rfl⟩, rfl, rfl⟩

/-- With every remaining write answered, a running request gets to the end of its micro-sequence, and takes `P` along. -/
theorem run_program {P : Nat → Ghost → Prop} {more : List Answer} (rest : List MicroOp) :
    ∀ (s : State) (as : List Answer), Running s → s.seqProg.drop s.seqStep = rest → s.env.answers = as ++ more →
    as.length = writeCount rest → KeptBy P (opOf s.reqWord) s.seqProg as → P s.seqStep s.ghost →
    ∃ u, Runs s u ∧ Running u ∧ u.seqProg = s.seqProg ∧ u.seqStep = u.seqProg.length ∧ P u.seqStep u.ghost := by
  induction rest with
  | nil =>
    intro s as h hd _ _ _ hp
    exact ⟨s, ⟨0, rfl⟩, h, rfl, Nat.le_antisymm h.range (List.drop_eq_nil_iff.mp hd), hp⟩
  | cons o rest ih =>
    intro s as h hd has hl hk hp
    have ho : s.seqProg[s.seqStep]? = some o := by rw [← List.head?_drop, hd]; rfl
    have hrest : s.seqProg.drop (s.seqStep + 1) = rest := by rw [← List.tail_drop, hd]; rfl
    cases o with
    | delay ms =>
      obtain ⟨t, ⟨hrun, ht, hprog, hop, hst⟩, hans, hg⟩ := h.delay_done ho
      obtain ⟨u, hu, hend⟩ := ih t as ht (by rw [hprog, hst, hrest]) (hans.trans has) hl (by rw [hprog, hop]; exact hk)
        (by rw [hst, hg]; exact hk.delay _ ms _ ho hp)
      exact ⟨u, runs_trans hrun hu, by rw [← hprog]; exact hend⟩
    | write b =>
      obtain ⟨a, as, rfl⟩ : ∃ a as', as = a :: as' := List.exists_cons_of_length_pos (by rw [hl, writeCount]; omega)
      obtain ⟨t, ⟨hrun, ht, hprog, hop, hst⟩, hans, hg⟩ := h.write_done ho has
      obtain ⟨u, hu, hend⟩ := ih t as ht (by rw [hprog, hst, hrest]) hans (Nat.succ.inj hl)
        (by rw [hprog, hop]; exact ⟨fun n b a g ho hm => hk.write n b a g ho (.tail _ hm), hk.delay⟩)
        (by rw [hst, hg]; exact hk.write _ b a _ ho (.head _) hp)
      exact ⟨u, runs_trans hrun hu, by rw [← hprog]; exact hend⟩

/-- A running request with every remaining write answered runs to its response, and takes `P` along. -/
theorem run_to_response {P : Nat → Ghost → Prop} {as more : List Answer} (h : Running s) (has : s.env.answers = as ++ more)
    (hl : as.length = writeCount (s.seqProg.drop s.seqStep)) (hk : KeptBy P (opOf s.reqWord) s.seqProg as)
    (hp : P s.seqStep s.ghost) :
    ∃ u, Runs s u ∧ u.seqState = .busy ∧ u.seqStep = u.seqProg.length ∧ u.rsp.isSome = true ∧ u.seqProg = s.seqProg ∧
      P u.seqProg.length u.ghost := by
  obtain ⟨t, ht, hrun, hprog, hend, hpt⟩ := run_program _ s as h rfl has hl hk hp
  exact ⟨completeRequest (samplePins t),
    runs_trans ht ⟨1, run_succ (step_complete (resetAsserted_of_noReset hrun.noReset) hrun.busy hrun.noRsp hend)⟩,
    hrun.busy, hend, rfl, hprog, hend ▸ hpt⟩

/-- Settles O29: a held response is there already; otherwise the request runs to it. -/
theorem answeredRequestsFinish : Obligations.AnsweredRequestsFinish := by
  intro s hinv hb hnr hcount
  cases hr : s.rsp with
  | some r =>
    rcases (hinv.held r hr).2 with hi | ⟨_, hl⟩
    · cases hi.symm.trans hb
    · exact ⟨s, ⟨0, rfl⟩, hb, hl, by rw [hr]; rfl, rfl⟩
  | none =>
    have hrun : Running s := ⟨hb, hr, hnr, hinv.stepRange, fun hd => (hinv.delay hd).2.imp fun _ => And.left⟩
    obtain ⟨u, hu, hbu, hlu, hru, hpu, _⟩ := run_to_response (P := fun _ _ => True) hrun
      (List.take_append_drop (writeCount (s.seqProg.drop s.seqStep)) s.env.answers).symm
      (by rw [List.length_take]; omega) ⟨fun _ _ _ _ _ _ _ => trivial, fun _ _ _ _ _ => trivial⟩ trivial
    exact ⟨u, hu, hbu, hlu, hru, hpu⟩

/-! ## INIT (R29, R70) -/

/-- The byte of INIT's last write: the low nibble of its display-on command. -/
def initLastByte (p : Params) (bl : Bool) : Byte := lineByte p bl ((p.dispctlBase ||| p.dispOn).extractLsb' 0 4) false

theorem initProgram_length (p : Params) (bl : Bool) : (initProgram p bl).length = 34 := rfl

theorem initProgram_last (p : Params) (bl : Bool) : (initProgram p bl)[33]? = some (.write (initLastByte p bl)) := rfl

/-- INIT's first write, and the last of its fourth function set. -/
theorem initProgram_fset (p : Params) (bl : Bool) :
    (∃ b, (initProgram p bl)[initFirstWrite]? = some (.write b)) ∧
      ∃ b, (initProgram p bl)[initFset4Write]? = some (.write b) :=
  ⟨⟨_, rfl⟩, ⟨_, rfl⟩⟩

/-- How far an INIT whose writes all land has brought the controller at step `n`: every write so far landed, the fourth
function set put it in 4-bit mode and in phase, and the last write left its byte on the lines. -/
structure InitProgress (last : Byte) (n : Nat) (g : Ghost) : Prop where
  resync : initFirstWrite < n → g.resync = true
  fourBit : initFset4Write < n → g.ctrlMode = .fourBit ∧ g.inPhase = true
  expander : n = 34 → g.expander = some last

/-- Every micro-operation of INIT carries its progress on, if every write lands. -/
theorem initProgress_kept {p : Params} {bl : Bool} {as : List Answer} (has : ∀ a ∈ as, a.landed = true) :
    KeptBy (InitProgress (initLastByte p bl)) opInit (initProgram p bl) as where
  write n b a g ho ha h := by
    have hl := has a ha
    have hs (hn : initFirstWrite < n + 1) : g.resyncAfter opInit n a.landed = true := by
      rcases Nat.eq_or_lt_of_le (Nat.le_of_lt_succ hn) with hn | hn
      · simp [Ghost.resyncAfter, hl, ← hn]
      · simp [Ghost.resyncAfter, hl, h.resync hn]
    refine ⟨hs, fun hn => ?_, fun hn => ?_⟩
    · rcases Nat.eq_or_lt_of_le (Nat.le_of_lt_succ hn) with hn | hn
      · subst hn
        have hs := hs (by decide)
        have hph : g.phaseAfter opInit initFset4Write a.landed = true := by
          rw [Ghost.phaseAfter, if_neg (by decide), if_pos ⟨rfl, Nat.le_refl _⟩, hs]; rfl
        exact ⟨by simp [Ghost.write, hs], hph⟩
      · exact fourBit_write (h.fourBit hn) (.inr ⟨hl, by decide, fun _ => hn⟩)
    · obtain rfl : n = 33 := by omega
      obtain rfl : b = initLastByte p bl := by simpa using ho.symm.trans (initProgram_last p bl)
      simp [hl]
  delay n ms g ho h := by
    have hne {m : Nat} (hw : ∃ b, (initProgram p bl)[m]? = some (.write b)) : n ≠ m := by
      rintro rfl
      obtain ⟨b, hb⟩ := hw
      cases ho.symm.trans hb
    have h1 := hne (initProgram_fset p bl).1
    have h11 := hne (initProgram_fset p bl).2
    have h33 := hne ⟨_, initProgram_last p bl⟩
    exact ⟨fun hn => h.resync (by omega), fun hn => h.fourBit (by omega), fun hn => by omega⟩

/-- INIT is one word (R52). -/
theorem payloadWords_init (rows cols : Byte) : ([] : List Word).length = payloadWords (header (.init rows cols)) := by
  simp [payloadWords, header, opInit, opWstr]

theorem decodeWords_init (rows cols : Byte) : decodeWords [header (.init rows cols)] = .ok (.init rows cols) := by
  rw [decodeWords_cons (payloadWords_init rows cols)]
  simp [decode, header, whenZero, opCmd8, opCmd4, opData4, opWait, opSetbl, opInit]

/-- An INIT in range that is offered is accepted, whenever the host presents it. -/
theorem init_accepted {rows cols : Byte} {rest : List Word} (ho : Offered s [header (.init rows cols)] rest)
    (hok : badConfig rows cols = false) :
    ∃ t, Runs s t ∧ Running t ∧ t.seqStep = 0 ∧ t.seqProg = initProgram s.params s.bl ∧ opOf t.reqWord = opInit ∧
      t.env.answers = s.env.answers := by
  have hp := payloadWords_init rows cols
  obtain ⟨k, v, _, _, hrun, _, _, hstep⟩ := request_taken ho hp
  rw [decideRequest_taken hp (decodeWords_init rows cols), exec, execInit, if_neg (by simp [hok])] at hstep
  exact ⟨_, ⟨k + 1, run_then_step hrun hstep⟩,
    ⟨rfl, ho.idle.noRsp, noReset_of_pins (n := k + 1) ho.noReset rfl, Nat.zero_le _, fun hd => absurd ho.idle.noDelay hd⟩,
    rfl, rfl, opOf_mkHeader _ _ _ _, rfl⟩

/-- Settles O31: INIT is accepted, and its writes carry `InitProgress` to its response. -/
theorem initLeavesFourBitMode : Obligations.InitLeavesFourBitMode := by
  intro s rows cols rest as more ho h1 h4 hc hans hlen hland
  obtain ⟨t, hst, hrun, h0, hprog, hop, ha⟩ := init_accepted ho (badConfig_eq_false.mpr ⟨h1, h4, hc⟩)
  have hk := initProgress_kept (p := s.params) (bl := s.bl) hland
  have hstart : InitProgress (initLastByte s.params s.bl) 0 t.ghost := ⟨by simp, by simp, by simp⟩
  obtain ⟨u, hu, _, _, hr, hup, hend⟩ := run_to_response hrun (ha.trans hans)
    (by rw [h0, hprog, hlen]; rfl) (by rw [hop, hprog]; exact hk) (by rw [h0]; exact hstart)
  rw [hup, hprog, initProgram_length] at hend
  obtain ⟨hmode, hphase⟩ := hend.fourBit (by decide)
  exact ⟨u, runs_trans hst hu, hr, hmode, hphase, hend.expander rfl⟩

end Sys2Proof.Machine
end

section
/-! # The bus write and the trace in program order

What a bus write records (R31), where it goes (R34), and the trace of a running request (R41). -/

namespace Sys2Proof.Machine

open Sys2Proof.Safety

variable {s s' u : State}

/-! ## The bus write (R31) -/

/-- Settles O24: one step lemma for a write that is answered, one that is not yet, and one that is not taken yet. -/
theorem busWriteRecordsItsAnswer : Obligations.BusWriteRecordsItsAnswer := by
  intro s b hr hb hn ho
  refine ⟨fun ht hv more ha => ?_, fun ht hv e l more ha => ?_, fun ht hv => ?_, fun ht => ?_⟩
  · exact ⟨answeredGhost s b .ok, step_write_answered hr hb hn ho ht hv ha⟩
  · exact ⟨answeredGhost s b (.err e l), step_write_answered hr hb hn ho ht hv ha⟩
  · exact step_write_unanswered hr hb hn ho ht hv
  · obtain ⟨hout, hrdy⟩ := not_or.mp ht
    exact step_write_untaken hr hb hn ho (by simpa using hout) (by simpa using hrdy)

/-! ## What a micro-operation leaves of the request -/

/-- From `s` to `u` the parameters, the request word and the micro-sequence stay. -/
structure SameRequest (s u : State) : Prop where
  params : u.params = s.params
  word : u.reqWord = s.reqWord
  prog : u.seqProg = s.seqProg

theorem sameRequest_busWriteStep (p : Pins) (b : Byte) (s : State) : SameRequest s (busWriteStep p b s) := by
  obtain ⟨_, _, _, _, _, _, _, _, h⟩ := busWriteStep_writes p b s
  rw [h]; exact ⟨rfl, rfl, rfl⟩

theorem sameRequest_delayStep (ms : Nat) (s : State) : SameRequest s (delayStep ms s) := by
  obtain ⟨_, _, _, _, _, h⟩ := delayStep_writes ms s
  rw [h]; exact ⟨rfl, rfl, rfl⟩

/-! ## The address of a bus write (R34) -/

theorem Accepted.params {i : Instr} (h : Accepted i s u) : u.params = s.params := by cases h <;> rfl

/-- No step changes the parameters, `DEV_ADDR` among them (R7, R34). -/
theorem step_params (h : step s = .next s') : s'.params = s.params := by
  cases step_next_cases h with
  | reset | faulted | held | released | noWord | collect | illegal | complete => rfl
  | accept _ _ _ _ _ _ _ _ _ _ _ hu => exact (exec_accepted hu).params
  | write => exact (sameRequest_busWriteStep _ _ _).params
  | delay => exact (sameRequest_delayStep _ _).params

/-- Settles O17: `step_params`, and `step_tx` for what a step appends to the trace. -/
theorem everyBusWriteAddressesDevAddr : Obligations.EveryBusWriteAddressesDevAddr := by
  refine ⟨rfl, fun s s' hs => ⟨step_params hs, ?_⟩⟩
  obtain ⟨evs, ht, htx⟩ := step_tx hs
  exact ⟨evs, ht, fun a b hm => (htx a b hm).1⟩

/-! ## The trace of a running request (R41) -/

/-- What the current micro-operation, or the completion, has shown already. -/
def shownNow (s : State) : List Event :=
  match s.rsp with
  | some r => [.rsp r]
  | none =>
    match s.seqProg[s.seqStep]? with
    | some (.write b) => if s.bwOut then [.tx s.params.devAddr b] else []
    | some (.delay ms) => if s.delayCnt ≠ 0 then [.dly ms] else []
    | none => []

/-- The trace ends with the request's `Req`, the events of the micro-operations done and what the current one has shown. -/
def Follows (s : State) : Prop :=
  ∃ before as, as.length = writeCount (s.seqProg.take s.seqStep) ∧
    s.trace = before ++ .req s.reqWord :: (eventsOf s.params (s.seqProg.take s.seqStep) as ++ shownNow s)

theorem traceFollows_iff : TraceFollows s ↔ (s.seqState = .busy → Follows s) := Iff.rfl

theorem shownNow_of_rsp {r : Response} (h : s.rsp = some r) : shownNow s = [.rsp r] := by rw [shownNow, h]

theorem shownNow_of_write {b : Byte} (hn : s.rsp = none) (ho : s.seqProg[s.seqStep]? = some (.write b)) :
    shownNow s = if s.bwOut then [.tx s.params.devAddr b] else [] := by
  rw [shownNow, hn, ho]

theorem shownNow_of_delay {ms : Nat} (hn : s.rsp = none) (ho : s.seqProg[s.seqStep]? = some (.delay ms)) :
    shownNow s = if s.delayCnt ≠ 0 then [.dly ms] else [] := by
  rw [shownNow, hn, ho]

/-- Before a micro-operation begins, and at the end of the micro-sequence, nothing is shown yet. -/
theorem shownNow_of_fresh (hn : s.rsp = none) (hw : s.bwOut = false) (hd : s.delayCnt = 0) : shownNow s = [] := by
  rw [shownNow, hn]
  rcases s.seqProg[s.seqStep]? with _ | _ | _ <;> simp [hw, hd]

/-- The events of two micro-sequences in a row, each with its own answers. -/
theorem eventsOf_append (p : Params) {xs : List MicroOp} (ys : List MicroOp) {as : List Answer} (bs : List Answer)
    (h : as.length = writeCount xs) : eventsOf p (xs ++ ys) (as ++ bs) = eventsOf p xs as ++ eventsOf p ys bs := by
  induction xs generalizing as with
  | nil => rw [List.length_eq_zero_iff.mp h]; rfl
  | cons o xs ih =>
    cases o with
    | write b =>
      obtain ⟨a, as, rfl⟩ : ∃ a as', as = a :: as' := List.exists_cons_of_length_pos (by rw [h, writeCount]; omega)
      simp [eventsOf, ih (Nat.succ.inj h)]
    | delay ms => simp [eventsOf, ih h]

/-- Within a micro-operation the trace grows by what is newly shown. -/
theorem Follows.within (h : Follows s) (hu : SameRequest s u) (hstep : u.seqStep = s.seqStep) {evs : List Event}
    (ht : u.trace = s.trace ++ evs) (hsh : shownNow u = shownNow s ++ evs) : Follows u := by
  obtain ⟨before, as, hlen, htr⟩ := h
  refine ⟨before, as, by rw [hu.prog, hstep, hlen], ?_⟩
  rw [ht, htr, hu.params, hu.word, hu.prog, hstep, hsh]
  simp

/-- A micro-operation ends: what it has shown in all is its events, and the next has shown nothing. -/
theorem Follows.next (h : Follows s) (hu : SameRequest s u) (hstep : u.seqStep = s.seqStep + 1) {o : MicroOp}
    (ho : s.seqProg[s.seqStep]? = some o) {evs : List Event} (ht : u.trace = s.trace ++ evs) {bs : List Answer}
    (hbs : bs.length = writeCount [o]) (hev : shownNow s ++ evs = eventsOf s.params [o] bs) (hsh : shownNow u = []) :
    Follows u := by
  obtain ⟨before, as, hlen, htr⟩ := h
  have htake : u.seqProg.take u.seqStep = s.seqProg.take s.seqStep ++ [o] := by
    rw [hu.prog, hstep, List.take_add_one, ho]; rfl
  refine ⟨before, as ++ bs, by rw [htake, writeCount_append, List.length_append, hlen, hbs], ?_⟩
  rw [ht, htr, hu.params, hu.word, htake, eventsOf_append _ _ _ hlen, ← hev, hsh]
  simp

/-! ## ... arm by arm -/

/-- A request that starts has shown its `Req` and nothing else. -/
theorem follows_startRequest (hn : s.rsp = none) (hw : s.bwOut = false) (hd : s.delayCnt = 0) {before : List Event}
    (ht : s.trace = before ++ [.req s.reqWord]) (prog : List MicroOp) : Follows (startRequest prog s) := by
  refine ⟨before, [], rfl, ?_⟩
  rw [shownNow_of_fresh (s := startRequest prog s) hn hw hd]
  exact ht

/-- Accepting a request: only one that starts is BUSY. -/
theorem follows_exec {w : Word} {rest : List Word} (h : BlockInv s) (hi : s.seqState = .idle) (hn : s.rsp = none)
    {i : Instr} (hu : exec i (latched s w rest) = .next u) : TraceFollows u := by
  rw [traceFollows_iff]
  intro hb
  cases exec_accepted hu with
  | fault c => cases hb
  | reject => cases hi.symm.trans hb
  | start prog =>
    have hidle : s.seqState ≠ .busy := by simp [hi]
    exact follows_startRequest (s := configured i (latched s w rest)) hn (h.noWrite hidle) (h.noDelay hidle)
      (latched_trace w rest) prog

section Busy

variable (hf : Follows s) (hn : s.rsp = none)
include hf hn

/-- The transport takes the write: its `Tx` is shown, once. -/
theorem follows_taken {b : Byte} (ho : s.seqProg[s.seqStep]? = some (.write b)) : Follows (taken b s) := by
  refine hf.within (u := taken b s) ⟨rfl, rfl, rfl⟩ rfl rfl ?_
  rw [shownNow_of_write (s := taken b s) hn ho, shownNow_of_write hn ho]
  cases hout : s.bwOut <;> rfl

/-- The completion: nothing is left to show but its `Rsp`. -/
theorem follows_completeRequest (hl : s.seqStep = s.seqProg.length) : Follows (completeRequest s) := by
  refine hf.within (u := completeRequest s) ⟨rfl, rfl, rfl⟩ rfl rfl ?_
  have hend : s.seqProg[s.seqStep]? = none := by simp [hl]
  rw [shownNow_of_rsp (completeRequest_rsp s), shownNow, hn, hend]
  rfl

variable (h : BlockInv s)
include h

/-- The answer ends the write. -/
theorem follows_answerWrite {b : Byte} (ho : s.seqProg[s.seqStep]? = some (.write b)) (hout : s.bwOut = true)
    (a : Answer) (rest : List Answer) : Follows (advance (answerWrite b a rest s)) := by
  refine hf.next (u := advance (answerWrite b a rest s)) ⟨rfl, rfl, rfl⟩ rfl ho rfl (bs := [a]) rfl ?_
    (shownNow_of_fresh hn rfl (h.noDelay_of_write ho))
  rw [shownNow_of_write hn ho, if_pos hout]
  rfl

/-- A `W` step: not taken, taken, or answered. -/
theorem follows_busWriteStep (hb : s.seqState = .busy) {b : Byte} (ho : s.seqProg[s.seqStep]? = some (.write b))
    (p : Pins) : Follows (busWriteStep p b s) := by
  have ht := follows_taken hf hn ho
  rcases busWriteStep_cases p b s with ⟨_, _, he⟩ | ⟨_, _, he⟩ | ⟨a, rest, _, _, _, he⟩ <;>
    simp only [he, ite_issueWrite_eq_taken]
  · exact hf
  · exact ht
  · exact follows_answerWrite ht hn (blockInv_taken h hb ho) ho rfl a rest

/-- A `D` step: its `Dly` is shown when the counter is loaded, and nothing more while it runs and ends. -/
theorem follows_delayStep {ms : Nat} (ho : s.seqProg[s.seqStep]? = some (.delay ms)) : Follows (delayStep ms s) := by
  have hw := h.noWrite_of_delay ho
  have hshown := shownNow_of_delay hn ho
  have hcounting {c : Nat} (h0 : c ≠ 0) : shownNow { s with delayCnt := c } = [.dly ms] := by
    rw [shownNow_of_delay (s := { s with delayCnt := c }) hn ho, if_pos h0]
  rcases hc : s.delayCnt with _ | _ | n <;> rw [hc] at hshown
  · by_cases hz : ms * s.params.clkPerMs = 0
    · rw [delayStep_zero hc hz]
      exact hf.next (u := advance (emit (.dly ms) { s with delayCnt := 0 })) ⟨rfl, rfl, rfl⟩ rfl ho rfl (bs := []) rfl
        (by rw [hshown]; rfl) (shownNow_of_fresh hn hw rfl)
    · rw [delayStep_start hc hz]
      exact hf.within (u := emit (.dly ms) { s with delayCnt := ms * s.params.clkPerMs }) ⟨rfl, rfl, rfl⟩ rfl rfl
        (by rw [hshown]; exact hcounting hz)
  · rw [delayStep_last hc]
    exact hf.next (u := advance { s with delayCnt := 0 }) ⟨rfl, rfl, rfl⟩ rfl ho (List.append_nil _).symm (bs := []) rfl
      (by rw [hshown]; rfl) (shownNow_of_fresh hn hw rfl)
  · rw [delayStep_tick hc]
    exact hf.within (u := { s with delayCnt := n + 1 }) ⟨rfl, rfl, rfl⟩ rfl (List.append_nil _).symm
      (by rw [hshown]; exact hcounting (Nat.succ_ne_zero n))

end Busy

/-- A step keeps the trace in program order, whichever arm it takes. -/
theorem step_keeps_traceFollows (h : BlockInv s) (hf : TraceFollows s) (hs : step s = .next s') : TraceFollows s' := by
  have hp := blockInv_samplePins h
  cases step_next_cases hs with
  | reset | released | illegal => exact fun hb => by cases hb
  | faulted | held => exact hf
  | noWord _ hi | collect _ hi => exact fun hb => by cases hi.symm.trans hb
  | accept _ hi hn _ w rest _ _ i _ _ hu => exact follows_exec h hi hn hu
  | write _ hb hn b ho => exact fun _ => follows_busWriteStep (s := samplePins s) (hf hb) hn hp hb ho _
  | delay _ hb hn ms ho => exact fun _ => follows_delayStep (s := samplePins s) (hf hb) hn hp ho
  | complete _ hb hn hl => exact fun _ => follows_completeRequest (s := samplePins s) (hf hb) hn hl

/-- Settles O15: one lemma per arm that leaves the block BUSY. -/
theorem everyStepKeepsTheTraceInProgramOrder : Obligations.EveryStepKeepsTheTraceInProgramOrder :=
  fun _ _ h hf hs => step_keeps_traceFollows h hf hs

end Sys2Proof.Machine
end

section
/-! # Request words and instructions

The decoder and the encoder agree in both directions (R47 to R52), and what decodes is exactly what R51 calls legal. -/

namespace Sys2Proof

open Sys2Proof.Safety

/-! ## Headers and payload lengths -/

/-- A word whose four fields are known. -/
theorem mkHeader_eq {w : Word} {op a b c : Byte} (ho : opOf w = op) (ha : aOf w = a) (hb : bOf w = b) (hc : cOf w = c) :
    mkHeader op a b c = w := by
  rw [← ho, ← ha, ← hb, ← hc, mkHeader_fields]

/-- The length of a well-formed WSTR's text fits the field `A` (R53). -/
theorem toNat_length_wstr {row col : Byte} {text : List Byte} (hw : (Instr.wstr row col text).wellFormed = true) :
    (BitVec.ofNat 8 text.length).toNat = text.length := by
  have hlen : text.length ≤ 255 := of_decide_eq_true hw
  rw [BitVec.toNat_ofNat]
  omega

/-- A header announces the number of its instruction's characters: `A` for WSTR and none for any other (R48, R52). -/
theorem payloadBytes_length {i : Instr} (hw : i.wellFormed = true) :
    (payloadBytes i).length = if opOf (header i) = opWstr then (aOf (header i)).toNat else 0 := by
  cases i with
  | wstr row col text =>
    rw [header, opOf_mkHeader, if_pos rfl, aOf_mkHeader, toNat_length_wstr hw, payloadBytes]
  | _ => rw [header, opOf_mkHeader, if_neg (by decide)]; rfl

/-- ... and the number of the words they are packed in. -/
theorem pack_payloadBytes_length {i : Instr} (hw : i.wellFormed = true) :
    (pack (payloadBytes i)).length = payloadWords (header i) := by
  rw [pack_length, payloadBytes_length hw, payloadWords]
  split <;> rfl

/-! ## Decoding a header that was encoded -/

/-- A well-formed instruction's header decodes to it, before bytes that begin with its characters. -/
theorem decode_header {i : Instr} {bytes : List Byte} (hw : i.wellFormed = true)
    (hb : payloadBytes i = bytes.take (payloadBytes i).length) : decode (header i) bytes = .ok i := by
  cases i with
  | wstr row col text =>
    replace hb : bytes.take text.length = text := hb.symm
    simp +decide only [decode, header, opOf_mkHeader, aOf_mkHeader, bOf_mkHeader, cOf_mkHeader, toNat_length_wstr hw, hb,
      if_true, if_false]
  | _ => simp +decide [decode, header, whenZero, append_extract]

/-! ## Legal headers (R51) -/

/-- A legal header is the header of an instruction, whose characters are the first of any bytes that are enough. -/
theorem header_of_legalHeader {w : Word} {bytes : List Byte} (h : LegalHeader w)
    (hl : opOf w = opWstr → (aOf w).toNat ≤ bytes.length) :
    ∃ i : Instr, i.wellFormed = true ∧ header i = w ∧ payloadBytes i = bytes.take (payloadBytes i).length := by
  rcases h with ⟨ho, ha, hb⟩ | ⟨ho, ha, hb⟩ | ⟨ho, ha, hb⟩ | ⟨ho, ha⟩ | ⟨ho, ha, hb⟩ | ⟨ho, ha⟩ | ⟨ho, ha, hb, hc⟩ |
    ⟨ho, ha, hb, hc⟩ | ⟨ho, ha⟩ | ho | ho | ho
  · exact ⟨.cmd8 (cOf w), rfl, mkHeader_eq ho ha hb rfl, rfl⟩
  · exact ⟨.cmd4 (cOf w), rfl, mkHeader_eq ho ha hb rfl, rfl⟩
  · exact ⟨.data4 (cOf w), rfl, mkHeader_eq ho ha hb rfl, rfl⟩
  · obtain ⟨hb, hc⟩ := extract_append (bOf w) (cOf w)
    exact ⟨.wait (bOf w ++ cOf w), rfl, mkHeader_eq ho ha hb.symm hc.symm, rfl⟩
  · exact ⟨.setbl (cOf w), rfl, mkHeader_eq ho ha hb rfl, rfl⟩
  · exact ⟨.init (bOf w) (cOf w), rfl, mkHeader_eq ho ha rfl rfl, rfl⟩
  · exact ⟨.clear, rfl, mkHeader_eq ho ha hb hc, rfl⟩
  · exact ⟨.home, rfl, mkHeader_eq ho ha hb hc, rfl⟩
  · exact ⟨.setcur (bOf w) (cOf w), rfl, mkHeader_eq ho ha rfl rfl, rfl⟩
  · exact ⟨.wchar (aOf w) (bOf w) (cOf w), rfl, mkHeader_eq ho rfl rfl rfl, rfl⟩
  · have hlen : (bytes.take (aOf w).toNat).length = (aOf w).toNat := List.length_take_of_le (hl ho)
    have hlt := (aOf w).isLt
    refine ⟨.wstr (bOf w) (cOf w) (bytes.take (aOf w).toNat), decide_eq_true (by omega), mkHeader_eq ho ?_ rfl rfl, ?_⟩
    · rw [hlen, BitVec.ofNat_toNat, BitVec.setWidth_eq]
    · rw [payloadBytes, hlen]
  · exact ⟨.setmode (aOf w) (bOf w) (cOf w), rfl, mkHeader_eq ho rfl rfl rfl, rfl⟩

/-- What decodes has a legal header, whichever row of R50 it is. -/
theorem legalHeader_of_decode {w : Word} {bytes : List Byte} {i : Instr} (h : decode w bytes = .ok i) : LegalHeader w := by
  rcases decode_ok_cases h with ⟨ho, ha, hb, _⟩ | ⟨ho, ha, hb, _⟩ | ⟨ho, ha, hb, _⟩ | ⟨ho, ha, _⟩ | ⟨ho, ha, hb, _⟩ |
    ⟨ho, ha, _⟩ | ⟨ho, ha, hb, hc, _⟩ | ⟨ho, ha, hb, hc, _⟩ | ⟨ho, ha, _⟩ | ⟨ho, _⟩ | ⟨ho, _⟩ | ⟨ho, _⟩ <;>
    simp +decide [LegalHeader, *]

/-- A WSTR decodes only with a byte for each character it announces. -/
theorem le_length_of_decode {w : Word} {bytes : List Byte} {i : Instr} (h : decode w bytes = .ok i)
    (ho : opOf w = opWstr) : (aOf w).toNat ≤ bytes.length := by
  by_contra hshort
  simp +decide [decode, ho, hshort] at h

/-- A complete request decodes exactly when its header is legal (R51). -/
theorem decodeWords_ok_iff_legalHeader {hdr : Word} {ps : List Word} (hl : ps.length = payloadWords hdr) :
    (∃ i, decodeWords (hdr :: ps) = .ok i) ↔ LegalHeader hdr := by
  rw [decodeWords_cons hl]
  refine ⟨fun ⟨_, h⟩ => legalHeader_of_decode h, fun h => ?_⟩
  have henough (ho : opOf hdr = opWstr) : (aOf hdr).toNat ≤ (unpack ps).length := by
    rw [unpack_length, hl]; exact le_four_mul_payloadWords ho
  obtain ⟨i, hw, rfl, hb⟩ := header_of_legalHeader h henough
  exact ⟨i, decode_header hw hb⟩

/-! ## Both directions -/

/-- The decoder inverts the encoder: a header decodes to the one well-formed instruction that it is the header of, with the
characters that come with it. -/
theorem decode_eq_ok_iff {hdr : Word} {bytes : List Byte} {i : Instr} :
    decode hdr bytes = .ok i ↔
      i.wellFormed = true ∧ header i = hdr ∧ payloadBytes i = bytes.take (payloadBytes i).length := by
  refine ⟨fun h => ?_, fun ⟨hw, hh, hb⟩ => hh ▸ decode_header hw hb⟩
  obtain ⟨j, hw, rfl, hb⟩ := header_of_legalHeader (legalHeader_of_decode h) (le_length_of_decode h)
  obtain rfl : j = i := Except.ok.inj ((decode_header hw hb).symm.trans h)
  exact ⟨hw, rfl, hb⟩

theorem decodeWords_eq_ok_iff {hdr : Word} {ps : List Word} {i : Instr} :
    decodeWords (hdr :: ps) = .ok i ↔ ps.length = payloadWords hdr ∧ decode hdr (unpack ps) = .ok i := by
  by_cases hl : ps.length = payloadWords hdr <;> simp [decodeWords, hl]

/-- Settles O2: the payload's length is the one announced, and `unpack` gives the characters back. -/
theorem decodeInvertsEncode : Obligations.DecodeInvertsEncode := fun _ hw =>
  decodeWords_eq_ok_iff.mpr ⟨pack_payloadBytes_length hw, decode_header hw (unpack_pack _).symm⟩

/-- Settles O3: `decode_eq_ok_iff`, with the characters read off the payload's lanes. -/
theorem decodedRequestsKeepEveryBit : Obligations.DecodedRequestsKeepEveryBit := by
  intro hdr ps i h
  obtain ⟨hl, hd⟩ := decodeWords_eq_ok_iff.mp h
  obtain ⟨hw, rfl, hb⟩ := decode_eq_ok_iff.mp hd
  refine ⟨hw, rfl, ?_⟩
  rw [hb, payloadBytes_length hw]
  change _ = if opOf (header i) = opWstr then _ else _
  split
  next ho => exact unpack_take ps _ (hl ▸ le_four_mul_payloadWords ho)
  next => exact List.take_zero

/-- Settles O1: the words are closed, so the decoder evaluates on each. -/
theorem tabledWordsDecodeToTheirRequests : Obligations.TabledWordsDecodeToTheirRequests := by
  unfold Obligations.TabledWordsDecodeToTheirRequests
  decide

end Sys2Proof
end

section
/-! # Requests that are taken and decided

What the step that takes a request's last word leads to: `Fault(IllegalRequest)` for an illegal header (R51), and for a WSTR
its characters in `PAYLOAD` (R52). -/

namespace Sys2Proof.Machine

open Sys2Proof.Safety

variable {s u : State}

/-! ## Illegal requests (R51) -/

/-- Deciding a latched request whose words do not decode is the fault. -/
theorem decideRequest_illegal {hdr : Word} {ps rest : List Word} {n : Nat} (h : ¬ LegalHeader hdr) :
    decideRequest (takenRequest s hdr ps rest n) =
      .next (raiseFault .illegalRequest (takenRequest s hdr ps rest n)) := by
  unfold decideRequest
  split
  next i hd => exact absurd (legalHeader_of_decode hd) h
  next => rfl

/-- A request of one word is taken and decided, whatever that leads to. -/
theorem takesTo_of_decideRequest {w : Word} {rest : List Word} (ho : Offered s [w] rest) (hl : payloadWords w = 0) :
    ∃ n, ∀ u, decideRequest (takenRequest s w [] rest n) = .next u → TakesTo s u := by
  obtain ⟨k, v, _, hk, hrun, _, _, hstep⟩ := request_taken ho hl.symm
  refine ⟨k + 1, fun u hu => ⟨⟨k + 1, run_then_step hrun (hstep.trans hu)⟩, fun hp => ?_⟩⟩
  obtain rfl : k = 0 := hk rfl hp
  obtain rfl : s = v := Host.Outcome.next.inj hrun
  exact hstep.trans hu

/-- The fault of a request that is offered leaves everything else of the block as it was (R81). -/
theorem faultedBy_raiseFault {hdr : Word} {ps rest : List Word} (ho : Offered s (hdr :: ps) rest) (c : FaultCause)
    (n : Nat) : FaultedBy hdr c.code s (raiseFault c (takenRequest s hdr ps rest n)) where
  trace := List.append_assoc _ _ _
  faulted := rfl
  fault := rfl
  faultCause := if_neg (by simp [takenRequest, ho.idle.noFault])
  rsp := ho.idle.noRsp
  answers := rfl
  status := rfl
  terr := rfl
  rows := rfl
  cols := rfl
  bl := rfl
  init := rfl
  ghost := rfl
  params := rfl

/-- An illegal word is a whole request, and the block faults on taking it. -/
theorem illegal_word_faults {w : Word} {rest : List Word} (ho : Offered s [w] rest) (h : ¬ LegalHeader w) :
    ∃ u, TakesTo s u ∧ FaultedBy w 0x01 s u ∧ u.env.reqIn = rest := by
  have hop : opOf w ≠ opWstr := fun hop => h (by simp [LegalHeader, hop, opWstr])
  have hl : payloadWords w = 0 := if_neg hop
  obtain ⟨n, hn⟩ := takesTo_of_decideRequest ho hl
  exact ⟨_, hn _ (decideRequest_illegal h), faultedBy_raiseFault ho .illegalRequest n, rfl⟩

/-- Settles O5: what decodes is what is legal, and an illegal word faults when it is taken. -/
theorem illegalRequestsFault : Obligations.IllegalRequestsFault :=
  ⟨fun _ _ hl => decodeWords_ok_iff_legalHeader hl, fun _ _ _ ho h => illegal_word_faults ho h⟩

/-! ## WSTR's payload (R52) -/

section Accepted

variable {i : Instr} (h : Accepted i s u)
include h

theorem Accepted.payload : u.payload = s.payload := by cases h <;> rfl
theorem Accepted.collected : u.collected = s.collected := by cases h <;> rfl
theorem Accepted.env : u.env = s.env := by cases h <;> rfl

end Accepted

/-- Once a WSTR is latched, `PAYLOAD` holds its characters. -/
theorem takenRequest_payload {hdr : Word} {ps rest : List Word} {n : Nat} (ho : opOf hdr = opWstr)
    (hl : ps.length = payloadWords hdr) {i : Nat} (hi : i < (aOf hdr).toNat) :
    (takenRequest s hdr ps rest n).payload.toList[i]? = some (charAt ps i) := by
  have henough : (aOf hdr).toNat ≤ 4 * ps.length := hl ▸ le_four_mul_payloadWords ho
  have hlt := (aOf hdr).isLt
  have hlen : ((unpack ps).take (aOf hdr).toNat).length = (aOf hdr).toNat :=
    List.length_take_of_le (by rw [unpack_length]; exact henough)
  have htake := loadPayload_take (old := s.payload) (text := (unpack ps).take (aOf hdr).toNat) (by omega)
  rw [hlen] at htake
  calc (loadPayload s.payload ((unpack ps).take (aOf hdr).toNat)).toList[i]?
      = ((unpack ps).take (aOf hdr).toNat)[i]? := by rw [← List.getElem?_take_of_lt hi, htake]
    _ = (unpack ps)[i]? := List.getElem?_take_of_lt hi
    _ = some (charAt ps i) := unpack_getElem? ps i (by omega)

/-- The step that takes a WSTR's last word accepts the request. -/
theorem decideRequest_wstr {hdr : Word} {ps rest : List Word} {n : Nat} (ho : opOf hdr = opWstr)
    (hl : ps.length = payloadWords hdr) :
    ∃ i u, decideRequest (takenRequest s hdr ps rest n) = .next u ∧ Accepted i (takenRequest s hdr ps rest n) u := by
  have hlegal : LegalHeader hdr := by simp [LegalHeader, ho, opWstr]
  obtain ⟨i, hd⟩ := (decodeWords_ok_iff_legalHeader hl).mpr hlegal
  obtain ⟨u, hu⟩ := exec_next i (takenRequest s hdr ps rest n)
  exact ⟨i, u, (decideRequest_taken hl hd).trans hu, exec_accepted hu⟩

/-- Two payloads with the same characters decode alike, whatever their padding. -/
theorem decodeWords_congr {hdr : Word} {ps qs : List Word} (hp : ps.length = payloadWords hdr)
    (hq : qs.length = payloadWords hdr) (h : ∀ i, i < (aOf hdr).toNat → charAt ps i = charAt qs i) :
    decodeWords (hdr :: ps) = decodeWords (hdr :: qs) := by
  rw [decodeWords_cons hp, decodeWords_cons hq]
  refine decode_congr fun ho => ?_
  have henough := le_four_mul_payloadWords ho
  rw [unpack_take ps _ (hp ▸ henough), unpack_take qs _ (hq ▸ henough)]
  exact List.map_congr_left fun i hi => h i (List.mem_range.mp hi)

/-- Settles O6: `request_taken`, with the payload register as the accepted request leaves it. -/
theorem wstrPayloadIsTakenWholeAndUnpacked : Obligations.WstrPayloadIsTakenWholeAndUnpacked := by
  refine ⟨payloadWords_eq, fun s hdr ps rest hoff ho hl => ?_, fun _ _ _ _ hp hq h => decodeWords_congr hp hq h⟩
  obtain ⟨k, v, hk, _, hrun, hv, hpr, hstep⟩ := request_taken hoff hl
  obtain ⟨i, u, hu, hacc⟩ := decideRequest_wstr (s := s) (rest := rest) (n := k + 1) ho hl
  obtain ⟨evs, htrace, _⟩ := hacc.no_tx
  have hreq : u.trace = s.trace ++ .req hdr :: evs := htrace.trans (List.append_assoc _ _ _)
  have hready : reqReady v = true := by rw [hv]; simp [reqReady, hoff.idle.idle, hoff.idle.noRsp]
  refine ⟨v, u, ⟨k, hrun⟩, fun hp => hk hp ▸ hrun, by rw [hv]; exact hoff.idle.idle, by rw [hv], by rw [hv], hready, hpr,
    hstep.trans hu, by rw [hacc.env]; rfl, hacc.collected, hacc.reqWord, ⟨evs, hreq⟩, fun j hj => ?_⟩
  rw [hacc.payload]
  exact takenRequest_payload ho hl hj

end Sys2Proof.Machine
end

section
/-! # Assembly lines (R53) -/

namespace Sys2Proof.Machine

/-- A number that is the value of a field is that field. -/
@[simp] theorem field_number {w : Nat} (a : BitVec w) : (AsmOperand.number a.toNat).field w = .ok a := by
  rw [AsmOperand.field, if_pos a.isLt, BitVec.ofNat_toNat, BitVec.setWidth_eq]

/-- A character literal is its code. -/
@[simp] theorem field_char (a : Byte) : (AsmOperand.char a).field 8 = .ok a := by
  rw [AsmOperand.field, BitVec.zeroExtend, BitVec.setWidth_eq]

/-- WSTR's line, with text of any length (R53). -/
theorem assemble_wstr (x y : AsmOperand) (text : List Byte) :
    assemble "WSTR" [x, y, .text text] =
      if 255 < text.length then .error .textTooLong
      else (x.field 8).bind fun row => (y.field 8).map fun col => .wstr row col text := rfl

/-- Settles O4: each operand reads as its field, and WSTR's text is checked first. -/
theorem assemblyLinesGiveTheirRequests : Obligations.AssemblyLinesGiveTheirRequests := by
  refine ⟨fun a b c => ?_, fun ms => ?_, fun row col text hw => ?_, fun x y text hlong => ?_⟩
  · simp [assemble, Except.map, Except.bind]
  · simp [assemble, Except.map]
  · have hshort : ¬ 255 < text.length := Nat.not_lt.mpr (of_decide_eq_true hw)
    rw [assemble_wstr, if_neg hshort, field_number, field_number]
    rfl
  · rw [assemble_wstr, if_pos hlong]

end Sys2Proof.Machine
end

section
/-! # A micro-sequence and its response, written out

What a running request leaves once its bus writes are answered, register by register (R21, R22, R41, R78, R79). -/

namespace Sys2Proof.Machine

open Sys2Proof.Safety

variable {s : State}

/-! ## The status and the error value of the answers -/

/-- `STATUS` after bus writes answered `as`, from `st` on: that of the last answer (R31, R79). -/
def lastStatus : Byte → List Answer → Byte
  | st, [] => st
  | _, a :: as => lastStatus a.status.code as

theorem lastStatus_answer (a : Answer) (as : List Answer) : lastStatus a.status.code as = finalStatus (a :: as) := by
  induction as generalizing a with
  | nil => cases a <;> rfl
  | cons b as ih => rw [lastStatus, ih, finalStatus, finalStatus, List.getLast?_cons_cons]

/-- From acceptance on, where `STATUS` is OK, it is the status of the statements. -/
theorem lastStatus_ok (as : List Answer) : lastStatus 0x00 as = finalStatus as := by
  cases as with
  | nil => rfl
  | cons a as => exact lastStatus_answer a as

theorem finalTerr_cons (t : TErr) (a : Answer) (as : List Answer) : finalTerr t (a :: as) = finalTerr (a.terr t) as := by
  cases a <;> rfl

/-- `Respond(STATUS)` after those answers is the response of the statements (R78). -/
theorem responseOf_lastStatus (t : TErr) (as : List Answer) :
    responseOf (lastStatus 0x00 as) (finalTerr t as) = finalResponse t as := by
  rw [lastStatus_ok]; rfl

/-! ## Running micro-operations -/

/-- A request runs, with no reset to come, and its current micro-operation has not begun. -/
structure BetweenOps (s : State) : Prop where
  busy : s.seqState = .busy
  noRsp : s.rsp = none
  noReset : NoReset s
  noWrite : s.bwOut = false
  noDelay : s.delayCnt = 0

/-- `s` after `k` steps that ran the micro-operations `ops` with their bus writes answered `as`, where `more` answers and the
ghost state `g` are left. -/
def ran (ops : List MicroOp) (as more : List Answer) (k : Nat) (g : Ghost) (s : State) : State :=
  { s with
    status := lastStatus s.status as
    terrLast := finalTerr s.terrLast as
    seqStep := s.seqStep + ops.length
    env := { s.env with answers := more, pins := s.env.pins.drop k }
    ghost := g
    trace := s.trace ++ eventsOf s.params ops as }

/-- `s` after a whole delay of `ms` milliseconds that took `j` steps. -/
def afterDelay (ms j : Nat) (s : State) : State := afterPins j (advance (emit (.dly ms) { s with delayCnt := 0 }))

/-- `s` after a bus write that was answered `a` and took `j` steps. -/
def afterWrite (b : Byte) (a : Answer) (more : List Answer) (j : Nat) (s : State) : State :=
  afterPins j (advance (answerWrite b a more (taken b s)))

section Ran

variable {ops : List MicroOp} {as more : List Answer} {j k : Nat} {g : Ghost}

theorem ran_afterDelay (hd : s.delayCnt = 0) {ms : Nat} :
    ran ops as more k g (afterDelay ms j s) = ran (.delay ms :: ops) as more (j + k) g s := by
  simp [ran, afterDelay, afterPins, advance, emit, eventsOf, hd, Nat.add_assoc, Nat.add_comm 1]

theorem ran_afterWrite (hw : s.bwOut = false) {b : Byte} {a : Answer} {left : List Answer} :
    ran ops as more k g (afterWrite b a left j s) = ran (.write b :: ops) (a :: as) more (j + k) g s := by
  simp [ran, afterWrite, afterPins, advance, answerWrite, taken, emit, eventsOf, lastStatus, finalTerr_cons, hw,
    Nat.add_assoc, Nat.add_comm 1]

end Ran

/-- A bus write that is answered, in one step if no agent keeps the block waiting. -/
theorem BetweenOps.run_write (h : BetweenOps s) {b : Byte} (ho : s.seqProg[s.seqStep]? = some (.write b)) {a : Answer}
    {more : List Answer} (ha : s.env.answers = a :: more) :
    ∃ j, (Prompt s → j = 1) ∧ runFor j s = .next (afterWrite b a more j s) := by
  by_cases hp : Prompt s
  · obtain ⟨_, hrdy, hv⟩ := ready_of_prompt hp
    exact ⟨1, fun _ => rfl, run_succ (step_answered_afterPins (k := 0) h.busy h.noRsp h.noReset ho ha (.inr hrdy) hv)⟩
  · obtain ⟨j, hj⟩ := Machine.run_write h.busy h.noRsp h.noReset ho ha
    exact ⟨j, fun hp' => absurd hp' hp, hj⟩

theorem BetweenOps.afterWrite (h : BetweenOps s) (b : Byte) (a : Answer) (more : List Answer) (j : Nat) :
    BetweenOps (afterWrite b a more j s) :=
  ⟨h.busy, h.noRsp, noReset_of_pins h.noReset rfl, rfl, h.noDelay⟩

theorem BetweenOps.afterDelay (h : BetweenOps s) (ms j : Nat) : BetweenOps (afterDelay ms j s) :=
  ⟨h.busy, h.noRsp, noReset_of_pins h.noReset rfl, h.noWrite, rfl⟩

/-- With every bus write answered the micro-operations to come run in order, whatever the answers are (R79), in `stepsOf`
steps if no agent keeps the block waiting. -/
theorem run_ops {more : List Answer} (ops : List MicroOp) :
    ∀ (s : State) (as : List Answer), BetweenOps s → s.seqProg.drop s.seqStep = ops → s.env.answers = as ++ more →
    as.length = writeCount ops →
    ∃ k g, (Prompt s → k = stepsOf s.params.clkPerMs ops) ∧ runFor k s = .next (ran ops as more k g s) := by
  induction ops with
  | nil =>
    intro s as _ _ has hl
    obtain rfl : as = [] := List.length_eq_zero_iff.mp hl
    have hmore : more = s.env.answers := has.symm
    exact ⟨0, s.ghost, fun _ => rfl, by simp [ran, lastStatus, finalTerr, eventsOf, hmore]⟩
  | cons o ops ih =>
    intro s as h hd has hl
    have ho : s.seqProg[s.seqStep]? = some o := by rw [← List.head?_drop, hd]; rfl
    have hnext : s.seqProg.drop (s.seqStep + 1) = ops := by rw [← List.tail_drop, hd]; rfl
    cases o with
    | delay ms =>
      have hj := run_delay h.busy h.noRsp h.noReset h.noDelay ho
      obtain ⟨k, g, hk, hrun⟩ := ih _ as (h.afterDelay ms (ms * s.params.clkPerMs + 1)) hnext has hl
      refine ⟨_, g, fun hp => ?_, (run_add hj).trans (hrun.trans (congrArg _ (ran_afterDelay h.noDelay)))⟩
      rw [hk (prompt_of_pins hp rfl)]; rfl
    | write b =>
      obtain ⟨a, as, rfl⟩ : ∃ a as', as = a :: as' := List.exists_cons_of_length_pos (by rw [hl, writeCount]; omega)
      obtain ⟨j, hj1, hj⟩ := h.run_write ho has
      obtain ⟨k, g, hk, hrun⟩ := ih _ as (h.afterWrite b a (as ++ more) j) hnext rfl (Nat.succ.inj hl)
      refine ⟨_, g, fun hp => ?_, (run_add hj).trans (hrun.trans (congrArg _ (ran_afterWrite h.noWrite)))⟩
      rw [hj1 hp, hk (prompt_of_pins hp rfl), Nat.add_comm]; rfl

/-- `s` with its whole micro-sequence run in `k` steps and the request completed in one more. -/
def answered (as more : List Answer) (k : Nat) (g : Ghost) (s : State) : State :=
  completeRequest (samplePins (ran s.seqProg as more k g s))

/-- A request that has just started runs its whole micro-sequence and responds. -/
theorem run_to_answered (h : BetweenOps s) (h0 : s.seqStep = 0) {as more : List Answer} (has : s.env.answers = as ++ more)
    (hl : as.length = writeCount s.seqProg) :
    ∃ k g, (Prompt s → k = stepsOf s.params.clkPerMs s.seqProg) ∧ runFor (k + 1) s = .next (answered as more k g s) := by
  obtain ⟨k, g, hk, hrun⟩ := run_ops s.seqProg s as h (by rw [h0]; rfl) has hl
  refine ⟨k, g, hk, run_then_step hrun (step_complete ?_ h.busy h.noRsp ?_)⟩
  · exact resetAsserted_of_noReset (noReset_of_pins (n := k) h.noReset rfl)
  · simp [ran, h0]

/-! ## A request from the port to its response -/

/-- What the request `i`, with header `hdr` and payload words `ps`, leaves in the registers that only some requests write, and
what it leaves on the port. -/
structure Configured (i : Instr) (hdr : Word) (ps rest : List Word) (s u : State) : Prop where
  bl : u.bl = (configured i s).bl
  rows : u.cfgRows = (configured i s).cfgRows
  cols : u.cfgCols = (configured i s).cfgCols
  init : u.initDone = (s.initDone || opOf hdr == opInit)
  payload : u.payload = loadPayload s.payload ((unpack ps).take (aOf hdr).toNat)
  port : u.env.reqIn = rest

/-- `s` with the offered request taken in `n` steps and started. -/
def started (i : Instr) (prog : List MicroOp) (hdr : Word) (ps rest : List Word) (n : Nat) (s : State) : State :=
  startRequest prog (configured i (takenRequest s hdr ps rest n))

section Started

variable {i : Instr} {prog : List MicroOp} {hdr : Word} {ps rest : List Word} {n : Nat} {as more : List Answer}

theorem betweenOps_started (ho : Offered s (hdr :: ps) rest) : BetweenOps (started i prog hdr ps rest n s) :=
  ⟨rfl, ho.idle.noRsp, noReset_of_pins (n := n) ho.noReset rfl, ho.idle.noWrite, ho.idle.noDelay⟩

theorem configured_answered (k : Nat) (g : Ghost) :
    Configured i hdr ps rest s (answered as more k g (started i prog hdr ps rest n s)) :=
  ⟨rfl, rfl, rfl, rfl, rfl, rfl⟩

theorem responded_answered (ho : Offered s (hdr :: ps) rest) (has : s.env.answers = as ++ more) (k : Nat) (g : Ghost) :
    Responded hdr prog as s (answered as more k g (started i prog hdr ps rest n s)) where
  trace := by
    rw [← responseOf_lastStatus]
    simp [answered, ran, started, configured, takenRequest]
  rsp := congrArg some (responseOf_lastStatus _ _)
  status := lastStatus_ok as
  terr := rfl
  reqWord := rfl
  busy := rfl
  collected := rfl
  bwOut := ho.idle.noWrite
  delayCnt := ho.idle.noDelay
  answers := by rw [has, List.drop_left]; rfl
  fault := rfl
  faultCause := rfl
  params := rfl

/-- A request that is offered, decodes, is accepted with the micro-sequence `prog` and has its bus writes answered runs to its
response (R26, R78, R79). -/
theorem request_responds (ho : Offered s (hdr :: ps) rest) (hd : decodeWords (hdr :: ps) = .ok i)
    (hx : ∀ n, exec i (takenRequest s hdr ps rest n) = .next (started i prog hdr ps rest n s))
    (has : s.env.answers = as ++ more) (hl : as.length = writeCount prog) :
    ∃ u, Runs s u ∧ Configured i hdr ps rest s u ∧ Responded hdr prog as s u := by
  have hps := (decodeWords_eq_ok_iff.mp hd).1
  obtain ⟨j, v, _, _, hrun, _, _, hstep⟩ := request_taken ho hps
  have hstart := hstep.trans ((decideRequest_taken hps hd).trans (hx (j + 1)))
  obtain ⟨k, g, _, hend⟩ := run_to_answered (betweenOps_started (i := i) (prog := prog) (n := j + 1) ho) rfl has hl
  exact ⟨_, runs_trans ⟨j + 1, run_then_step hrun hstart⟩ ⟨k + 1, hend⟩, configured_answered k g,
    responded_answered ho has k g⟩

end Started

end Sys2Proof.Machine
end

section
/-! # The Nibble Transfer Engine's requests (R59 to R64) -/

namespace Sys2Proof.Machine

open Sys2Proof.Safety

variable {s : State}

/-! ## The engine's bytes (R57, R58, R64) -/

section Bytes

variable {p : Params} (bl : Bool)

/-- RS is a line of its own in every byte of a transfer. -/
theorem bytes8_true (v : Byte) : bytes8 p bl v true = (bytes8 p bl v false).map (· ||| p.rsBit) := by
  have pair (n : Nibble) : nibblePair p bl n true = (nibblePair p bl n false).map (· ||| p.rsBit) := by
    simp [nibblePair, lineByte_true, BitVec.or_assoc, BitVec.or_comm p.enBit]
  simp [bytes8, pair]

/-- A command transfer leaves RS low. -/
theorem bytes8_false_and_rs (h : p.Wf) (v : Byte) : ∀ b ∈ bytes8 p bl v false, b &&& p.rsBit = 0 := by
  have hlow (n : Nibble) : lineByte p bl n false &&& p.rsBit = 0 := lineByte_and_rs h bl n false
  have hhigh (n : Nibble) : (lineByte p bl n false ||| p.enBit) &&& p.rsBit = 0 := by
    rw [or_and, hlow, mask_and_mask h.en h.rs (Params.Wf.ne h).1]; rfl
  simp [bytes8, nibblePair, hlow, hhigh]

/-- Each half of the byte stands in bits 7:4 of its two bus bytes, the high half first. -/
theorem bytes8_high (h : p.Wf) (v : Byte) (rs : Bool) :
    (bytes8 p bl v rs).map (fun b => b.extractLsb' 4 4) =
      [v.extractLsb' 4 4, v.extractLsb' 4 4, v.extractLsb' 0 4, v.extractLsb' 0 4] := by
  simp only [bytes8, nibblePair, List.cons_append, List.nil_append, List.map_cons, List.map_nil, lineByte_high h,
    lineByte_en_high h]

end Bytes

/-- What a request loads, or leaves in `SEQ_PROG`, is framed and keeps its lines. -/
theorem framed_linesOk_of_accepted {i : Instr} {u : State} (h : BlockInv s) (hu : Accepted i s u) :
    Framed u.params u.bl u.seqProg ∧ LinesOk u.params u.bl u.seqProg := by
  cases hu with
  | fault | reject => exact ⟨h.framed, h.lines⟩
  | start prog hl =>
    have hl := hl h.params
    exact ⟨hl.framed, hl.lines⟩

/-- Settles O32: the two transfers' bytes, and the framing of whatever is accepted. -/
theorem engineLaws : Obligations.EngineLaws :=
  ⟨fun s v hp => ⟨bytes8 s.params s.bl v false, bytes8 s.params s.bl v true, _, _, rfl, rfl, rfl, rfl, rfl,
    bytes8_true s.bl v, bytes8_false_and_rs s.bl hp v, bytes8_high s.bl hp v false, bytes8_high s.bl hp v true⟩,
    fun _ _ _ h hu => framed_linesOk_of_accepted h (exec_accepted hu)⟩

/-! ## Acceptance -/

/-- Settles O34: the machine's transfers are the statement's bytes by definition. -/
theorem transferRequestsAreAccepted : Obligations.TransferRequestsAreAccepted := fun _ _ => ⟨rfl, rfl, rfl⟩

theorem waitProgram_eq (ms : BitVec 16) : waitProgram ms = if ms.toNat = 0 then [] else [.delay ms.toNat] := by
  simp only [waitProgram, ← BitVec.toNat_inj]; rfl

/-- Settles O35: `waitProgram_eq`. -/
theorem waitIsAccepted : Obligations.WaitIsAccepted := by
  intro s ms
  rw [← waitProgram_eq]
  rfl

theorem nz_eq (v : Byte) : nz v = decide (v ≠ 0) := by simp [nz, bne, beq_eq_decide]

theorem blbits_nz (p : Params) (v : Byte) : blbits p (nz v) = if v ≠ 0 then p.blBit else 0 := by
  simp only [blbits, nz_eq, decide_eq_true_eq]

/-- Settles O36: `nz` of the operand, and the backlight line it gives. -/
theorem setblIsAccepted : Obligations.SetblIsAccepted := by
  intro s on
  rw [← nz_eq, ← blbits_nz]
  rfl

/-! ## From the port to the response -/

/-- A word that is the header of a request without payload decodes to it. -/
theorem decodeWords_of_header {w : Word} {i : Instr} (hh : header i = w) (hw : i.wellFormed = true)
    (hp : payloadBytes i = []) : decodeWords [w] = .ok i := by
  have hd := decodeInvertsEncode i hw
  rwa [encode, hh, hp] at hd

/-- A CMD8, CMD4, DATA4 or SETBL word with a reserved field that is not 0 faults (R48, R51). -/
theorem formatV_faults {w : Word} {rest : List Word} (ho : Offered s [w] rest)
    (hop : opOf w = 0x01 ∨ opOf w = 0x02 ∨ opOf w = 0x03 ∨ opOf w = 0x05) (h : aOf w ≠ 0 ∨ bOf w ≠ 0) :
    ∃ u, TakesTo s u ∧ FaultedBy w 0x01 s u := by
  have hres : ¬ (aOf w = 0 ∧ bOf w = 0) := not_and_or.mpr h
  have hill : ¬ LegalHeader w := by
    rcases hop with hop | hop | hop | hop <;> simpa +decide [LegalHeader, hop] using hres
  obtain ⟨u, htake, hf, _⟩ := illegal_word_faults ho hill
  exact ⟨u, htake, hf⟩

/-- A WAIT word with a reserved field that is not 0 faults (R48, R51). -/
theorem wait_faults {w : Word} {rest : List Word} (ho : Offered s [w] rest) (hop : opOf w = 0x04) (ha : aOf w ≠ 0) :
    ∃ u, TakesTo s u ∧ FaultedBy w 0x01 s u := by
  have hill : ¬ LegalHeader w := by simpa +decide [LegalHeader, hop] using ha
  obtain ⟨u, htake, hf, _⟩ := illegal_word_faults ho hill
  exact ⟨u, htake, hf⟩

section Word

variable {w : Word} {rest : List Word} {i : Instr} {prog : List MicroOp} {as more : List Answer}

/-- A request of one word other than INIT writes no register of these at completion, and leaves `PAYLOAD` alone. -/
theorem Configured.sameConfig {u : State} (h : Configured i w [] rest s u) (hop : opOf w ≠ opInit) :
    SameConfig (configured i s) u where
  rows := h.rows
  cols := h.cols
  bl := h.bl
  init := by rw [h.init, beq_false_of_ne hop, Bool.or_false]; rfl
  payload := by rw [h.payload, unpack_nil, List.take_nil, loadPayload_nil]; rfl

/-- A request of one word other than INIT that is offered and accepted with the micro-sequence `prog`, from the port to its
response. -/
theorem word_responds (ho : Offered s [w] rest) (hd : decodeWords [w] = .ok i) (hop : opOf w ≠ opInit)
    (hx : ∀ n, exec i (takenRequest s w [] rest n) = .next (started i prog w [] rest n s))
    (has : s.env.answers = as ++ more) (hl : as.length = writeCount prog) :
    ∃ u, Runs s u ∧ SameConfig (configured i s) u ∧ u.env.reqIn = rest ∧ Responded w prog as s u := by
  obtain ⟨u, hu, hc, hr⟩ := request_responds ho hd hx has hl
  exact ⟨u, hu, hc.sameConfig hop, hc.port, hr⟩

end Word

/-- Settles O46: a nibble transfer of two writes. -/
theorem cmd8RunsToItsResponse : Obligations.Cmd8RunsToItsResponse := by
  refine fun s w rest ho hop => ⟨formatV_faults ho (by simp [hop]), fun ha hb as more has hlen => ?_⟩
  have hd := decodeWords_of_header (i := .cmd8 (cOf w)) (mkHeader_eq hop ha hb rfl) rfl rfl
  exact word_responds ho hd (by simp [hop, opInit]) (fun _ => rfl) has hlen

/-- Settles O47: a command transfer of four writes. -/
theorem cmd4RunsToItsResponse : Obligations.Cmd4RunsToItsResponse := by
  refine fun s w rest ho hop => ⟨formatV_faults ho (by simp [hop]), fun ha hb as more has hlen => ?_⟩
  have hd := decodeWords_of_header (i := .cmd4 (cOf w)) (mkHeader_eq hop ha hb rfl) rfl rfl
  exact word_responds ho hd (by simp [hop, opInit]) (fun _ => rfl) has hlen

/-- Settles O48: a data transfer of four writes. -/
theorem data4RunsToItsResponse : Obligations.Data4RunsToItsResponse := by
  refine fun s w rest ho hop => ⟨formatV_faults ho (by simp [hop]), fun ha hb as more has hlen => ?_⟩
  have hd := decodeWords_of_header (i := .data4 (cOf w)) (mkHeader_eq hop ha hb rfl) rfl rfl
  exact word_responds ho hd (by simp [hop, opInit]) (fun _ => rfl) has hlen

/-- The 16-bit operand `{B, C}` as a number (R49). -/
theorem toNat_append_bytes (b c : Byte) : (b ++ c : BitVec 16).toNat = 256 * b.toNat + c.toNat := by
  rw [BitVec.toNat_append, ← Nat.shiftLeft_add_eq_or_of_lt c.isLt, Nat.shiftLeft_eq, Nat.mul_comm]

/-- WAIT makes no bus write. -/
theorem writeCount_waitProgram (ms : BitVec 16) : writeCount (waitProgram ms) = 0 := by
  unfold waitProgram; split <;> rfl

/-- Settles O49: one delay at most, and no answer taken. -/
theorem waitRunsToItsResponse : Obligations.WaitRunsToItsResponse := by
  refine fun s w rest ho hop => ⟨wait_faults ho hop, fun ha => ?_⟩
  obtain ⟨hb, hc⟩ := extract_append (bOf w) (cOf w)
  have hd := decodeWords_of_header (i := .wait (bOf w ++ cOf w)) (mkHeader_eq hop ha hb.symm hc.symm) rfl rfl
  rw [← toNat_append_bytes, ← waitProgram_eq]
  exact word_responds ho hd (by simp [hop, opInit]) (fun _ => rfl) rfl (writeCount_waitProgram _).symm

/-- Settles O50: `BL` is what acceptance left, and the one byte carries it. -/
theorem setblRunsToItsResponse : Obligations.SetblRunsToItsResponse := by
  refine fun s w rest ho hop => ⟨formatV_faults ho (by simp [hop]), fun ha hb a more has => ?_⟩
  have hd := decodeWords_of_header (i := .setbl (cOf w)) (mkHeader_eq hop ha hb rfl) rfl rfl
  rw [← nz_eq, ← blbits_nz]
  obtain ⟨u, hu, hsame, hport, hr⟩ := word_responds (prog := [.write (blbits s.params (nz (cOf w)))]) (as := [a]) ho hd
    (by simp [hop, opInit]) (fun _ => rfl) has rfl
  exact ⟨u, hu, hsame.bl, hsame.rows, hsame.cols, hsame.init, hsame.payload, hport, hr⟩

end Sys2Proof.Machine
end

section
/-! # Requests that end when they are taken

A request that faults (R81) or fails a check (R66) ends in the step that takes its last word, with no bus write and no delay. -/

namespace Sys2Proof.Machine

open Sys2Proof.Safety

variable {s : State}

/-- `s` leads to `u` by taking a request with payload words `ps`: in one step, if it has none and the host presents it now. -/
structure Takes (ps rest : List Word) (s u : State) : Prop where
  runs : Runs s u
  atOnce : ps = [] → hostPresents s = true → step s = .next u
  port : u.env.reqIn = rest

theorem takesTo_of_takes {rest : List Word} {Q : State → Prop} (h : ∃ u, Takes [] rest s u ∧ Q u) :
    ∃ u, TakesTo s u ∧ Q u :=
  h.imp fun _ ⟨ht, hq⟩ => ⟨⟨ht.runs, ht.atOnce rfl⟩, hq⟩

theorem runs_of_takes {ps rest : List Word} {Q : State → Prop} (h : ∃ u, Takes ps rest s u ∧ Q u) :
    ∃ u, Runs s u ∧ Q u ∧ u.env.reqIn = rest :=
  h.imp fun _ ⟨ht, hq⟩ => ⟨ht.runs, hq, ht.port⟩

section Taken

variable {i : Instr} {hdr : Word} {ps rest : List Word}

/-- A request that is offered and decodes is accepted in the step that takes its last word. -/
theorem takes_of_exec (ho : Offered s (hdr :: ps) rest) (hd : decodeWords (hdr :: ps) = .ok i) :
    ∃ n, ∀ u, exec i (takenRequest s hdr ps rest n) = .next u → Takes ps rest s u := by
  have hps := (decodeWords_eq_ok_iff.mp hd).1
  obtain ⟨k, v, _, hk, hrun, _, _, hstep⟩ := request_taken ho hps
  rw [decideRequest_taken hps hd] at hstep
  refine ⟨k + 1, fun u hu => ⟨⟨k + 1, run_then_step hrun (hstep.trans hu)⟩, fun hnil hp => ?_, ?_⟩⟩
  · obtain rfl : k = 0 := hk hnil hp
    obtain rfl : s = v := Host.Outcome.next.inj hrun
    exact hstep.trans hu
  · rw [(exec_accepted hu).env]; rfl

/-- A request whose acceptance faults ends so when it is taken. -/
theorem request_faults (c : FaultCause) (ho : Offered s (hdr :: ps) rest) (hd : decodeWords (hdr :: ps) = .ok i)
    (hx : ∀ n, exec i (takenRequest s hdr ps rest n) = .next (raiseFault c (takenRequest s hdr ps rest n))) :
    ∃ u, Takes ps rest s u ∧ FaultedBy hdr c.code s u := by
  obtain ⟨n, hn⟩ := takes_of_exec ho hd
  exact ⟨_, hn _ (hx n), faultedBy_raiseFault ho c n⟩

/-- A validation error on the offered request leaves everything else of the block as it was (R66). -/
theorem rejected_rejectRequest (ho : Offered s (hdr :: ps) rest) (rows cols row col : Byte) (n : Nat) :
    Rejected hdr (validate rows cols row col).code s
      (rejectRequest (validate rows cols row col) (takenRequest s hdr ps rest n)) where
  trace := by rw [← responseOf_validate (t := s.terrLast)]; exact List.append_assoc _ _ _
  rsp := congrArg some responseOf_validate
  status := rfl
  idle := ho.idle.idle
  answers := rfl
  terr := rfl
  rows := rfl
  cols := rfl
  bl := rfl
  init := rfl
  fault := rfl
  faultCause := rfl
  ghost := rfl
  params := rfl

end Taken

/-- An illegal word faults with cause 1 (R51). -/
theorem illegal_faults {w : Word} {rest : List Word} (ho : Offered s [w] rest) (h : ¬ LegalHeader w) :
    ∃ u, TakesTo s u ∧ FaultedBy w 0x01 s u :=
  (illegal_word_faults ho h).imp fun _ ⟨htake, hf, _⟩ => ⟨htake, hf⟩

/-- An INIT or SETCUR word with a reserved field that is not 0 faults (R48, R51). -/
theorem formatRC_faults {w : Word} {rest : List Word} (ho : Offered s [w] rest) (hop : opOf w = 0x10 ∨ opOf w = 0x13)
    (ha : aOf w ≠ 0) : ∃ u, TakesTo s u ∧ FaultedBy w 0x01 s u := by
  refine illegal_faults ho ?_
  rcases hop with hop | hop <;> simpa +decide [LegalHeader, hop] using ha

/-- A CLEAR or HOME word with a reserved field that is not 0 faults (R48, R51). -/
theorem formatN_faults {w : Word} {rest : List Word} (ho : Offered s [w] rest) (hop : opOf w = 0x11 ∨ opOf w = 0x12)
    (h : aOf w ≠ 0 ∨ bOf w ≠ 0 ∨ cOf w ≠ 0) : ∃ u, TakesTo s u ∧ FaultedBy w 0x01 s u := by
  have hres : ¬ (aOf w = 0 ∧ bOf w = 0 ∧ cOf w = 0) := by rwa [not_and_or, not_and_or]
  refine illegal_faults ho ?_
  rcases hop with hop | hop <;> simpa +decide [LegalHeader, hop] using hres

end Sys2Proof.Machine
end

section
/-! # The Display Operation Layer's requests (R66 to R76) -/

namespace Sys2Proof.Machine

open Sys2Proof.Safety

variable {s : State}

/-! ## The cursor command (R67) -/

theorem setCurBody_eq (p : Params) (bl : Bool) {row0 : Nat} (col0 : Nat) (h : row0 ≤ 3) :
    setCurBody p bl row0 col0 = writes (bytes8 p bl (cursorByte row0 col0) false) := by
  rw [setCurBody, cmdXfer_eq, ddramCmd_eq h]

/-- Bit 7 of the command marks a DDRAM address, which stands in the others (R55). -/
theorem toNat_ddramCmd (row0 col0 : Nat) : (ddramCmd row0 col0).toNat = 0x80 + (ddramAddr row0 col0).toNat := by
  have hlow : (ddramAddr row0 col0).toNat < 2 ^ 7 := (ddramAddr row0 col0).isLt
  rw [ddramCmd, BitVec.toNat_or, BitVec.toNat_setWidth_of_le (by decide)]
  exact (Nat.two_pow_add_eq_or_of_lt hlow 1).symm

/-- Settles O33: the ROM agrees with R6's table, and a sum below 0x80 fits the address. -/
theorem cursorCommandIsTheDdramAddress : Obligations.CursorCommandIsTheDdramAddress := by
  refine ⟨fun p bl row0 col0 h => setCurBody_eq p bl col0 h, fun row0 col0 h hsum => ?_⟩
  rw [← ddramCmd_eq h, toNat_ddramCmd, ddramAddr, BitVec.toNat_ofNat, Nat.mod_eq_of_lt hsum]

/-! ## Acceptance without a position -/

/-- INIT's eight steps as bytes (R70): the steps are grouped by the machine and in one row here. -/
theorem initProgram_eq (p : Params) (bl : Bool) :
    initProgram p bl =
      [MicroOp.delay 100]
        ++ writes (nibblePair p bl p.fset8Nibble false) ++ [MicroOp.delay 100]
        ++ writes (nibblePair p bl p.fset8Nibble false) ++ [MicroOp.delay 100]
        ++ writes (nibblePair p bl p.fset8Nibble false) ++ [MicroOp.delay 100]
        ++ writes (nibblePair p bl p.fset4Nibble false) ++ [MicroOp.delay 100]
        ++ writes (bytes8 p bl p.functionSetCmd false)
        ++ writes (bytes8 p bl p.dispctlBase false)
        ++ writes (bytes8 p bl p.entryModeCmd false)
        ++ writes (bytes8 p bl p.clearCmd false) ++ [MicroOp.delay 100]
        ++ writes (bytes8 p bl (p.dispctlBase ||| p.dispOn) false) := by
  simp only [initProgram, fsetStep, clearProgram, nibbleXfer_eq, cmdXfer_eq, List.append_assoc, tPowerupMs, tFsetMs, tClearMs]

theorem exec_init_inRange {rows cols : Byte} (h1 : 1 ≤ rows.toNat) (h4 : rows.toNat ≤ 4) (hc : 1 ≤ cols.toNat) :
    exec (.init rows cols) s =
      .next (startRequest (initProgram s.params s.bl) { s with cfgRows := rows, cfgCols := cols }) := by
  have hok : badConfig rows cols = false := badConfig_eq_false.mpr ⟨h1, h4, hc⟩
  rw [exec, execInit, if_neg (by simp [hok])]

theorem exec_init_outside {rows cols : Byte} (h : rows.toNat < 1 ∨ 4 < rows.toNat ∨ cols.toNat < 1) :
    exec (.init rows cols) s = .next (raiseFault .badConfig s) := by
  rw [exec, execInit, if_pos (by simpa [badConfig, or_assoc] using h)]

/-- Settles O37: the range decides, and `initProgram_eq` writes out the eight steps. -/
theorem initIsAcceptedInRangeAndFaultsOutside : Obligations.InitIsAcceptedInRangeAndFaultsOutside := by
  refine fun s rows cols => ⟨fun h1 h4 hc => ?_, fun h => exec_init_outside h⟩
  rw [exec_init_inRange h1 h4 hc, initProgram_eq]
  rfl

/-- Settles O38: the machine's transfers and delays are the statement's by definition. -/
theorem clearAndHomeAreAccepted : Obligations.ClearAndHomeAreAccepted := fun _ => ⟨rfl, rfl⟩

/-- Settles O39: `rowOutOfTable` decides, and in the table `setCurBody_eq` gives the command. -/
theorem setcurIsAcceptedInTableAndFaultsOutside : Obligations.SetcurIsAcceptedInTableAndFaultsOutside := by
  refine fun s row0 col0 => ⟨fun h => ?_, fun h => ?_⟩
  · rw [exec, execSetcur, if_neg (by simpa [rowOutOfTable] using h), setCurBody_eq _ _ _ h]
    rfl
  · rw [exec, execSetcur, if_pos (by simpa [rowOutOfTable] using h)]
    rfl

/-- SETMODE's command, with each flag read as nonzero (R9, R76). -/
theorem dispctlCmd_eq (p : Params) (a b c : Byte) :
    dispctlCmd p a b c = p.dispctlBase ||| (if a ≠ 0 then p.dispOn else 0) ||| (if c ≠ 0 then p.cursorOn else 0)
      ||| (if b ≠ 0 then p.blinkOn else 0) := by
  simp only [dispctlCmd, nz_eq, decide_eq_true_eq]

/-- Settles O42: `dispctlCmd_eq`. -/
theorem setmodeIsAccepted : Obligations.SetmodeIsAccepted := by
  intro s a b c
  rw [← dispctlCmd_eq]
  rfl

/-! ## Validation (R66) -/

section Validate

variable {rows cols row col : Byte}

theorem validate_rowTooLow (h : row.toNat < 1) : validate rows cols row col = .rowTooLow := if_pos h

theorem validate_rowTooHigh (h : rows.toNat < row.toNat) : validate rows cols row col = .rowTooHigh := by
  unfold validate origin
  rw [if_neg (by omega), if_pos (by omega)]

theorem validate_colTooLow (h1 : 1 ≤ row.toNat) (h2 : row.toNat ≤ rows.toNat) (h : col.toNat < 1) :
    validate rows cols row col = .colTooLow := by
  unfold validate origin
  rw [if_neg (by omega), if_neg (by omega), if_pos h]

theorem validate_colTooHigh (h1 : 1 ≤ row.toNat) (h2 : row.toNat ≤ rows.toNat) (h : cols.toNat < col.toNat) :
    validate rows cols row col = .colTooHigh := by
  unfold validate origin
  rw [if_neg (by omega), if_neg (by omega), if_neg (by omega), if_pos (by omega)]

end Validate

/-! ## WCHAR and WSTR -/

/-- The request writes text at a position. -/
def WritesAt (row col : Byte) (i : Instr) : Prop := (∃ ch, i = .wchar ch row col) ∨ ∃ text, i = .wstr row col text

section Position

variable {i : Instr} {row col : Byte}

theorem exec_atPosition (hi : WritesAt row col i) (s : State) :
    ∃ prog, exec i s = .next (atPosition row col prog s) := by
  rcases hi with ⟨ch, rfl⟩ | ⟨text, rfl⟩
  · exact ⟨_, rfl⟩
  · exact ⟨_, rfl⟩

theorem exec_uninitialized (hi : WritesAt row col i) (h : s.initDone = false) :
    exec i s = .next (raiseFault .notInitialized s) := by
  obtain ⟨prog, hx⟩ := exec_atPosition hi s
  rw [hx, atPosition_uninitialized h]

theorem exec_invalid (hi : WritesAt row col i) (h : s.initDone = true) {st : Status}
    (hv : validate s.cfgRows s.cfgCols row col = st) (hst : st ≠ .ok) : exec i s = .next (rejectRequest st s) := by
  subst hv
  obtain ⟨prog, hx⟩ := exec_atPosition hi s
  rw [hx, atPosition_invalid h hst]

/-- Settles O43: the four checks in `validate`'s order, and `validate_eq_ok` for a position that passes them. -/
theorem validationReportsTheFirstFailingCheck : Obligations.ValidationReportsTheFirstFailingCheck := by
  intro s i row col h hi
  simp only [Nat.add_sub_cancel_left, Nat.not_lt]
  refine ⟨fun h1 => ?_, fun _ h2 => ?_, fun h1 h2 h3 => ?_, fun h1 h2 _ h4 => ?_, fun h1 h2 h3 h4 => ?_⟩
  · exact exec_invalid hi h (validate_rowTooLow h1) (by decide)
  · exact exec_invalid hi h (validate_rowTooHigh h2) (by decide)
  · exact exec_invalid hi h (validate_colTooLow h1 h2 h3) (by decide)
  · exact exec_invalid hi h (validate_colTooHigh h1 h2 h4) (by decide)
  · obtain ⟨prog, hx⟩ := exec_atPosition hi s
    exact ⟨prog, hx.trans (congrArg _ (atPosition_valid h (validate_eq_ok.mpr ⟨h1, h2, h3, h4⟩)))⟩

/-- Before INIT the request faults when it is taken (R82). -/
theorem position_faults {hdr : Word} {ps rest : List Word} (hi : WritesAt row col i) (ho : Offered s (hdr :: ps) rest)
    (hd : decodeWords (hdr :: ps) = .ok i) (h : s.initDone = false) :
    ∃ u, Takes ps rest s u ∧ FaultedBy hdr 0x02 s u :=
  request_faults .notInitialized ho hd fun _ => exec_uninitialized hi h

/-- A position that fails a check is answered with its code when the request is taken (R66). -/
theorem position_rejected {hdr : Word} {ps rest : List Word} (hi : WritesAt row col i) (ho : Offered s (hdr :: ps) rest)
    (hd : decodeWords (hdr :: ps) = .ok i) (h : s.initDone = true) {st : Status}
    (hv : validate s.cfgRows s.cfgCols row col = st) (hst : st ≠ .ok) :
    ∃ u, Takes ps rest s u ∧ Rejected hdr st.code s u := by
  subst hv
  obtain ⟨n, hn⟩ := takes_of_exec ho hd
  have hx := exec_invalid (s := takenRequest s hdr ps rest n) hi h rfl hst
  exact ⟨_, hn _ hx, rejected_rejectRequest ho _ _ _ _ n⟩

end Position

/-- A row on the display is one of the ROM's (R16). -/
theorem row_le_four (h : BlockInv s) (hi : s.initDone = true) {row : Byte} (hr : row.toNat ≤ s.cfgRows.toNat) :
    row.toNat ≤ 4 :=
  hr.trans (h.config (.inl hi)).2.1

/-- WCHAR at a valid position loads the cursor command and the character (R74). -/
theorem exec_wchar_valid {ch row col : Byte} (hi : s.initDone = true)
    (hv : validate s.cfgRows s.cfgCols row col = .ok) (h4 : row.toNat ≤ 4) :
    exec (.wchar ch row col) s = .next (startRequest
      (writes (bytes8 s.params s.bl (cursorByte (row.toNat - 1) (col.toNat - 1)) false ++ bytes8 s.params s.bl ch true)) s) := by
  rw [exec, execWchar, atPosition_valid hi hv, origin, setCurBody_eq _ _ _ (by omega), dataXfer_eq, writes_append]

/-- WSTR at a valid position loads `writeProgram` (R75). -/
theorem exec_wstr_valid {row col : Byte} {text : List Byte} (hi : s.initDone = true)
    (hv : validate s.cfgRows s.cfgCols row col = .ok) :
    exec (.wstr row col text) s = .next (startRequest (writeProgram s.params s.bl s.cfgCols row col text) s) := by
  rw [exec, execWstr, atPosition_valid hi hv]

/-- WSTR's micro-sequence as bytes: the cursor command and the characters that fit on the row (R75). -/
theorem writeProgram_eq (p : Params) (bl : Bool) (cols : Byte) {row : Byte} (col : Byte) (text : List Byte)
    (h4 : row.toNat ≤ 4) :
    writeProgram p bl cols row col text =
      writes (bytes8 p bl (cursorByte (row.toNat - 1) (col.toNat - 1)) false
        ++ (text.take (cols.toNat - col.toNat + 1)).flatMap (fun ch => bytes8 p bl ch true)) := by
  rw [writeProgram, columnsLeft, origin, setCurBody_eq _ _ _ (by omega), dataProgram_eq, writes_append]

/-- It makes four bus writes for the cursor and four for each of those characters. -/
theorem writeCount_writeProgram (p : Params) (bl : Bool) (cols row col : Byte) (text : List Byte) :
    writeCount (writeProgram p bl cols row col text) = 4 + 4 * min (cols.toNat - col.toNat + 1) text.length := by
  have hcursor (r c : Nat) : writeCount (setCurBody p bl r c) = 4 := rfl
  have hdata (cs : List Byte) : writeCount (dataProgram p bl cs) = 4 * cs.length := by
    rw [← dataProgram_length p bl cs, dataProgram_eq, writeCount_writes, writes_length]
  rw [writeProgram, writeCount_append, hcursor, hdata, columnsLeft, origin, List.length_take]

/-- Settles O40: `exec_wchar_valid`. -/
theorem wcharIsAcceptedAtAValidPosition : Obligations.WcharIsAcceptedAtAValidPosition :=
  fun _ _ _ _ hinv hi h1 h2 h3 h4 => exec_wchar_valid hi (validate_eq_ok.mpr ⟨h1, h2, h3, h4⟩) (row_le_four hinv hi h2)

/-- Settles O41: `writeProgram_eq`, where a text shorter than the row is taken whole. -/
theorem wstrIsAcceptedAtAValidPosition : Obligations.WstrIsAcceptedAtAValidPosition := by
  intro s row col text hinv hi h1 h2 h3 h4
  rw [exec_wstr_valid hi (validate_eq_ok.mpr ⟨h1, h2, h3, h4⟩), writeProgram_eq _ _ _ _ _ (row_le_four hinv hi h2),
    Nat.min_comm, ← List.take_eq_take_min]
  rfl

/-! ## From the port to the response -/

/-- Settles O51: 28 writes whatever their answers, and `INIT_DONE` at completion. -/
theorem initRunsToItsResponse : Obligations.InitRunsToItsResponse := by
  intro s w rest ho hop
  have hd (ha : aOf w = 0) : decodeWords [w] = .ok (.init (bOf w) (cOf w)) :=
    decodeWords_of_header (mkHeader_eq hop ha rfl rfl) rfl rfl
  refine ⟨formatRC_faults ho (.inl hop), fun ha h => ?_, fun ha h1 h4 hc as more has hlen => ?_⟩
  · exact takesTo_of_takes (request_faults .badConfig ho (hd ha) fun _ => exec_init_outside h)
  · obtain ⟨u, hu, hcfg, hr⟩ := request_responds (prog := initProgram s.params s.bl) ho (hd ha)
      (fun _ => exec_init_inRange h1 h4 hc) has hlen
    have hinit : u.initDone = true := by rw [hcfg.init, hop]; exact Bool.or_true _
    have hpay : u.payload = s.payload := by rw [hcfg.payload, unpack_nil, List.take_nil, loadPayload_nil]
    rw [← initProgram_eq]
    exact ⟨u, hu, hcfg.rows, hcfg.cols, hinit, hcfg.bl, hpay, hcfg.port, hr⟩

/-- Settles O52: a command transfer and its delay. -/
theorem clearRunsToItsResponse : Obligations.ClearRunsToItsResponse := by
  refine fun s w rest ho hop => ⟨formatN_faults ho (.inl hop), fun ha hb hc as more has hlen => ?_⟩
  have hd := decodeWords_of_header (i := .clear) (mkHeader_eq hop ha hb hc) rfl rfl
  exact word_responds ho hd (by simp [hop, opInit]) (fun _ => rfl) has hlen

/-- Settles O53: a command transfer and its delay. -/
theorem homeRunsToItsResponse : Obligations.HomeRunsToItsResponse := by
  refine fun s w rest ho hop => ⟨formatN_faults ho (.inr hop), fun ha hb hc as more has hlen => ?_⟩
  have hd := decodeWords_of_header (i := .home) (mkHeader_eq hop ha hb hc) rfl rfl
  exact word_responds ho hd (by simp [hop, opInit]) (fun _ => rfl) has hlen

/-- Settles O54: both ways of `setcurIsAcceptedInTableAndFaultsOutside`. -/
theorem setcurRunsToItsResponse : Obligations.SetcurRunsToItsResponse := by
  intro s w rest ho hop
  have hd (ha : aOf w = 0) : decodeWords [w] = .ok (.setcur (bOf w) (cOf w)) :=
    decodeWords_of_header (mkHeader_eq hop ha rfl rfl) rfl rfl
  refine ⟨formatRC_faults ho (.inr hop), fun ha h => ?_, fun ha h as more has hlen => ?_⟩
  · exact takesTo_of_takes
      (request_faults .rowIndexOutOfTable ho (hd ha) fun _ => (setcurIsAcceptedInTableAndFaultsOutside _ _ _).2 h)
  · exact word_responds ho (hd ha) (by simp [hop, opInit])
      (fun _ => (setcurIsAcceptedInTableAndFaultsOutside _ _ _).1 h) has hlen

/-- Settles O57: no field is reserved, and `setmodeIsAccepted` gives the transfer. -/
theorem setmodeRunsToItsResponse : Obligations.SetmodeRunsToItsResponse := by
  intro s w rest ho hop as more has hlen
  have hd := decodeWords_of_header (i := .setmode (aOf w) (bOf w) (cOf w)) (mkHeader_eq hop rfl rfl rfl) rfl rfl
  exact word_responds ho hd (by simp [hop, opInit]) (fun _ => setmodeIsAccepted _ _ _ _) has hlen

/-- Settles O55: the checks in R82's order, and `exec_wchar_valid` at a position that passes them. -/
theorem wcharRunsToItsResponse : Obligations.WcharRunsToItsResponse := by
  intro s w rest hinv ho hop
  have hd := decodeWords_of_header (i := .wchar (aOf w) (bOf w) (cOf w)) (mkHeader_eq hop rfl rfl rfl) rfl rfl
  have hat : WritesAt (bOf w) (cOf w) (.wchar (aOf w) (bOf w) (cOf w)) := .inl ⟨_, rfl⟩
  refine ⟨fun h => ?_, fun h h1 => ?_, fun h h2 => ?_, fun h h1 h2 h3 => ?_, fun h h1 h2 h4 => ?_,
    fun h h1 h2 h3 h4 as more has hlen => ?_⟩
  · exact takesTo_of_takes (position_faults hat ho hd h)
  · exact takesTo_of_takes (position_rejected hat ho hd h (validate_rowTooLow h1) (by decide))
  · exact takesTo_of_takes (position_rejected hat ho hd h (validate_rowTooHigh h2) (by decide))
  · exact takesTo_of_takes (position_rejected hat ho hd h (validate_colTooLow h1 h2 h3) (by decide))
  · exact takesTo_of_takes (position_rejected hat ho hd h (validate_colTooHigh h1 h2 h4) (by decide))
  · have hv := validate_eq_ok.mpr ⟨h1, h2, h3, h4⟩
    exact word_responds ho hd (by simp [hop, opInit])
      (fun _ => exec_wchar_valid h hv (row_le_four hinv h h2)) has hlen

theorem chars_length (ps : List Word) (n : Nat) : (chars ps n).length = n := by simp [chars]

theorem chars_take (ps : List Word) (m n : Nat) : (chars ps m).take n = chars ps (min n m) := by
  rw [chars, chars, ← List.map_take, List.take_range]

/-- A WSTR's words decode to its position and the characters that the header announces (R52). -/
theorem decodeWords_wstr {w : Word} {ps : List Word} (ho : opOf w = opWstr) (hl : ps.length = payloadWords w) :
    decodeWords (w :: ps) = .ok (.wstr (bOf w) (cOf w) (chars ps (aOf w).toNat)) := by
  have htake := unpack_take ps (aOf w).toNat (hl ▸ le_four_mul_payloadWords ho)
  rw [decodeWords_cons hl]
  simp +decide [decode, ho, htake, chars_length]

/-- Settles O56: as O55, with the payload's characters cut at the right edge. -/
theorem wstrRunsToItsResponse : Obligations.WstrRunsToItsResponse := by
  intro s w ps rest hinv ho hop hps
  have hd := decodeWords_wstr hop (hps.trans (if_pos hop).symm)
  have hat : WritesAt (bOf w) (cOf w) (.wstr (bOf w) (cOf w) (chars ps (aOf w).toNat)) := .inr ⟨_, rfl⟩
  refine ⟨fun h => ?_, fun h h1 => ?_, fun h h2 => ?_, fun h h1 h2 h3 => ?_, fun h h1 h2 h4 => ?_,
    fun h h1 h2 h3 h4 n hn as more has hlen => ?_⟩
  · exact runs_of_takes (position_faults hat ho hd h)
  · exact runs_of_takes (position_rejected hat ho hd h (validate_rowTooLow h1) (by decide))
  · exact runs_of_takes (position_rejected hat ho hd h (validate_rowTooHigh h2) (by decide))
  · exact runs_of_takes (position_rejected hat ho hd h (validate_colTooLow h1 h2 h3) (by decide))
  · exact runs_of_takes (position_rejected hat ho hd h (validate_colTooHigh h1 h2 h4) (by decide))
  · have hv := validate_eq_ok.mpr ⟨h1, h2, h3, h4⟩
    have htext : (chars ps (aOf w).toNat).take (s.cfgCols.toNat - (cOf w).toNat + 1) = chars ps n := by
      rw [chars_take, hn, Nat.min_comm]
    have hcount : as.length =
        writeCount (writeProgram s.params s.bl s.cfgCols (bOf w) (cOf w) (chars ps (aOf w).toNat)) := by
      rw [hlen, hn, writeCount_writeProgram, chars_length, Nat.min_comm]
    obtain ⟨u, hu, hcfg, hr⟩ := request_responds ho hd (fun m => exec_wstr_valid (s := takenRequest s w ps rest m) h hv)
      has hcount
    have hinit : u.initDone = s.initDone := by rw [hcfg.init, hop]; exact Bool.or_false _
    rw [← htext, ← writeProgram_eq _ _ _ _ _ (row_le_four hinv h h2)]
    exact ⟨u, hu, hcfg.rows, hcfg.cols, hcfg.bl, hinit, hcfg.port, hr⟩

end Sys2Proof.Machine
end

section
/-! # Responses, faults and the events of a step

What holds a response until it is taken (R78), what a fault leaves alone (R81), and what a step may append to the trace (R77,
R80, R89). -/

namespace Sys2Proof.Machine

open Sys2Proof.Safety

variable {s s' u : State}

/-! ## Before INIT (R82) -/

/-- Settles O44: `exec_uninitialized`. -/
theorem writingBeforeInitFaults : Obligations.WritingBeforeInitFaults :=
  fun _ _ _ _ h hi => exec_uninitialized hi h

/-! ## A micro-sequence runs to its response (R79) -/

/-- The block with its micro-sequence run and the request completed, register by register. -/
theorem answered_eq (h0 : s.seqStep = 0) (hs : s.status = 0x00) (as more : List Answer) (k : Nat) (g : Ghost) :
    answered as more k g s = { s with
      initDone := s.initDone || opOf s.reqWord == 0x10
      status := finalStatus as
      terrLast := finalTerr s.terrLast as
      seqStep := s.seqProg.length
      rsp := some (finalResponse s.terrLast as)
      env := { s.env with answers := more, pins := s.env.pins.drop (k + 1) }
      ghost := g
      trace := s.trace ++ eventsOf s.params s.seqProg as ++ [.rsp (finalResponse s.terrLast as)] } := by
  simp only [← responseOf_lastStatus, ← lastStatus_ok, answered, ran, completeRequest, respond, emit, samplePins,
    List.tail_drop, h0, hs, Nat.zero_add, opInit]

/-- Settles O28: `run_to_answered`, with the state it ends in written out. -/
theorem microSequenceRunsToItsResponse : Obligations.MicroSequenceRunsToItsResponse := by
  intro s as more hb h0 hs hn hw hd hnr has hl
  obtain ⟨k, g, hk, hrun⟩ := run_to_answered ⟨hb, hn, hnr, hw, hd⟩ h0 has hl
  exact ⟨k + 1, g, fun hp => congrArg Nat.succ (hk hp), hrun.trans (congrArg _ (answered_eq h0 hs as more k g))⟩

/-! ## Steps that only wait -/

theorem samplePins_afterPins (k : Nat) (s : State) : samplePins (afterPins k s) = afterPins (k + 1) s := by
  simp [afterPins, samplePins, List.tail_drop]

/-- `k` steps of which each only samples the pins. -/
theorem run_samples {k : Nat} (h : ∀ j < k, step (afterPins j s) = .next (samplePins (afterPins j s))) :
    runFor k s = .next (afterPins k s) := by
  induction k with
  | zero => rfl
  | succ k ih =>
    rw [run_then_step (ih fun j hj => h j (by omega)) (h k (Nat.lt_succ_self k)), samplePins_afterPins]

/-! ## A held response (R78, R100) -/

/-- The pin levels of a step after `k` steps of waiting, where the list still has levels. -/
theorem pinsNow_afterPins {k : Nat} (hk : k < s.env.pins.length) : pinsNow (afterPins k s) = s.env.pins[k] :=
  pinsNow_cons (List.drop_eq_getElem_cons hk)

/-- For as long as `rsp_ready` is 0 a held response stays, with everything else. -/
theorem run_held {r : Response} (hr : s.rsp = some r) (hf : s.seqState ≠ .faulted) {k : Nat}
    (hk : k ≤ s.env.pins.length) (hp : ∀ p ∈ s.env.pins.take k, p.rstN = true ∧ p.rspReady = false) :
    runFor k s = .next (afterPins k s) := by
  refine run_samples fun j hj => ?_
  have hnow := pinsNow_afterPins (Nat.lt_of_lt_of_le hj hk)
  obtain ⟨hrst, hrdy⟩ := hp s.env.pins[j] (List.mem_take_iff_getElem.mpr ⟨j, by omega, rfl⟩)
  rw [step_held (s := afterPins j s) (by rw [resetAsserted, hnow, hrst]; rfl) hf hr, hostReady, hnow, hrdy]
  rfl

/-- When it is 1 the host takes the response. -/
theorem step_taken {r : Response} (hr : s.rsp = some r) (hf : s.seqState ≠ .faulted)
    (hp : ∀ p, s.env.pins.head? = some p → p.rstN = true ∧ p.rspReady = true) :
    step s = .next (releaseResponse (samplePins s)) := by
  have hnow : (pinsNow s).rstN = true ∧ (pinsNow s).rspReady = true := by
    cases hc : s.env.pins with
    | nil => rw [pinsNow_nil hc]; exact ⟨rfl, rfl⟩
    | cons p ps => rw [pinsNow_cons hc]; exact hp p (by rw [hc]; rfl)
  rw [step_held (by rw [resetAsserted, hnow.1]; rfl) hf hr, hostReady, if_pos hnow.2]

/-- Settles O23: `run_held`, then `step_taken`. -/
theorem responseIsHeldUntilTaken : Obligations.ResponseIsHeldUntilTaken := by
  intro s r k hr hf hk hp
  have hrun := run_held hr hf hk hp
  refine ⟨hrun, fun hnext => ?_⟩
  rw [run_then_step hrun (step_taken (s := afterPins k s) hr hf hnext), samplePins_afterPins]
  rfl

/-! ## Faults (R81) -/

@[simp] theorem busWriteStep_fault (p : Pins) (b : Byte) (s : State) : (busWriteStep p b s).fault = s.fault := by
  obtain ⟨_, _, _, _, _, _, _, _, h⟩ := busWriteStep_writes p b s; rw [h]

@[simp] theorem delayStep_fault (ms : Nat) (s : State) : (delayStep ms s).fault = s.fault := by
  obtain ⟨_, _, _, _, _, h⟩ := delayStep_writes ms s; rw [h]

/-- Acceptance sets `FAULT` only by raising a fault. -/
theorem Accepted.raised {i : Instr} (h : Accepted i s u) (h0 : s.fault = false) (h1 : u.fault = true) :
    ∃ c, u = raiseFault c s := by
  cases h with
  | fault c => exact ⟨c, rfl⟩
  | reject | start => cases h0.symm.trans h1

/-- The step that sets `FAULT` is the one that takes a request's last word in IDLE, and it raises the fault and no more. -/
theorem step_raises (h : step s = .next s') (h0 : s.fault = false) (h1 : s'.fault = true) :
    s.seqState = .idle ∧ s.rsp = none ∧ ∃ w rest c, s' = raiseFault c (latched s w rest) := by
  cases step_next_cases h with
  | reset => cases h1
  | faulted | held | released | noWord | collect | complete => cases h0.symm.trans h1
  | illegal _ hi hn _ w rest => exact ⟨hi, hn, w, rest, .illegalRequest, rfl⟩
  | accept _ hi hn _ w rest _ _ i _ _ hu => exact ⟨hi, hn, w, rest, (exec_accepted hu).raised h0 h1⟩
  | write => cases h0.symm.trans ((busWriteStep_fault _ _ (samplePins s)).symm.trans h1)
  | delay => cases h0.symm.trans ((delayStep_fault _ (samplePins s)).symm.trans h1)

/-- A fault raised when the last word of a request is taken leaves everything else of the block as it was. -/
theorem faultedBy_latched (h0 : s.fault = false) (hn : s.rsp = none) (w : Word) (rest : List Word) (c : FaultCause) :
    FaultedBy (s.collected.headD w) c.code s (raiseFault c (latched s w rest)) where
  trace := List.append_assoc _ _ _
  faulted := rfl
  fault := rfl
  faultCause := if_neg (ne_true_of_eq_false h0)
  rsp := hn
  answers := rfl
  status := rfl
  terr := rfl
  rows := rfl
  cols := rfl
  bl := rfl
  init := rfl
  ghost := rfl
  params := rfl

/-- FAULTED takes no step: only the pin levels pass (R26). -/
theorem run_faulted (hf : s.seqState = .faulted) (hnr : NoReset s) (k : Nat) : runFor k s = .next (afterPins k s) :=
  run_samples fun j _ => step_faulted (resetAsserted_of_noReset (noReset_afterPins hnr j)) hf

/-- Settles O20: `step_raises` and `faultedBy_latched` for the step that faults, `run_faulted` from then on. -/
theorem faultsAreStickyAndWithoutEffect : Obligations.FaultsAreStickyAndWithoutEffect := by
  refine ⟨fun _ _ => ⟨rfl, rfl, rfl, rfl⟩, fun s s' _ hs h0 h1 => ?_, fun s k hf hnr => run_faulted hf hnr k,
    fun s hf => by simp [reqReady, hf], fun s _ hr => ⟨_, step_reset hr, rfl, rfl, rfl⟩⟩
  obtain ⟨hi, hn, w, rest, c, rfl⟩ := step_raises hs h0 h1
  exact ⟨hi, _, c, faultedBy_latched h0 hn w rest c⟩

/-! ## The events of a step -/

/-- What an event may be while the backlight bit is `bl`: the lines of a bus write (R18, R34, R57), the codes of a status and
of a fault (R77, R78, R80), and the length of a delay (R89). -/
def LegalEvent (p : Params) (bl : Bool) : Event → Prop
  | .tx a b => a = p.devAddr ∧ b &&& p.rwBit = 0 ∧ b &&& p.blBit = if bl then p.blBit else 0
  | .rsp r => r.status ∈ ([0x00, 0x01, 0x02, 0x03, 0x04, 0x05] : List Byte) ∧ (r.terr.isSome = true ↔ r.status = 0x05)
  | .flt c => c ∈ ([0x01, 0x02, 0x03, 0x04] : List Byte)
  | .dly ms => 1 ≤ ms ∧ ms ≤ 65535
  | .req _ | .ans _ => True

/-- From `s` to `u` the trace grows by legal events alone. -/
def AppendsLegal (s u : State) : Prop :=
  ∃ evs, u.trace = s.trace ++ evs ∧ ∀ e ∈ evs, LegalEvent s.params s.bl e

theorem appendsLegal_nil (h : u.trace = s.trace) : AppendsLegal s u := ⟨[], by simp [h], by simp⟩

theorem appendsLegal_one {e : Event} (h : u.trace = s.trace ++ [e]) (he : LegalEvent s.params s.bl e) :
    AppendsLegal s u :=
  ⟨[e], h, by simpa using he⟩

theorem legalEvent_flt (p : Params) (bl : Bool) (c : FaultCause) : LegalEvent p bl (.flt c.code) := by
  cases c <;> simp [LegalEvent, FaultCause.code]

/-- `Respond(s)` puts an error value beside TRANSPORT_ERROR and nowhere else (R78). -/
theorem legalEvent_rsp (p : Params) (bl : Bool) {st : Byte} (t : TErr)
    (h : st ∈ ([0x00, 0x01, 0x02, 0x03, 0x04, 0x05] : List Byte)) : LegalEvent p bl (.rsp (responseOf st t)) := by
  refine ⟨h, ?_⟩
  unfold responseOf
  split
  next h5 => exact ⟨fun _ => h5, fun _ => rfl⟩
  next h5 => exact ⟨nofun, fun he => absurd he h5⟩

/-- What acceptance shows after the request's `Req`. -/
theorem Accepted.appendsLegal {i : Instr} (h : Accepted i s u) : AppendsLegal s u := by
  cases h with
  | fault c => exact appendsLegal_one rfl (legalEvent_flt _ _ c)
  | reject => exact appendsLegal_one rfl (legalEvent_rsp _ _ _ (status_code_mem _))
  | start => exact appendsLegal_nil rfl

/-- What follows a request's `Req` in the step that latches it. -/
theorem AppendsLegal.of_latched {w : Word} {rest : List Word} (h : AppendsLegal (latched s w rest) u) :
    AppendsLegal s u := by
  obtain ⟨evs, ht, hl⟩ := h
  refine ⟨.req (s.collected.headD w) :: evs, ?_, List.forall_mem_cons.mpr ⟨trivial, hl⟩⟩
  rw [ht, latched_trace, List.append_assoc]; rfl

/-- A `W` step shows its own `Tx`, once, and the answer. -/
theorem appendsLegal_busWriteStep {b : Byte} (hb : LegalEvent s.params s.bl (.tx s.params.devAddr b)) (p : Pins) :
    AppendsLegal s (busWriteStep p b s) := by
  have htx : ∀ e ∈ (if s.bwOut then [] else [.tx s.params.devAddr b] : List Event), LegalEvent s.params s.bl e := by
    split
    · simp
    · simpa using hb
  rcases busWriteStep_cases p b s with ⟨_, _, h⟩ | ⟨_, _, h⟩ | ⟨a, rest, _, _, _, h⟩ <;>
    simp only [h, ite_issueWrite_eq_taken]
  · exact appendsLegal_nil rfl
  · exact ⟨_, rfl, htx⟩
  · exact ⟨_, List.append_assoc _ _ _, List.forall_mem_append.mpr ⟨htx, List.forall_mem_singleton.mpr trivial⟩⟩

/-- A `D` step shows its `Dly` at most. -/
theorem appendsLegal_delayStep {ms : Nat} (hd : LegalEvent s.params s.bl (.dly ms)) : AppendsLegal s (delayStep ms s) := by
  obtain ⟨_, _, evs, _, hev, h⟩ := delayStep_writes ms s
  rw [h]
  rcases hev with rfl | rfl
  · exact appendsLegal_nil (List.append_nil _)
  · exact appendsLegal_one rfl hd

/-- A step appends legal events alone, whichever arm it takes. -/
theorem step_appendsLegal (h : BlockInv s) (hs : step s = .next s') : AppendsLegal s s' := by
  cases step_next_cases hs with
  | reset | faulted | held | released | noWord | collect => exact appendsLegal_nil rfl
  | illegal _ _ _ _ w rest => exact .of_latched (appendsLegal_one rfl (legalEvent_flt _ _ .illegalRequest))
  | accept _ _ _ _ w rest _ _ i _ _ hu => exact .of_latched (exec_accepted hu).appendsLegal
  | write _ _ _ b ho =>
    obtain ⟨hbl, hrw⟩ := h.lines b (List.mem_of_getElem? ho)
    exact appendsLegal_busWriteStep (s := samplePins s) ⟨rfl, hrw, hbl⟩ _
  | delay _ _ _ ms ho => exact appendsLegal_delayStep (s := samplePins s) (h.delays ms (List.mem_of_getElem? ho))
  | complete => exact appendsLegal_one rfl (legalEvent_rsp _ _ _ h.status)

/-- Settles O16: `step_appendsLegal`, read off for each kind of event. -/
theorem everyEventIsLegal : Obligations.EveryEventIsLegal := by
  intro s s' h hs
  obtain ⟨evs, ht, hl⟩ := step_appendsLegal h hs
  exact ⟨evs, ht, fun _ _ => hl _, fun _ => hl _, fun _ => hl _, fun _ => hl _⟩

end Sys2Proof.Machine
end

section
/-! # Reset edges and the request port

What a reset edge leaves (R94), and what the block does with the request port while it is not ready (R30, R100). -/

namespace Sys2Proof.Machine

open Sys2Proof.Safety

variable {s s' : State}

/-! ## The reset edge (R94) -/

/-- Settles O8: a reset edge is `resetBlock`, and each register of it is the value R94 gives. -/
theorem resetEdgeTakesTheResetValues : Obligations.ResetEdgeTakesTheResetValues :=
  fun _ h => ⟨_, step_reset h, rfl, rfl, rfl, rfl, rfl, rfl, rfl, rfl, rfl, rfl, rfl, rfl, rfl, rfl, rfl, rfl⟩

/-- Settles O9: `resetBlock` takes the registers' values from the parameters, and `samplePins` drops the first levels. -/
theorem resetEdgeKeepsTheEnvironment : Obligations.ResetEdgeKeepsTheEnvironment := by
  intro s p ps hpins hp
  have hr : resetAsserted s = true := by rw [resetAsserted, pinsNow_cons hpins, hp]; rfl
  have henv : (resetBlock (samplePins s)).env = { s.env with pins := ps } := by
    rw [resetBlock_env, samplePins_env, hpins, List.tail_cons]
  exact ⟨_, step_reset hr, rfl, rfl, rfl, rfl, rfl, rfl, henv⟩

/-! ## The request port (R30, R100) -/

/-- From `s` to `u` the block takes no request word: the port and the request registers stay, and no `Req` appears. -/
structure NoWordTaken (s u : State) : Prop where
  port : u.env.reqIn = s.env.reqIn
  reqWord : u.reqWord = s.reqWord
  payload : u.payload = s.payload
  collected : u.collected = s.collected
  trace : ∃ evs, u.trace = s.trace ++ evs ∧ ∀ w, Event.req w ∉ evs

theorem noWordTaken_busWriteStep (p : Pins) (b : Byte) (s : State) : NoWordTaken s (busWriteStep p b s) := by
  have htx : ∀ w, Event.req w ∉ (if s.bwOut then [] else [.tx s.params.devAddr b] : List Event) := by
    intro w; split <;> simp
  rcases busWriteStep_cases p b s with ⟨_, _, h⟩ | ⟨_, _, h⟩ | ⟨a, rest, _, _, _, h⟩ <;>
    simp only [h, ite_issueWrite_eq_taken]
  · exact ⟨rfl, rfl, rfl, rfl, [], (List.append_nil _).symm, by simp⟩
  · exact ⟨rfl, rfl, rfl, rfl, _, rfl, htx⟩
  · exact ⟨rfl, rfl, rfl, rfl, _, List.append_assoc _ _ _, fun w hm => by simp [htx w] at hm⟩

theorem noWordTaken_delayStep (ms : Nat) (s : State) : NoWordTaken s (delayStep ms s) := by
  obtain ⟨_, _, evs, _, hev, h⟩ := delayStep_writes ms s
  rw [h]
  exact ⟨rfl, rfl, rfl, rfl, evs, rfl, by rcases hev with rfl | rfl <;> simp⟩

/-- The three arms that take a word are those of a ready block to which the host presents one. -/
theorem step_noWordTaken (hn : reqReady s = false ∨ hostPresents s = false) (hr : resetAsserted s = false)
    (h : step s = .next s') : NoWordTaken s s' := by
  have hready (hi : s.seqState = .idle) (hrsp : s.rsp = none) (hp : hostPresents s = true) : False := by
    rcases hn with hn | hn
    · simp [reqReady, hi, hrsp] at hn
    · cases hp.symm.trans hn
  cases step_next_cases h with
  | reset hr' => cases hr.symm.trans hr'
  | collect _ hi hrsp hp => exact (hready hi hrsp hp).elim
  | illegal _ hi hrsp hp => exact (hready hi hrsp hp).elim
  | accept _ hi hrsp hp => exact (hready hi hrsp hp).elim
  | faulted | held | released | noWord => exact ⟨rfl, rfl, rfl, rfl, [], (List.append_nil _).symm, by simp⟩
  | write _ _ _ b => exact { noWordTaken_busWriteStep (pinsNow s) b (samplePins s) with }
  | delay _ _ _ ms => exact { noWordTaken_delayStep ms (samplePins s) with }
  | complete => exact ⟨rfl, rfl, rfl, rfl, [.rsp _], rfl, by simp⟩

/-- Settles O22: `step_noWordTaken`. -/
theorem noRequestIsTakenWhileNotReady : Obligations.NoRequestIsTakenWhileNotReady := by
  intro s s' hn hr hs
  obtain ⟨hport, hword, hpay, hcol, htrace⟩ := step_noWordTaken hn hr hs
  exact ⟨hport, hword, hpay, hcol, htrace⟩

end Sys2Proof.Machine
end

section
/-! # A bus write that waits

Nothing bounds the wait for `bw_ready`, nor the one for `br_valid` (R30, R101). -/

namespace Sys2Proof.Machine

open Sys2Proof.Safety

variable {s : State}

/-- The pin levels of a step after `k` steps of waiting: the list's, and all 1 after its end. -/
theorem pinsNow_afterPins_eq_getD (k : Nat) (s : State) :
    pinsNow (afterPins k s) = s.env.pins[k]?.getD Pins.allHigh := by
  rw [pinsNow, afterPins, List.headD_eq_head?_getD, List.head?_drop]

/-- Two waits in a row. -/
theorem afterPins_afterPins (j k : Nat) (s : State) : afterPins k (afterPins j s) = afterPins (j + k) s := by
  simp only [afterPins, List.drop_drop]

theorem taken_afterPins (b : Byte) (k : Nat) (s : State) : taken b (afterPins k s) = afterPins k (taken b s) := rfl

section Waits

variable (hb : s.seqState = .busy) (hn : s.rsp = none) (hnr : NoReset s) {b : Byte}
  (ho : s.seqProg[s.seqStep]? = some (.write b))
include hb hn hnr ho

/-- For as long as `bw_ready` is 0 a write that is not taken leaves the block as it was. -/
theorem run_untaken (hout : s.bwOut = false) {k : Nat} (hlow : ∀ j < k, (pinsNow (afterPins j s)).bwReady = false) :
    runFor k s = .next (afterPins k s) :=
  run_samples fun j hj => step_write_untaken (s := afterPins j s)
    (resetAsserted_of_noReset (noReset_afterPins hnr j)) hb hn ho hout (hlow j hj)

/-- For as long as no answer comes a write that is out leaves the block as it was. -/
theorem run_unanswered (hout : s.bwOut = true) {k : Nat}
    (hlow : ∀ j < k, (pinsNow (afterPins j s)).brValid = false ∨ s.env.answers = []) :
    runFor k s = .next (afterPins k s) := by
  refine run_samples fun j hj => ?_
  have hstep := step_write_unanswered (s := afterPins j s) (resetAsserted_of_noReset (noReset_afterPins hnr j)) hb hn ho
    (.inl hout) (hlow j hj)
  rwa [taken_of_out (s := samplePins (afterPins j s)) b hout] at hstep

/-- A write that the transport takes at step `n`, and not before, is out from then on for as long as no answer comes. -/
theorem run_taken_unanswered (hout : s.bwOut = false) {n m : Nat}
    (hlow : ∀ j < n, (pinsNow (afterPins j s)).bwReady = false) (hrdy : (pinsNow (afterPins n s)).bwReady = true)
    (hno : ∀ j ≤ m, (pinsNow (afterPins (n + j) s)).brValid = false ∨ s.env.answers = []) :
    runFor (n + 1 + m) s = .next (afterPins (n + 1 + m) (taken b s)) := by
  have htake : step (afterPins n s) = .next (afterPins (n + 1) (taken b s)) := by
    rw [step_write_unanswered (s := afterPins n s) (resetAsserted_of_noReset (noReset_afterPins hnr n)) hb hn ho
      (.inr hrdy) (hno 0 (Nat.zero_le m)), samplePins_afterPins, taken_afterPins]
  rw [run_add (run_then_step (run_untaken hb hn hnr ho hout hlow) htake), ← afterPins_afterPins (n + 1)]
  refine run_unanswered (s := afterPins (n + 1) (taken b s)) hb hn (noReset_afterPins hnr (n + 1)) ho rfl fun j hj => ?_
  rw [afterPins_afterPins, show n + 1 + j = n + (j + 1) by omega]
  exact hno (j + 1) hj

end Waits

/-! ## A transport that never answers -/

/-- Settles O25: until the first step with `bw_ready` the write is not taken, and from then on it is out. -/
theorem unansweredWriteHangsTheBlock : Obligations.UnansweredWriteHangsTheBlock := by
  intro s b k hb hn hout hnr ho hans
  by_cases hrdy : ∃ j < k, (pinsNow (afterPins j s)).bwReady = true
  · obtain ⟨hnk, hnrdy⟩ := Nat.find_spec hrdy
    have hlow : ∀ j < Nat.find hrdy, (pinsNow (afterPins j s)).bwReady = false := fun j hj =>
      Bool.eq_false_iff.mpr fun h => Nat.find_min hrdy hj ⟨hj.trans hnk, h⟩
    obtain ⟨m, hm⟩ := Nat.exists_eq_add_of_le hnk
    have hrun := run_taken_unanswered hb hn hnr ho hout (m := m) hlow hnrdy fun _ _ => .inr hans
    rw [← hm] at hrun
    refine ⟨true, fun _ => rfl, fun _ => rfl, hrun.trans ?_⟩
    simp [afterPins, taken, hout]
  · have hlow : ∀ j < k, (pinsNow (afterPins j s)).bwReady = false := fun j hj =>
      Bool.eq_false_iff.mpr fun h => hrdy ⟨j, hj, h⟩
    refine ⟨false, fun hlen => ?_, fun ⟨p, hp, hready⟩ => ?_, (run_untaken hb hn hnr ho hout hlow).trans ?_⟩
    · have h := hlow _ hlen
      rw [pinsNow_afterPins_eq_getD, List.getElem?_eq_none (Nat.le_refl _)] at h
      cases h
    · obtain ⟨j, hj, rfl⟩ := List.mem_take_iff_getElem.mp hp
      have h := hlow j (by omega)
      rw [pinsNow_afterPins (by omega)] at h
      cases hready.symm.trans h
    · simp [afterPins, hout]

/-! ## A transport that takes the write, and answers it, in its own time -/

/-- The levels of `n` steps without `bw_ready`, the step that takes the write, and `m` steps without `br_valid`; after them
every level is 1. -/
def slowPins (n m : Nat) (p : Pins) : List Pins :=
  List.replicate n { p with rstN := true, bwReady := false } ++
    { p with rstN := true, bwReady := true, brValid := false } :: List.replicate m { p with rstN := true, brValid := false }

section Slow

variable {n m : Nat} {p : Pins}

theorem slowPins_length : (slowPins n m p).length = n + 1 + m := by
  simp [slowPins, Nat.add_assoc, Nat.add_comm 1]

variable (hpins : s.env.pins = slowPins n m p)
include hpins

theorem noReset_of_slowPins : NoReset s := by
  intro q hq
  simp only [hpins, slowPins, List.mem_append, List.mem_cons, List.mem_replicate] at hq
  rcases hq with ⟨_, rfl⟩ | rfl | ⟨_, rfl⟩ <;> rfl

theorem slowPins_not_ready {j : Nat} (hj : j < n) : (pinsNow (afterPins j s)).bwReady = false := by
  rw [pinsNow_afterPins_eq_getD, hpins, slowPins, List.getElem?_append_left (by simpa using hj), List.getElem?_replicate,
    if_pos hj]
  rfl

theorem slowPins_ready : pinsNow (afterPins n s) = { p with rstN := true, bwReady := true, brValid := false } := by
  rw [pinsNow_afterPins_eq_getD, hpins, slowPins, List.getElem?_append_right (by simp)]
  simp

theorem slowPins_no_answer {j : Nat} (hj : j ≤ m) : (pinsNow (afterPins (n + j) s)).brValid = false := by
  cases j with
  | zero => rw [Nat.add_zero, slowPins_ready hpins]
  | succ j =>
    rw [pinsNow_afterPins_eq_getD, hpins, slowPins, List.getElem?_append_right (by simp)]
    simp [Nat.lt_of_succ_le hj]

theorem drop_slowPins {k : Nat} (hk : n + 1 + m ≤ k) : s.env.pins.drop k = [] := by
  rw [hpins, List.drop_eq_nil_iff, slowPins_length]; exact hk

end Slow

/-- Settles O58: the two waits, then the answer at the first step past the levels. -/
theorem busWriteWaitsForTheTransport : Obligations.BusWriteWaitsForTheTransport := by
  intro s b n m p a more hb hn hout ho hans hpins
  have hnr : NoReset s := noReset_of_slowPins hpins
  have hlow : ∀ j < n, (pinsNow (afterPins j s)).bwReady = false := fun _ => slowPins_not_ready hpins
  have hwait : runFor (n + 1 + m) s = .next (afterPins (n + 1 + m) (taken b s)) :=
    run_taken_unanswered hb hn hnr ho hout hlow (by rw [slowPins_ready hpins])
      fun _ hj => .inl (slowPins_no_answer hpins hj)
  have hend : pinsNow (afterPins (n + 1 + m) (taken b s)) = Pins.allHigh :=
    pinsNow_nil (drop_slowPins hpins (Nat.le_refl _))
  have hanswer := step_answered_afterPins (s := taken b s) hb hn hnr ho hans (.inl rfl) (by rw [hend]; rfl)
  rw [taken_of_out (s := taken b s) b rfl] at hanswer
  refine ⟨by simp [busRequest, hb, hn, hout, ho], run_untaken hb hn hnr ho hout hlow, hwait.trans ?_, answeredGhost s b a,
    (run_then_step hwait hanswer).trans ?_⟩
  · simp [afterPins, taken, hout, drop_slowPins hpins]
  · cases a <;>
      simp [afterPins, advance, answerWrite, emit, taken, hout, drop_slowPins hpins, answeredGhost, Answer.status, Answer.terr,
        Status.code]

end Sys2Proof.Machine
end

section
/-! # What requests cost

The bus writes and the delays of each request that is accepted, and the response that is all a rejected one shows (R102). -/

namespace Sys2Proof.Machine

open Sys2Proof.Safety

variable {s u : State}

theorem delayTotal_waitProgram (ms : BitVec 16) : delayTotal (waitProgram ms) = ms.toNat := by
  rw [waitProgram_eq]
  split
  next h => exact h.symm
  next => rfl

theorem delayTotal_writeProgram (p : Params) (bl : Bool) (cols row col : Byte) (text : List Byte) :
    delayTotal (writeProgram p bl cols row col text) = 0 := by
  rw [writeProgram, delayTotal_append, dataProgram_eq, delayTotal_writes]; rfl

/-- WCHAR and WSTR leave IDLE for BUSY by loading their micro-sequence, and in no other way. -/
theorem atPosition_seqProg {row col : Byte} {prog : List MicroOp} (hi : s.seqState = .idle)
    (hb : (atPosition row col prog s).seqState = .busy) : (atPosition row col prog s).seqProg = prog := by
  by_cases hd : s.initDone = true
  · by_cases hv : validate s.cfgRows s.cfgCols row col = .ok
    · rw [atPosition_valid hd hv]; rfl
    · rw [atPosition_invalid hd hv] at hb
      cases hi.symm.trans hb
  · rw [atPosition_uninitialized (by simpa using hd)] at hb
    cases hb

/-- A request that ends in IDLE failed a check, and shows its response alone. -/
theorem Accepted.rejected {i : Instr} (h : Accepted i s u) (hu : u.seqState = .idle) :
    ∃ r, u.trace = s.trace ++ [.rsp r] := by
  cases h with
  | fault | start => cases hu
  | reject => exact ⟨_, rfl⟩

/-- Settles O45: the micro-sequence of each request is counted, and `Accepted.rejected` says what a rejected one shows. -/
theorem requestsCostWhatTheTableSays : Obligations.RequestsCostWhatTheTableSays := by
  refine ⟨fun s u i hx hi hb => ?_, fun s u i hx _ hu => (exec_accepted hx).rejected hu⟩
  cases i with
  | cmd8 | cmd4 | data4 | setbl | clear | home | setmode => cases hx; exact ⟨rfl, rfl⟩
  | wait ms => cases hx; exact ⟨writeCount_waitProgram ms, delayTotal_waitProgram ms⟩
  | init rows cols =>
    rw [exec, execInit] at hx
    split at hx
    · cases hx; cases hb
    · cases hx; exact ⟨rfl, rfl⟩
  | setcur row0 col0 =>
    rw [exec, execSetcur] at hx
    split at hx
    · cases hx; cases hb
    · cases hx; exact ⟨rfl, rfl⟩
  | wchar ch row col =>
    cases hx
    rw [atPosition_seqProg hi hb]
    exact ⟨rfl, rfl⟩
  | wstr row col text =>
    cases hx
    rw [atPosition_seqProg hi hb]
    exact ⟨by rw [writeCount_writeProgram, Nat.min_comm], delayTotal_writeProgram _ _ _ _ _ _⟩

end Sys2Proof.Machine
end
